-- ==== Sys2Proof/Word.lean ====
section
/-! DEFINITION. The words of the CAN/OBD block: bytes, the 41-bit dispatch word, the 99-bit wire word, the alert
word, one slot of the pending queue, and a Vehicle State signal. -/

namespace Sys2Proof

/-- A byte (R9). -/
abbrev Byte := BitVec 8

/-- The dispatch word `DW` of a received frame (R105). -/
abbrev DispatchWord := BitVec 41

/-- The controller's wire representation `WM` of a frame (R92). -/
abbrev WireWord := BitVec 99

/-- The alert word `A` (R102), bit `i` of the set being bit `i` of the number. Its width `ALERT_W` is an open
parameter of the spec (R8), so the bound `A < 2 ^ ALERT_W` is an invariant and not part of the type. -/
abbrev AlertWord := Nat

/-- One slot of the pending queue: the eight data bytes of a Consecutive Frame (R103). -/
abbrev Slot := Vector Byte 8

/-- A Vehicle State signal: an exact rational number of either sign (R23). -/
abbrev Signal := Rat

/-- The all-zero slot, "never populated" (R31). -/
def zeroSlot : Slot := #v[0, 0, 0, 0, 0, 0, 0, 0]

end Sys2Proof
end

