-- ==== Sys2Proof/Config.lean ====
section
/-! DEFINITION. What is fixed for a run: the constants the document gives (R8), the parameters it leaves open, the
values the environment (the Link, the scheduler, the excluded string layer) chooses, and the free values that stand
for those choices. A free value is an `opaque` constant without a body: no proof can see what it is. -/

namespace Sys2Proof

/-! ## Constants the document fixes (R8) -/

/-- `ID_FUNC_REQ`, the identifier of a broadcast functional request. -/
def idFuncReq : BitVec 11 := 0x7DF#11
/-- `ID_PHYS_REQ`, the identifier of a frame physically addressed to this ECU. -/
def idPhysReq : BitVec 11 := 0x7E0#11
/-- `ID_RESP`, the identifier of every frame the responder transmits. -/
def idResp : BitVec 29 := 0x7E8#29
/-- `FC_CONTINUE`, the Flow-Control byte that releases the pending queue. -/
def fcContinue : Byte := 0x30#8
/-- `RXQ_CAP`, the capacity of the receive queue, in frames. -/
def rxqCap : Nat := 10
/-- `ERR_THRESHOLD`, the counter value above which the classification is critical. -/
def errThreshold : Nat := 96
/-- `STD_BIT_RATES`, the bit rates with a built-in timing profile, in kbit/s. -/
def stdBitRates : List Rat := [100, 125, 250, 500, 800, 1000]
/-- `VIN_TOTAL_LEN`, the total length the First Frame of the VIN reply declares. -/
def vinTotalLen : Nat := 20

/-! ## Parameters the document leaves open (R8) -/

/-- `VIN_FF_LAYOUT`: which bytes fill the First Frame of the VIN reply (R220). -/
inductive VinFfLayout where
  | literal
  | itemCount
  deriving DecidableEq, Repr, Inhabited

/-- `numerics`: the arithmetic the PID Codec runs in (R191). `reference` is exact rational arithmetic with ties away
from zero (R197 to R201); `implementation` is any other arithmetic, of which the model knows only that each encoder
depends on its operand alone (the opaque encoders below). -/
inductive Numerics where
  | reference
  | implementation
  deriving DecidableEq, Repr, Inhabited

/-- The six fields of the Vehicle State (R22), as names. -/
inductive VsField where
  | speed | rpm | throttle | coolant | fuel | vin
  deriving DecidableEq, Repr, Inhabited

/-- The open parameters of R8 that some rule reads. They are plain data carried in `State.params`, so that a claim
about every state is a claim about every value of every parameter. The defaults are the spec's suggested values; they
serve only to build values by hand, and no proof about `Config.params` can see them. -/
structure Params where
  /-- `MF_SLOTS - 2` (R8: `MF_SLOTS` is at least 2). -/
  mfSlotsOverTwo : Nat := 0
  /-- `ALERT_W - 2` (R8: `ALERT_W` is at least 2). -/
  alertWOverTwo : Nat := 0
  /-- `CTR_W`, the width in bits of the Bus Status counters (R27, D29); `none` is the spec's reference, naturals without
  a bound. -/
  ctrW : Option Nat := none
  vinFfLayout : VinFfLayout := .literal
  /-- `M1_PID00_MASK`, the four data bytes of the Mode 1 PID `0x00` reply. -/
  m1Pid00Mask : Vector Byte 4 := #v[0x08, 0x18, 0x80, 0x00]
  /-- `M9_PID00_MASK`, the four data bytes of the Mode 9 PID `0x00` reply. -/
  m9Pid00Mask : Vector Byte 4 := #v[0x40, 0x00, 0x00, 0x00]
  numerics : Numerics := .reference
  /-- `T_SEND`, the timeout of a response transmission. -/
  tSend : Nat := 1000
  /-- `T_RXPOLL`, the timeout of `POLL_RECEIVE` in the receive loop. -/
  tRxPoll : Nat := 0
  /-- `T_QWAIT`, the responder's wait on the receive queue; time is not modelled (R302), so no rule reads it. -/
  tQWait : Nat := 0
  /-- `VS_KEYS`, the string names under which the control surface writes the Vehicle State. -/
  vsKeys : List (String × VsField) := []
  deriving DecidableEq, Repr, Inhabited

/-- `MF_SLOTS` (R8, R31). -/
def Params.mfSlots (p : Params) : Nat := p.mfSlotsOverTwo + 2

/-- `ALERT_W` (R8, R102). -/
def Params.alertW (p : Params) : Nat := p.alertWOverTwo + 2

/-! ## The block's data types that configuration and events speak of -/

/-- The Vehicle State `vs` (R22). -/
structure VehicleState where
  /-- km/h -/
  speed : Signal
  /-- revolutions per minute -/
  rpm : Signal
  /-- per cent -/
  throttle : Signal
  /-- degrees Celsius -/
  coolant : Signal
  /-- per cent -/
  fuel : Signal
  /-- 17 characters, `vin[0]` the first -/
  vin : Vector Byte 17
  deriving DecidableEq, Repr, Inhabited

/-- The configuration registers `cfg` (R29). -/
structure BusConfig where
  /-- kbit/s; one of `stdBitRates` or any other positive number. -/
  bitRate : Rat
  txPin : Nat
  rxPin : Nat
  deriving DecidableEq, Repr, Inhabited

/-- `bus_state` (R25). -/
inductive BusState where
  | stopped | running | busOff | recovering
  deriving DecidableEq, Repr, Inhabited

/-- One value for each of the nine counters of Bus Status (R27). -/
structure PerCounter (α : Type) where
  txErrorCounter : α
  rxErrorCounter : α
  txQueueDepth : α
  rxQueueDepth : α
  txFailedCount : α
  rxMissedCount : α
  rxOverrunCount : α
  arbLostCount : α
  busErrorCount : α
  deriving DecidableEq, Repr, Inhabited

/-- The nine counters (R27), natural numbers; `CTR_W` bounds what the Link may report of them (`fitsCounters`). -/
abbrev Counters := PerCounter Nat

/-! ## What the Link draws (R14, R273) -/

/-- The outcome of `Link.transmit` (R132). -/
inductive SendOutcome where
  | ok | timeout | failed
  deriving DecidableEq, Repr, Inhabited

/-- The outcome of a `Ctrl` call (R272). -/
inductive CtrlOutcome where
  | ok | fail
  deriving DecidableEq, Repr, Inhabited

/-- Whether `Link.receive` delivers the word at the head of the controller's receive queue or times out (R133,
R302). -/
inductive RecvOutcome where
  | deliver | timeout
  deriving DecidableEq, Repr, Inhabited

/-- What happens next: a step of one of the four agents of R14, in the notation of R121 where it has one. -/
inductive Event where
  /-- `RESP`: the responder runs to the end of its current iteration (R158). -/
  | resp
  /-- The responder runs to its next scheduling point only, so that other agents can step between two
  transmissions of one release (R15, R74). -/
  | respPart
  /-- `RXLOOP`: one iteration of the receive loop (R157). -/
  | rxloop
  /-- `HOST`: the host issues the command spelled by these bytes (R101, R306). -/
  | host (bytes : List Byte)
  /-- The excluded control surface's key/value write (R149). -/
  | hostKey (key value : String)
  /-- `RX`: the Link takes a word from the bus and delivers it to the next `POLL_RECEIVE` (R121). -/
  | rx (w : WireWord)
  /-- `ALERT`: the Link raises the alerts of the word (R32). -/
  | alert (a : AlertWord)
  /-- `LINK send=`: fixes the Link's next undecided `SEND` outcome (R121). -/
  | linkSend (o : SendOutcome)
  /-- `LINK ctrl=`: fixes the Link's next undecided `Ctrl` outcome (R121). -/
  | linkCtrl (o : CtrlOutcome)
  /-- Fixes the Link's next undecided `POLL_RECEIVE` outcome. -/
  | linkRecv (o : RecvOutcome)
  /-- The Link reports new counters (R28). -/
  | linkCounters (c : Counters)
  /-- The Link's hidden state moves: its receive queue and its operating state become anything (R33). -/
  | linkHidden (rxFifo : List WireWord) (opState : Nat)
  /-- The head of the controller's transmit queue leaves it (R73). -/
  | linkTxDone
  deriving DecidableEq, Repr, Inhabited

/-! ## Free values -/

namespace Config

/-- The open parameters of this machine (R8). -/
opaque params : Params
/-- `VS_INIT`: the Vehicle State after reset (R38, R282). -/
opaque vsInit : VehicleState
/-- The configuration registers before the first successful `CONFIGURE_START`: unspecified (R38). -/
opaque cfgInit : BusConfig
/-- The Link's operating state at reset: no law (R33). -/
opaque opStateInit : Nat
/-- The `draw`-th outcome the Link chooses for a `SEND` with this timeout (R273). -/
opaque freeSend (draw opState timeout : Nat) : SendOutcome
/-- The `draw`-th outcome the Link chooses for a `Ctrl` call (R272). -/
opaque freeCtrl (draw opState : Nat) : CtrlOutcome
/-- The `draw`-th choice of the Link whether `Link.receive` delivers (R273, R302). -/
opaque freeRecv (draw opState timeout : Nat) : RecvOutcome
/-- Which agent steps next when no event is listed (R14: any enabled agent may take the next step). -/
opaque freeEvent (turn : Nat) : Event
/-- What the excluded string layer reads from a numeric string; `none` when it is malformed (R149, U17). -/
opaque parseSignal (value : String) : Option Signal
/-- The bytes the excluded string layer hands over for a `vin` value (R149). -/
opaque vinBytes (value : String) : List Byte
/-- The encoder of PID `0x05` under `Numerics.implementation` (R191). -/
opaque enc05 (x : Signal) : Byte
/-- The encoder of PID `0x0C` under `Numerics.implementation` (R191). -/
opaque enc0C (x : Signal) : BitVec 16
/-- The encoder of PID `0x0D` under `Numerics.implementation` (R191). -/
opaque enc0D (x : Signal) : Byte
/-- The encoder of PID `0x11` under `Numerics.implementation` (R191). -/
opaque enc11 (x : Signal) : Byte
/-- The encoder of PID `0x2F` under `Numerics.implementation` (R191). -/
opaque enc2F (x : Signal) : Byte

end Config

end Sys2Proof
end

