-- ==== Sys2Proof/Syntax.lean ====
section
/-! DEFINITION. The block's operations as one inductive type, a constructor for each row of the operation map
(R110, R111, R112), with the operands each row gives them. -/

namespace Sys2Proof

/-- A Frame (R20, R90). `data` lists the valid bytes only (R21: the bytes at `dlc` and above take no part in frame
equality, so the type leaves them out). The record also spells non-Frames (`dlc` above 8, identifier bits above bit
10 in a standard frame), because `SEND` tests for them (R132); `Frame.valid` tells them apart. -/
structure Frame where
  extd : Bool
  rtr : Bool
  id : BitVec 29
  dlc : Nat
  data : List Byte
  deriving DecidableEq, Repr, Inhabited

/-- The seven fields of the dispatch word (R105). -/
structure DispatchFields where
  extd : Bool
  rtr : Bool
  id : BitVec 11
  dlc : Nat
  d0 : Byte
  d1 : Byte
  d2 : Byte
  deriving DecidableEq, Repr, Inhabited

/-- The operands of `VS_WRITE` (R149): a field and a value of that field's kind. -/
inductive VsUpdate where
  | speed (v : Signal)
  | rpm (v : Signal)
  | throttle (v : Signal)
  | coolant (v : Signal)
  | fuel (v : Signal)
  | vin (v : List Byte)
  deriving DecidableEq, Repr, Inhabited

/-- The operations. A constructor of a received-frame class carries the dispatch-word fields its row leaves open. -/
inductive Instr where
  /-- `OBD.SHORT` (R176). -/
  | obdShort (dlc : Nat) (d0 d1 : Byte)
  /-- `OBD.M1.PID00` (R196). -/
  | obdM1Pid00 (dlc : Nat) (d0 : Byte)
  /-- `OBD.M1.PID05` (R197). -/
  | obdM1Pid05 (dlc : Nat) (d0 : Byte)
  /-- `OBD.M1.PID0C` (R198). -/
  | obdM1Pid0C (dlc : Nat) (d0 : Byte)
  /-- `OBD.M1.PID0D` (R199). -/
  | obdM1Pid0D (dlc : Nat) (d0 : Byte)
  /-- `OBD.M1.PID11` (R200). -/
  | obdM1Pid11 (dlc : Nat) (d0 : Byte)
  /-- `OBD.M1.PID2F` (R201). -/
  | obdM1Pid2F (dlc : Nat) (d0 : Byte)
  /-- `OBD.M1.UNSUP` (R173). -/
  | obdM1Unsup (dlc : Nat) (d0 pid : Byte)
  /-- `OBD.M9.PID00` (R202). -/
  | obdM9Pid00 (dlc : Nat) (d0 : Byte)
  /-- `OBD.M9.PID02` (R227). -/
  | obdM9Pid02 (dlc : Nat) (d0 : Byte)
  /-- `OBD.M9.UNSUP` (R174). -/
  | obdM9Unsup (dlc : Nat) (d0 pid : Byte)
  /-- `OBD.MODE.UNSUP` (R175). -/
  | obdModeUnsup (dlc : Nat) (d0 mode pid : Byte)
  /-- `FC.CONT` (R229). -/
  | fcCont (dlc : Nat) (d1 d2 : Byte)
  /-- `FC.OTHER` (R178). -/
  | fcOther (dlc : Nat) (d0 d1 d2 : Byte)
  /-- `RX.IGNORE` (R179). -/
  | rxIgnore (x : DispatchFields)
  /-- `CONFIGURE_START` (R130). -/
  | configureStart (bitRate : Rat) (txPin rxPin : Nat)
  /-- `SEND` (R132). -/
  | send (f : Frame) (timeout : Nat)
  /-- `POLL_RECEIVE` (R133). -/
  | pollReceive (timeout : Nat)
  /-- `POLL_ALERTS` (R134). -/
  | pollAlerts
  /-- `STOP` (R131). -/
  | stop
  /-- `GET_STATUS` (R135). -/
  | getStatus
  /-- `VS_WRITE` (R149). -/
  | vsWrite (u : VsUpdate)
  /-- `DIAG_REPORT` (R277). -/
  | diagReport
  /-- `ALERT.BUSOFF` (R151). -/
  | alertBusOff (a : AlertWord)
  /-- `ALERT.BUSRECOVERED` (R152). -/
  | alertBusRecovered (a : AlertWord)
  deriving DecidableEq, Repr

/-- The three kinds of encoding an operation has (R101, R102, R105). -/
inductive Format where
  | rxf | cmd | alert
  deriving DecidableEq, Repr

/-- An encoded operation: the dispatch word of a received frame, the bytes of a host command, an alert word. -/
inductive OpWord where
  | rxf (w : DispatchWord)
  | cmd (bytes : List Byte)
  | alert (a : AlertWord)
  deriving DecidableEq, Repr

/-- The format of an encoded operation. -/
def OpWord.format : OpWord → Format
  | .rxf _ => .rxf
  | .cmd _ => .cmd
  | .alert _ => .alert

/-- The format the operation map gives each operation (R110, R111, R112). -/
def Instr.format : Instr → Format
  | .obdShort _ _ _ => .rxf
  | .obdM1Pid00 _ _ => .rxf
  | .obdM1Pid05 _ _ => .rxf
  | .obdM1Pid0C _ _ => .rxf
  | .obdM1Pid0D _ _ => .rxf
  | .obdM1Pid11 _ _ => .rxf
  | .obdM1Pid2F _ _ => .rxf
  | .obdM1Unsup _ _ _ => .rxf
  | .obdM9Pid00 _ _ => .rxf
  | .obdM9Pid02 _ _ => .rxf
  | .obdM9Unsup _ _ _ => .rxf
  | .obdModeUnsup _ _ _ _ => .rxf
  | .fcCont _ _ _ => .rxf
  | .fcOther _ _ _ _ => .rxf
  | .rxIgnore _ => .rxf
  | .configureStart _ _ _ => .cmd
  | .send _ _ => .cmd
  | .pollReceive _ => .cmd
  | .pollAlerts => .cmd
  | .stop => .cmd
  | .getStatus => .cmd
  | .vsWrite _ => .cmd
  | .diagReport => .cmd
  | .alertBusOff _ => .alert
  | .alertBusRecovered _ => .alert

end Sys2Proof
end

