-- ==== Sys2Proof/WellFormed.lean ====
section
/-! DEFINITION. Which terms of `Instr` are operations of the block: the DLC condition of each row of the operation
map, the exclusions that the order of the rows implies, the bytes past the DLC (which the dispatch word holds as
zero), and the operand checks of the host commands. -/

namespace Sys2Proof

/-- The PIDs of Mode 1 that have an encoder (R3, R170). -/
def m1Pids : List Byte := [0x00, 0x05, 0x0C, 0x0D, 0x11, 0x2F]

/-- The PIDs of Mode 9 that have a reply (R3, R170). -/
def m9Pids : List Byte := [0x00, 0x02]

/-- A request long enough to hold mode and PID, and no longer than a frame (R96). -/
def requestDlc (dlc : Nat) : Bool := decide (3 ≤ dlc) && decide (dlc ≤ 8)

/-- Bytes past the DLC are held as zero in the dispatch word (R105). -/
def pastDlcZero (dlc : Nat) (d0 d1 d2 : Byte) : Bool :=
  (decide (1 ≤ dlc) || d0 == 0) && (decide (2 ≤ dlc) || d1 == 0) && (decide (3 ≤ dlc) || d2 == 0)

/-- The record has as many data bytes as its DLC field says, at most eight (R20, R90). -/
def Frame.canonical (f : Frame) : Bool := decide (f.dlc < 16) && f.data.length == min f.dlc 8

/-- The operations of the map. -/
def Instr.wf : Instr → Bool
  | .obdShort dlc d0 d1 => decide (dlc ≤ 2) && pastDlcZero dlc d0 d1 0
  | .obdM1Pid00 dlc _ => requestDlc dlc
  | .obdM1Pid05 dlc _ => requestDlc dlc
  | .obdM1Pid0C dlc _ => requestDlc dlc
  | .obdM1Pid0D dlc _ => requestDlc dlc
  | .obdM1Pid11 dlc _ => requestDlc dlc
  | .obdM1Pid2F dlc _ => requestDlc dlc
  | .obdM1Unsup dlc _ pid => requestDlc dlc && !m1Pids.contains pid
  | .obdM9Pid00 dlc _ => requestDlc dlc
  | .obdM9Pid02 dlc _ => requestDlc dlc
  | .obdM9Unsup dlc _ pid => requestDlc dlc && !m9Pids.contains pid
  | .obdModeUnsup dlc _ mode _ => requestDlc dlc && mode != 0x01 && mode != 0x09
  | .fcCont dlc d1 d2 => decide (1 ≤ dlc) && decide (dlc ≤ 8) && pastDlcZero dlc fcContinue d1 d2
  | .fcOther dlc d0 d1 d2 => decide (dlc ≤ 8) && pastDlcZero dlc d0 d1 d2 && d0 != fcContinue
  | .rxIgnore x =>
    decide (x.dlc ≤ 8) && pastDlcZero x.dlc x.d0 x.d1 x.d2 &&
      (x.extd || x.rtr || (x.id != idFuncReq && x.id != idPhysReq))
  | .configureStart bitRate _ _ => decide (0 < bitRate.num)
  | .send f _ => f.canonical
  | .pollReceive _ => true
  | .pollAlerts => true
  | .stop => true
  | .getStatus => true
  | .vsWrite _ => true
  | .diagReport => true
  | .alertBusOff a => a.testBit 0
  | .alertBusRecovered a => a.testBit 1

end Sys2Proof
end

