-- ==== Sys2Proof/Decode.lean ====
section
/-! DEFINITION. From encodings to operations and back: the wire representation of a frame (R92 to R95), the dispatch
word (R105), the operation map as a table (R110) and as the dispatcher's procedure (R170), the byte encoding of the
host commands, the alert word (R112), and the encoder. -/

namespace Sys2Proof

/-! ## Bit fields -/

/-- The bit vector `v` placed with its bit 0 at bit `lo` of a `w`-bit word. -/
def place (w lo : Nat) {n : Nat} (v : BitVec n) : BitVec w := v.setWidth w <<< lo

/-- The slice of `n` bits from bit `lo` up (R9). -/
def slice {w : Nat} (v : BitVec w) (lo n : Nat) : BitVec n := v.extractLsb' lo n

/-! ## Frames and their wire representation -/

/-- `valid(f)` (R91): the record is a Frame. -/
def Frame.valid (f : Frame) : Bool := decide (f.dlc ≤ 8) && (f.extd || slice f.id 11 18 == 0)

/-- The byte at index `i` of a frame, `0x00` past the DLC (R93, R105). -/
def Frame.byte (f : Frame) (i : Nat) : Byte := if i < f.dlc then f.data.getD i 0 else 0

/-- `encode_wire` (R93), in the layout of R92. -/
def encodeWire (f : Frame) : WireWord :=
  place 99 98 (BitVec.ofBool f.extd) ||| place 99 97 (BitVec.ofBool f.rtr) ||| place 99 68 f.id |||
    place 99 64 (BitVec.ofNat 4 f.dlc) ||| place 99 56 (f.byte 0) ||| place 99 48 (f.byte 1) |||
    place 99 40 (f.byte 2) ||| place 99 32 (f.byte 3) ||| place 99 24 (f.byte 4) ||| place 99 16 (f.byte 5) |||
    place 99 8 (f.byte 6) ||| place 99 0 (f.byte 7)

/-- The record a wire word spells, a Frame or not: every field as it stands, and the valid bytes. -/
def wireRecord (w : WireWord) : Frame :=
  { extd := w.getLsbD 98
    rtr := w.getLsbD 97
    id := slice w 68 29
    dlc := (slice w 64 4).toNat
    data := [slice w 56 8, slice w 48 8, slice w 40 8, slice w 32 8, slice w 24 8, slice w 16 8, slice w 8 8,
      slice w 0 8].take (slice w 64 4).toNat }

/-- `decode_wire` (R94): the Frame a wire word spells, or `none`. -/
def decodeWire (w : WireWord) : Option Frame := if (wireRecord w).valid then some (wireRecord w) else none

/-! ## The dispatch word -/

/-- The seven fields `DW` takes from a received frame (R105). -/
def dispatchFields (f : Frame) : DispatchFields :=
  { extd := f.extd, rtr := f.rtr, id := f.id.setWidth 11, dlc := f.dlc, d0 := f.byte 0, d1 := f.byte 1, d2 := f.byte 2 }

/-- The fields laid out as the dispatch word (R105). -/
def packDispatch (x : DispatchFields) : DispatchWord :=
  place 41 40 (BitVec.ofBool x.extd) ||| place 41 39 (BitVec.ofBool x.rtr) ||| place 41 28 x.id |||
    place 41 24 (BitVec.ofNat 4 x.dlc) ||| place 41 16 x.d0 ||| place 41 8 x.d1 ||| place 41 0 x.d2

/-- The fields of a dispatch word (R105). -/
def unpackDispatch (w : DispatchWord) : DispatchFields :=
  { extd := w.getLsbD 40, rtr := w.getLsbD 39, id := slice w 28 11, dlc := (slice w 24 4).toNat
    d0 := slice w 16 8, d1 := slice w 8 8, d2 := slice w 0 8 }

/-- `DW(f)` (R105). -/
def dispatchWord (f : Frame) : DispatchWord := packDispatch (dispatchFields f)

/-- An invalid byte is never interpreted (R105): the fields past the DLC are read as zero. -/
def DispatchFields.validBytes (x : DispatchFields) : DispatchFields :=
  { x with
    d0 := if 1 ≤ x.dlc then x.d0 else 0
    d1 := if 2 ≤ x.dlc then x.d1 else 0
    d2 := if 3 ≤ x.dlc then x.d2 else 0 }

/-- A received frame with these fields; the dispatcher reads nothing else of it (R184). -/
def frameOfFields (x : DispatchFields) : Frame :=
  { extd := x.extd, rtr := x.rtr, id := x.id.setWidth 29, dlc := x.dlc
    data := [x.d0, x.d1, x.d2, 0, 0, 0, 0, 0].take x.dlc }

/-! ## The operation map as a table -/

/-- One RXF row of the operation map (R110). -/
structure RxfRow where
  mnemonic : String
  mask : DispatchWord
  pattern : DispatchWord
  minDlc : Nat
  maxDlc : Nat
  deriving DecidableEq, Repr

/-- The fifteen RXF rows, in order (R110). -/
def rxfRows : List RxfRow :=
  [⟨"OBD.SHORT", 0x1FFF0000000, 0x07DF0000000, 0, 2⟩,
   ⟨"OBD.M1.PID00", 0x1FFF000FFFF, 0x07DF0000100, 3, 8⟩,
   ⟨"OBD.M1.PID05", 0x1FFF000FFFF, 0x07DF0000105, 3, 8⟩,
   ⟨"OBD.M1.PID0C", 0x1FFF000FFFF, 0x07DF000010C, 3, 8⟩,
   ⟨"OBD.M1.PID0D", 0x1FFF000FFFF, 0x07DF000010D, 3, 8⟩,
   ⟨"OBD.M1.PID11", 0x1FFF000FFFF, 0x07DF0000111, 3, 8⟩,
   ⟨"OBD.M1.PID2F", 0x1FFF000FFFF, 0x07DF000012F, 3, 8⟩] ++
  [⟨"OBD.M1.UNSUP", 0x1FFF000FF00, 0x07DF0000100, 3, 8⟩,
   ⟨"OBD.M9.PID00", 0x1FFF000FFFF, 0x07DF0000900, 3, 8⟩,
   ⟨"OBD.M9.PID02", 0x1FFF000FFFF, 0x07DF0000902, 3, 8⟩,
   ⟨"OBD.M9.UNSUP", 0x1FFF000FF00, 0x07DF0000900, 3, 8⟩,
   ⟨"OBD.MODE.UNSUP", 0x1FFF0000000, 0x07DF0000000, 3, 8⟩,
   ⟨"FC.CONT", 0x1FFF0FF0000, 0x07E00300000, 1, 8⟩,
   ⟨"FC.OTHER", 0x1FFF0000000, 0x07E00000000, 0, 8⟩,
   ⟨"RX.IGNORE", 0x00000000000, 0x00000000000, 0, 8⟩]

/-- The row's mask, match and DLC condition hold of the word (R109). -/
def RxfRow.selects (r : RxfRow) (w : DispatchWord) : Bool :=
  w &&& r.mask == r.pattern && decide (r.minDlc ≤ (slice w 24 4).toNat) && decide ((slice w 24 4).toNat ≤ r.maxDlc)

/-- The mnemonic of the first row that selects the word (R109). -/
def tableMnemonic (w : DispatchWord) : Option String := (rxfRows.find? (·.selects w)).map (·.mnemonic)

/-- The operation map's name for an operation of format RXF (R110). -/
def Instr.rxfMnemonic : Instr → Option String
  | .obdShort _ _ _ => some "OBD.SHORT"
  | .obdM1Pid00 _ _ => some "OBD.M1.PID00"
  | .obdM1Pid05 _ _ => some "OBD.M1.PID05"
  | .obdM1Pid0C _ _ => some "OBD.M1.PID0C"
  | .obdM1Pid0D _ _ => some "OBD.M1.PID0D"
  | .obdM1Pid11 _ _ => some "OBD.M1.PID11"
  | .obdM1Pid2F _ _ => some "OBD.M1.PID2F"
  | .obdM1Unsup _ _ _ => some "OBD.M1.UNSUP"
  | .obdM9Pid00 _ _ => some "OBD.M9.PID00"
  | .obdM9Pid02 _ _ => some "OBD.M9.PID02"
  | .obdM9Unsup _ _ _ => some "OBD.M9.UNSUP"
  | .obdModeUnsup _ _ _ _ => some "OBD.MODE.UNSUP"
  | .fcCont _ _ _ => some "FC.CONT"
  | .fcOther _ _ _ _ => some "FC.OTHER"
  | .rxIgnore _ => some "RX.IGNORE"
  | .configureStart _ _ _ => none
  | .send _ _ => none
  | .pollReceive _ => none
  | .pollAlerts => none
  | .stop => none
  | .getStatus => none
  | .vsWrite _ => none
  | .diagReport => none
  | .alertBusOff _ => none
  | .alertBusRecovered _ => none

/-! ## The dispatcher's procedure -/

/-- The class of a Mode 1 request (R170). -/
def classifyM1 (dlc : Nat) (d0 pid : Byte) : Instr :=
  if pid = 0x00 then .obdM1Pid00 dlc d0
  else if pid = 0x05 then .obdM1Pid05 dlc d0
  else if pid = 0x0C then .obdM1Pid0C dlc d0
  else if pid = 0x0D then .obdM1Pid0D dlc d0
  else if pid = 0x11 then .obdM1Pid11 dlc d0
  else if pid = 0x2F then .obdM1Pid2F dlc d0
  else .obdM1Unsup dlc d0 pid

/-- The class of a Mode 9 request (R170). -/
def classifyM9 (dlc : Nat) (d0 pid : Byte) : Instr :=
  if pid = 0x00 then .obdM9Pid00 dlc d0
  else if pid = 0x02 then .obdM9Pid02 dlc d0
  else .obdM9Unsup dlc d0 pid

/-- `DISPATCH`'s selection (R170), on the fields of the frame's dispatch word. -/
def classify (x : DispatchFields) : Instr :=
  if x.extd || x.rtr then .rxIgnore x
  else if x.id = idFuncReq then
    if x.dlc < 3 then .obdShort x.dlc x.d0 x.d1
    else if x.d1 = 0x01 then classifyM1 x.dlc x.d0 x.d2
    else if x.d1 = 0x09 then classifyM9 x.dlc x.d0 x.d2
    else .obdModeUnsup x.dlc x.d0 x.d1 x.d2
  else if x.id = idPhysReq then
    if 1 ≤ x.dlc ∧ x.d0 = fcContinue then .fcCont x.dlc x.d1 x.d2
    else .fcOther x.dlc x.d0 x.d1 x.d2
  else .rxIgnore x

/-- The dispatch fields an RXF operation comes from; other operations have none. -/
def Instr.dispatchFields : Instr → Option DispatchFields
  | .obdShort dlc d0 d1 => some ⟨false, false, idFuncReq, dlc, d0, d1, 0⟩
  | .obdM1Pid00 dlc d0 => some ⟨false, false, idFuncReq, dlc, d0, 0x01, 0x00⟩
  | .obdM1Pid05 dlc d0 => some ⟨false, false, idFuncReq, dlc, d0, 0x01, 0x05⟩
  | .obdM1Pid0C dlc d0 => some ⟨false, false, idFuncReq, dlc, d0, 0x01, 0x0C⟩
  | .obdM1Pid0D dlc d0 => some ⟨false, false, idFuncReq, dlc, d0, 0x01, 0x0D⟩
  | .obdM1Pid11 dlc d0 => some ⟨false, false, idFuncReq, dlc, d0, 0x01, 0x11⟩
  | .obdM1Pid2F dlc d0 => some ⟨false, false, idFuncReq, dlc, d0, 0x01, 0x2F⟩
  | .obdM1Unsup dlc d0 pid => some ⟨false, false, idFuncReq, dlc, d0, 0x01, pid⟩
  | .obdM9Pid00 dlc d0 => some ⟨false, false, idFuncReq, dlc, d0, 0x09, 0x00⟩
  | .obdM9Pid02 dlc d0 => some ⟨false, false, idFuncReq, dlc, d0, 0x09, 0x02⟩
  | .obdM9Unsup dlc d0 pid => some ⟨false, false, idFuncReq, dlc, d0, 0x09, pid⟩
  | .obdModeUnsup dlc d0 mode pid => some ⟨false, false, idFuncReq, dlc, d0, mode, pid⟩
  | .fcCont dlc d1 d2 => some ⟨false, false, idPhysReq, dlc, fcContinue, d1, d2⟩
  | .fcOther dlc d0 d1 d2 => some ⟨false, false, idPhysReq, dlc, d0, d1, d2⟩
  | .rxIgnore x => some x
  | .configureStart _ _ _ => none
  | .send _ _ => none
  | .pollReceive _ => none
  | .pollAlerts => none
  | .stop => none
  | .getStatus => none
  | .vsWrite _ => none
  | .diagReport => none
  | .alertBusOff _ => none
  | .alertBusRecovered _ => none

/-! ## Operands of the host commands

The spec gives the commands an 8-bit code and no encoding of their operands (R101). The operand bytes are this
model's (DESIGN CHOICE, notes/assumptions/6.md): a natural number in groups of seven bits, least significant group
first, bit 7 set on every group but the last; a signal as its numerator (zigzag) and its denominator less one, in
lowest terms; a frame as the thirteen bytes of its wire word, least significant first. -/

/-- The groups of a natural number; `fuel` bounds the number of groups after the first. -/
def natGroups : Nat → Nat → List Byte
  | 0, n => [BitVec.ofNat 8 (n % 128)]
  | fuel + 1, n =>
    if n < 128 then [BitVec.ofNat 8 n] else BitVec.ofNat 8 (n % 128 + 128) :: natGroups fuel (n / 128)

/-- A natural number as bytes. -/
def natBytes (n : Nat) : List Byte := natGroups n.log2 n

/-- A natural number from bytes, and the rest; a superfluous last group of zero is refused. -/
def takeNat : List Byte → Option (Nat × List Byte)
  | [] => none
  | b :: bs =>
    if b.toNat < 128 then some (b.toNat, bs)
    else
      match takeNat bs with
      | some (n, rest) => if n = 0 then none else some (b.toNat - 128 + 128 * n, rest)
      | none => none

/-- An integer as a natural number: 0, -1, 1, -2, ... as 0, 1, 2, 3, ... -/
def zigzag : Int → Nat
  | .ofNat n => 2 * n
  | .negSucc n => 2 * n + 1

/-- The integer a zigzag number stands for. -/
def unzigzag (n : Nat) : Int := if n % 2 = 0 then .ofNat (n / 2) else .negSucc (n / 2)

/-- The rational with this numerator and denominator, when they are in lowest terms. -/
def lowestTerms (num : Int) (den : Nat) : Option Rat :=
  if h : den ≠ 0 ∧ num.natAbs.Coprime den then some ⟨num, den, h.1, h.2⟩ else none

/-- A signal as bytes. -/
def signalBytes (x : Signal) : List Byte := natBytes (zigzag x.num) ++ natBytes (x.den - 1)

/-- A signal from bytes, and the rest. -/
def takeSignal (bs : List Byte) : Option (Signal × List Byte) :=
  match takeNat bs with
  | none => none
  | some (n, bs1) =>
    match takeNat bs1 with
    | none => none
    | some (d, bs2) => (lowestTerms (unzigzag n) (d + 1)).map (·, bs2)

/-- A positive bit rate as bytes: numerator less one, denominator less one. -/
def rateBytes (x : Rat) : List Byte := natBytes (x.num.toNat - 1) ++ natBytes (x.den - 1)

/-- A positive bit rate from bytes, and the rest. -/
def takeRate (bs : List Byte) : Option (Rat × List Byte) :=
  match takeNat bs with
  | none => none
  | some (n, bs1) =>
    match takeNat bs1 with
    | none => none
    | some (d, bs2) => (lowestTerms (.ofNat (n + 1)) (d + 1)).map (·, bs2)

/-- Exactly `n` bytes, and the rest. -/
def takeBytes (n : Nat) (bs : List Byte) : Option (List Byte × List Byte) :=
  if bs.length < n then none else some (bs.take n, bs.drop n)

/-- A byte array with its length in front. -/
def arrayBytes (v : List Byte) : List Byte := natBytes v.length ++ v

/-- A byte array from bytes, and the rest. -/
def takeArray (bs : List Byte) : Option (List Byte × List Byte) :=
  match takeNat bs with
  | none => none
  | some (n, bs1) => takeBytes n bs1

/-- The thirteen bytes of a wire word, least significant first. -/
def wireBytes (w : WireWord) : List Byte := (List.range 13).map fun i => slice w (8 * i) 8

/-- The number that bytes, least significant first, spell. -/
def bytesNat : List Byte → Nat
  | [] => 0
  | b :: bs => b.toNat + 256 * bytesNat bs

/-- A frame record from thirteen bytes, and the rest; bits above bit 98 are refused. -/
def takeFrame (bs : List Byte) : Option (Frame × List Byte) :=
  match takeBytes 13 bs with
  | none => none
  | some (v, rest) => if bytesNat v < 2 ^ 99 then some (wireRecord (BitVec.ofNat 99 (bytesNat v)), rest) else none

/-- The operands of `VS_WRITE` as bytes. -/
def vsUpdateBytes : VsUpdate → List Byte
  | .speed v => 0x00 :: signalBytes v
  | .rpm v => 0x01 :: signalBytes v
  | .throttle v => 0x02 :: signalBytes v
  | .coolant v => 0x03 :: signalBytes v
  | .fuel v => 0x04 :: signalBytes v
  | .vin v => 0x05 :: arrayBytes v

/-- The operands of `VS_WRITE` from bytes, and the rest. -/
def takeVsUpdate : List Byte → Option (VsUpdate × List Byte)
  | [] => none
  | k :: bs =>
    match k.toNat with
    | 0 => (takeSignal bs).map fun r => (.speed r.1, r.2)
    | 1 => (takeSignal bs).map fun r => (.rpm r.1, r.2)
    | 2 => (takeSignal bs).map fun r => (.throttle r.1, r.2)
    | 3 => (takeSignal bs).map fun r => (.coolant r.1, r.2)
    | 4 => (takeSignal bs).map fun r => (.fuel r.1, r.2)
    | 5 => (takeArray bs).map fun r => (.vin r.1, r.2)
    | _ => none

/-- The operands of `CONFIGURE_START` from bytes, and the rest. -/
def takeConfigureStart (bs : List Byte) : Option (Instr × List Byte) :=
  match takeRate bs with
  | none => none
  | some (rate, bs1) =>
    match takeNat bs1 with
    | none => none
    | some (tx, bs2) => (takeNat bs2).map fun r => (.configureStart rate tx r.1, r.2)

/-- The operands of `SEND` from bytes, and the rest. -/
def takeSend (bs : List Byte) : Option (Instr × List Byte) :=
  match takeFrame bs with
  | none => none
  | some (f, bs1) => (takeNat bs1).map fun r => (.send f r.1, r.2)

/-! ## Decoding -/

/-- Why a word is no operation. -/
inductive DecodeReject where
  /-- The dispatch word has a DLC field above 8, which no Frame has (R91, R94). -/
  | noFrame
  /-- No command byte at all. -/
  | noCommand
  /-- A command code `0x08` to `0xFF` (R116, U3). -/
  | reservedCommand (code : Byte)
  /-- The operand bytes do not spell this command's operands. -/
  | badOperands (code : Byte)
  /-- Something other than zero padding follows the operands. -/
  | trailingBytes (code : Byte)
  /-- An alert word with neither named bit set selects no handler (R112, R116). -/
  | noHandler
  deriving DecidableEq, Repr

/-- What decoding a word gives. -/
inductive Decoded where
  | ok (i : Instr)
  | reject (r : DecodeReject)
  deriving DecidableEq, Repr

/-- A received frame's dispatch word (R109, R170). -/
def decodeRxf (w : DispatchWord) : Decoded :=
  if 8 < (unpackDispatch w).dlc then .reject .noFrame else .ok (classify (unpackDispatch w).validBytes)

/-- The command whose code was read, with its operands, and the rest of the bytes (R101, R111). -/
def takeCommand (code : Byte) (bs : List Byte) : Option (Instr × List Byte) :=
  match code.toNat with
  | 0 => takeConfigureStart bs
  | 1 => takeSend bs
  | 2 => (takeNat bs).map fun r => (.pollReceive r.1, r.2)
  | 3 => some (.pollAlerts, bs)
  | 4 => some (.stop, bs)
  | 5 => some (.getStatus, bs)
  | 6 => (takeVsUpdate bs).map fun r => (.vsWrite r.1, r.2)
  | 7 => some (.diagReport, bs)
  | _ => none

/-- The bytes of a host command; zero padding may follow. -/
def decodeCmd : List Byte → Decoded
  | [] => .reject .noCommand
  | code :: bs =>
    if 8 ≤ code.toNat then .reject (.reservedCommand code)
    else
      match takeCommand code bs with
      | none => .reject (.badOperands code)
      | some (i, rest) => if rest.all (· == 0) then .ok i else .reject (.trailingBytes code)

/-- Every handler an alert word selects, in the order they run (R112, R153). -/
def alertHandlers (a : AlertWord) : List Instr :=
  (if a.testBit 0 then [.alertBusOff a] else []) ++ (if a.testBit 1 then [.alertBusRecovered a] else [])

/-- The first handler an alert word selects. -/
def decodeAlert (a : AlertWord) : Decoded :=
  match alertHandlers a with
  | i :: _ => .ok i
  | [] => .reject .noHandler

/-- The decoder. -/
def decode : OpWord → Decoded
  | .rxf w => decodeRxf w
  | .cmd bytes => decodeCmd bytes
  | .alert a => decodeAlert a

/-- Every operation a word selects: one, or none, or both handlers of an alert word (R112). -/
def selected (w : OpWord) : List Instr :=
  match w with
  | .alert a => alertHandlers a
  | .rxf _ | .cmd _ => match decode w with
    | .ok i => [i]
    | .reject _ => []

/-- A received frame's operation (R170). -/
def decodeFrame (f : Frame) : Decoded := decode (.rxf (dispatchWord f))

/-! ## The encoder -/

/-- The encoding of an RXF operation: the dispatch word of the frame it comes from. -/
def encodeRxf (i : Instr) : OpWord := .rxf (packDispatch (i.dispatchFields.getD default))

/-- The encoding of an operation (R101, R105, R112). -/
def encode : Instr → OpWord
  | .obdShort dlc d0 d1 => encodeRxf (.obdShort dlc d0 d1)
  | .obdM1Pid00 dlc d0 => encodeRxf (.obdM1Pid00 dlc d0)
  | .obdM1Pid05 dlc d0 => encodeRxf (.obdM1Pid05 dlc d0)
  | .obdM1Pid0C dlc d0 => encodeRxf (.obdM1Pid0C dlc d0)
  | .obdM1Pid0D dlc d0 => encodeRxf (.obdM1Pid0D dlc d0)
  | .obdM1Pid11 dlc d0 => encodeRxf (.obdM1Pid11 dlc d0)
  | .obdM1Pid2F dlc d0 => encodeRxf (.obdM1Pid2F dlc d0)
  | .obdM1Unsup dlc d0 pid => encodeRxf (.obdM1Unsup dlc d0 pid)
  | .obdM9Pid00 dlc d0 => encodeRxf (.obdM9Pid00 dlc d0)
  | .obdM9Pid02 dlc d0 => encodeRxf (.obdM9Pid02 dlc d0)
  | .obdM9Unsup dlc d0 pid => encodeRxf (.obdM9Unsup dlc d0 pid)
  | .obdModeUnsup dlc d0 mode pid => encodeRxf (.obdModeUnsup dlc d0 mode pid)
  | .fcCont dlc d1 d2 => encodeRxf (.fcCont dlc d1 d2)
  | .fcOther dlc d0 d1 d2 => encodeRxf (.fcOther dlc d0 d1 d2)
  | .rxIgnore x => encodeRxf (.rxIgnore x)
  | .configureStart bitRate tx rx => .cmd (0x00 :: (rateBytes bitRate ++ natBytes tx ++ natBytes rx))
  | .send f timeout => .cmd (0x01 :: (wireBytes (encodeWire f) ++ natBytes timeout))
  | .pollReceive timeout => .cmd (0x02 :: natBytes timeout)
  | .pollAlerts => .cmd [0x03]
  | .stop => .cmd [0x04]
  | .getStatus => .cmd [0x05]
  | .vsWrite u => .cmd (0x06 :: vsUpdateBytes u)
  | .diagReport => .cmd [0x07]
  | .alertBusOff a => .alert a
  | .alertBusRecovered a => .alert a

/-! ## Words as the opcode table numbers them -/

/-- The word `w` of `nbits` bits as an encoded operation: the table's CMD rows have 8 bits and its RXF rows 41, six
whole bytes; any other width is an alert word's, whose width the table leaves open. Operand bytes the table gives no
bits are zeros. -/
def tableOpWord (nbits w : Nat) : OpWord :=
  if nbits = 8 then .cmd (BitVec.ofNat 8 w :: List.replicate 32 0)
  else if 41 ≤ nbits ∧ nbits ≤ 48 then .rxf (BitVec.ofNat 41 w)
  else .alert w

/-- The operation the decoder reads from a word of the opcode table. -/
def decodeTableWord (nbits w : Nat) : Option Instr :=
  match decode (tableOpWord nbits w) with
  | .ok i => some i
  | .reject _ => none

end Sys2Proof
end

