-- ==== Sys2Proof/Machine/State.lean ====
section
/-! DEFINITION. The state of the machine: every piece of state the spec names (R20 to R38), grouped by its owner, and
beside it the model's own fields (the program of events, the draws decided in advance, the parameters, the value the
last host command returned). Plain data throughout. -/

namespace Sys2Proof.Machine

/-! ## What an operation returns -/

/-- The error taxonomy, E1 to E7 (R250). -/
inductive Error where
  | controllerInstallFailed
  | controllerStartFailed
  | transmitTimeout
  | transmitFailed
  | busOff
  | unsupportedPid
  | unsupportedMode
  deriving DecidableEq, Repr, Inhabited

/-- The classification of a counter (R276). -/
inductive Class where
  | ok | warning | critical
  deriving DecidableEq, Repr, Inhabited

/-- Bus Status: the state and the nine counters (R27). -/
structure BusStatus where
  state : BusState
  counters : Counters
  deriving DecidableEq, Repr, Inhabited

/-- The Diagnostics Reporter's record (R277). -/
structure DiagReport where
  state : BusState
  counters : Counters
  classes : PerCounter Class
  busOffCallout : Bool
  deriving DecidableEq, Repr, Inhabited

/-- What a host command returns to its caller (R101). -/
inductive Result where
  /-- No command has returned yet. -/
  | nothing
  /-- The command ended and returns no value. -/
  | unit
  /-- The opaque handle of a successful `CONFIGURE_START` (R130). -/
  | handle
  /-- The command raised an error (R11, R250). -/
  | error (e : Error)
  /-- What `POLL_RECEIVE` returns: a frame or nothing (R133). -/
  | frame (f : Option Frame)
  /-- The set `POLL_ALERTS` returns (R134). -/
  | alerts (a : AlertWord)
  /-- What `GET_STATUS` returns (R135). -/
  | status (b : BusStatus)
  /-- What `DIAG_REPORT` returns (R277). -/
  | report (r : DiagReport)
  deriving DecidableEq, Repr, Inhabited

/-! ## The controller interface -/

/-- The acceptance filter `Ctrl.install` is given; it is fixed (R29). -/
inductive Filter where
  | acceptAll
  deriving DecidableEq, Repr, Inhabited

/-- The control calls of the underlying controller (R272). -/
inductive CtrlCall where
  | install (bitRate : Rat) (txPin rxPin : Nat) (filter : Filter)
  | start
  | stop
  | uninstall
  | initiateRecovery
  deriving DecidableEq, Repr, Inhabited

/-! ## The state -/

/-- A response on its way out of the responder (R158, R159): other agents may step before its `SEND` begins and while
it is blocked (R74, R265). -/
inductive Sending where
  /-- `RESPOND(f)` is the responder's next statement: its `SEND` has tested nothing yet. -/
  | asked (f : Frame)
  /-- The `SEND` of `f` has passed its tests and is blocked in `Link.transmit`. -/
  | blocked (f : Frame)
  deriving DecidableEq, Repr, Inhabited

/-- The frame of a response on its way out. -/
def Sending.frame : Sending → Frame
  | .asked f => f
  | .blocked f => f

/-- The block's own registers and queues. -/
structure Block where
  /-- `bus_state` (R25). -/
  busState : BusState
  /-- `ctrl_installed` (R26). -/
  ctrlInstalled : Bool
  /-- `rxloop_active` (R26). -/
  rxloopActive : Bool
  /-- `cfg` (R29). -/
  cfg : BusConfig
  /-- `vs`, the Vehicle State (R22). -/
  vs : VehicleState
  /-- `rxq`, the receive queue, head first (R30). -/
  rxq : List Frame
  /-- `mfq`, the pending queue: a list of `MF_SLOTS` slots (R31). -/
  mfq : List Slot
  /-- `s0` of R153: `bus_state` as the receive loop read it before it handled the last alert word. -/
  polledState : BusState
  /-- The responder's place inside a release that other agents may interrupt (R74, R158): the index of R229's loop,
  or nothing between two iterations. -/
  release : Option Nat
  /-- The response the responder is transmitting, if any (R74, R131, R265). -/
  sending : Option Sending
  deriving DecidableEq, Repr, Inhabited

/-- The state of the Link the block can observe (R27, R32, R33). -/
structure Link where
  /-- `alerts_pending` (R32). -/
  alertsPending : AlertWord
  /-- The nine Bus Status counters (R27). -/
  counters : Counters
  /-- The controller's receive queue: words taken from the bus, not yet returned by `POLL_RECEIVE` (R33). -/
  rxFifo : List WireWord
  /-- The controller's transmit queue: words accepted by `SEND`, not yet on the bus (R33). -/
  txFifo : List WireWord
  /-- The controller's own operating state (R33); the spec gives it no values and no law, so it is a bare number that
  the Link's free draws depend on. The Link moves it; no `Ctrl` call does, a DESIGN CHOICE (notes/assumptions/29.md). -/
  opState : Nat
  deriving DecidableEq, Repr, Inhabited

/-- How a `SEND` or `Ctrl` outcome is drawn that no `LINK` event has fixed. -/
inductive Unfixed where
  /-- Any outcome at any time: a free value (R273, U5). -/
  | free
  /-- The default of a program: `ok` (R121). -/
  | ok
  deriving DecidableEq, Repr, Inhabited

/-- The Link's choices: those fixed in advance by `LINK` events (R121), first to be used first, the count of the free
draws made so far, and how an unfixed outcome is drawn. -/
structure Draws where
  send : List SendOutcome
  ctrl : List CtrlOutcome
  recv : List RecvOutcome
  count : Nat
  /-- No step changes it; loading a program sets it to `ok` (`loadProgram`). -/
  unfixed : Unfixed := .free
  deriving DecidableEq, Repr, Inhabited

/-- Ghost state (R34): read by no rule. -/
structure Ghost where
  /-- `tx_log`: the frames whose `SEND` returned success, in order. -/
  txLog : List Frame
  /-- `ctrl_log`: the control calls made, in order. -/
  ctrlLog : List CtrlCall
  /-- `recovery_calls`. -/
  recoveryCalls : Nat
  /-- `restart_calls`. -/
  restartCalls : Nat
  /-- `rx_dropped`. -/
  rxDropped : Nat
  deriving DecidableEq, Repr, Inhabited

/-- The whole machine. -/
structure State where
  block : Block
  link : Link
  draws : Draws
  ghost : Ghost
  /-- What the last host command returned to its caller. -/
  result : Result
  /-- The program: the events still to come (R13, R121). -/
  script : List Event
  /-- How many events the free scheduler has chosen (R14). -/
  turn : Nat
  /-- The open parameters (R8); no step changes them. -/
  params : Params
  deriving DecidableEq, Repr, Inhabited

/-- Why the machine would stop with a fault: never. "Nothing in this subsystem is fatal to the process" (R254), and
no error halts an agent, so there is no fault to raise. -/
inductive Fault where
  deriving DecidableEq, Repr

/-- Why a step is no move of the machine. -/
inductive Refusal where
  /-- Raised by an arm of `exec` whose operation has no meaning yet. Safe: nothing can be proved of it. -/
  | notModelled (mnemonic : String)
  /-- Raised by the step when a host command's bytes, or a queued record, spell no operation: a reserved command
  code (R116, U3: "not a command; the model has no move for them"), operand bytes that spell no operand, or a record
  that is no Frame (R91). Safe: no operation of the map is refused by it. -/
  | noOperation (r : DecodeReject)
  /-- Raised by the host's step when the host calls `SEND`, `POLL_RECEIVE` or `POLL_ALERTS` while the loops run: "given
  no move in the model" (R306, U19). Safe: nothing can be proved of a run that takes such a move; `exec` itself runs the
  three operations in every state. -/
  | hostCallWhileLoopsRun
  deriving DecidableEq, Repr

/-- Every counter at one value. -/
def perCounter {α : Type} (a : α) : PerCounter α := ⟨a, a, a, a, a, a, a, a, a⟩

/-- The block after reset (R38, R281). -/
def Block.reset : Block :=
  { busState := .stopped
    ctrlInstalled := false
    rxloopActive := false
    cfg := Config.cfgInit
    vs := Config.vsInit
    rxq := []
    mfq := List.replicate Config.params.mfSlots zeroSlot
    polledState := .stopped
    release := none
    sending := none }

/-- The Link after reset (R38). -/
def Link.reset : Link :=
  { alertsPending := 0, counters := perCounter 0, rxFifo := [], txFifo := [], opState := Config.opStateInit }

/-- The ghost state after reset: empty lists, zero counts (R38). -/
def Ghost.reset : Ghost := { txLog := [], ctrlLog := [], recoveryCalls := 0, restartCalls := 0, rxDropped := 0 }

/-- The machine right after reset (R280, R281), with no program. -/
def State.reset : State :=
  { block := Block.reset
    link := Link.reset
    draws := { send := [], ctrl := [], recv := [], count := 0, unfixed := .free }
    ghost := Ghost.reset
    result := .nothing
    script := []
    turn := 0
    params := Config.params }

end Sys2Proof.Machine
end

