-- ==== Sys2Proof/Machine/Codec.lean ====
section
/-! DEFINITION. The PID Codec: the numeric functions of R12, the encoders of the reference arithmetic (R197 to R201),
the choice of arithmetic (R191), the decoders (R204 to R208), and the single-frame builder (R192). -/

namespace Sys2Proof.Machine

/-! ## Numeric functions (R12) -/

/-- The integer nearest to `n / d`, and at a half the one farther from zero. -/
def roundDiv (n : Int) (d : Nat) : Int :=
  if 0 ≤ n then (2 * n + d) / (2 * d) else -((-2 * n + d) / (2 * d))

/-- `trunc`: the integer nearest to zero among those between 0 and `n / d`. -/
def truncDiv (n : Int) (d : Nat) : Int := if 0 ≤ n then n / d else -(-n / d)

/-- `clamp`. -/
def clamp (x lo hi : Int) : Int := if x < lo then lo else if hi < x then hi else x

/-- A signal times `k / m`, rounded. -/
def scaleRound (x : Signal) (k : Int) (m : Nat) : Int := roundDiv (x.num * k) (x.den * m)

/-! ## The reference encoders -/

/-- Coolant temperature, `clamp(round(x) + 40, 0, 255)` (R197). -/
def refEnc05 (x : Signal) : Byte := BitVec.ofInt 8 (clamp (scaleRound x 1 1 + 40) 0 255)

/-- Engine speed, `clamp(round(x * 4), 0, 65535)` (R198). -/
def refEnc0C (x : Signal) : BitVec 16 := BitVec.ofInt 16 (clamp (scaleRound x 4 1) 0 65535)

/-- Vehicle speed, `clamp(trunc(x), 0, 255)` (R199). -/
def refEnc0D (x : Signal) : Byte := BitVec.ofInt 8 (clamp (truncDiv x.num x.den) 0 255)

/-- Throttle, `clamp(round(x * 255 / 100), 0, 255)` (R200). -/
def refEnc11 (x : Signal) : Byte := BitVec.ofInt 8 (clamp (scaleRound x 255 100) 0 255)

/-- Fuel level, `clamp(round(x * 255 / 100), 0, 255)` (R201). -/
def refEnc2F (x : Signal) : Byte := BitVec.ofInt 8 (clamp (scaleRound x 255 100) 0 255)

/-! ## The encoders in the machine's arithmetic (R191) -/

/-- `numerics.enc05`. -/
def enc05 (n : Numerics) (x : Signal) : Byte :=
  match n with
  | .reference => refEnc05 x
  | .implementation => Config.enc05 x

/-- `numerics.enc0C`. -/
def enc0C (n : Numerics) (x : Signal) : BitVec 16 :=
  match n with
  | .reference => refEnc0C x
  | .implementation => Config.enc0C x

/-- `numerics.enc0D`. -/
def enc0D (n : Numerics) (x : Signal) : Byte :=
  match n with
  | .reference => refEnc0D x
  | .implementation => Config.enc0D x

/-- `numerics.enc11`. -/
def enc11 (n : Numerics) (x : Signal) : Byte :=
  match n with
  | .reference => refEnc11 x
  | .implementation => Config.enc11 x

/-- `numerics.enc2F`. -/
def enc2F (n : Numerics) (x : Signal) : Byte :=
  match n with
  | .reference => refEnc2F x
  | .implementation => Config.enc2F x

/-! ## The decoders -/

/-- `dec05(A) = A - 40` degrees Celsius (R204). -/
def dec05 (a : Byte) : Rat := (a.toNat : Rat) - 40

/-- `dec0C(A, B) = (A*256 + B) / 4` revolutions per minute (R205). -/
def dec0C (a b : Byte) : Rat := ((a.toNat * 256 + b.toNat : Nat) : Rat) / 4

/-- `dec0D(A) = A` km/h (R206). -/
def dec0D (a : Byte) : Rat := (a.toNat : Rat)

/-- `dec11(A) = A * 100 / 255` per cent (R207). -/
def dec11 (a : Byte) : Rat := (a.toNat : Rat) * 100 / 255

/-- `dec2F(A) = A * 100 / 255` per cent (R208). -/
def dec2F (a : Byte) : Rat := (a.toNat : Rat) * 100 / 255

/-! ## Bytes of the replies -/

/-- The most significant byte of a 16-bit value, `v[15:8]` (R60, R198). -/
def highByte (v : BitVec 16) : Byte := slice v 8 8

/-- The least significant byte of a 16-bit value, `v[7:0]` (R60, R198). -/
def lowByte (v : BitVec 16) : Byte := slice v 0 8

end Sys2Proof.Machine
end

