-- ==== Sys2Proof/Machine/Flags.lean ====
section
/-! DEFINITION. Every flag-like bit the block computes (R37): the two named bits of the alert word, the populated
marker of a slot, whether a transmission is pending, and the classification of a counter. -/

namespace Sys2Proof.Machine

/-- `A[0]`, `BUS_OFF` (R102). -/
def busOffBit (a : AlertWord) : Bool := a.testBit 0

/-- `A[1]`, `BUS_RECOVERED` (R102). -/
def busRecoveredBit (a : AlertWord) : Bool := a.testBit 1

/-- A slot is populated when its byte 0 is not `0x00` (R31). -/
def populated (sl : Slot) : Bool := sl[0] != 0

/-- A transmission is pending when at least one slot is populated (R31). -/
def pending (q : List Slot) : Bool := q.any populated

/-- `classify(c)` (R276). -/
def classifyCount (c : Nat) : Class :=
  if c = 0 then .ok else if c ≤ errThreshold then .warning else .critical

/-- A function applied to each of the nine counters. -/
def PerCounter.each {α β : Type} (f : α → β) (c : PerCounter α) : PerCounter β :=
  { txErrorCounter := f c.txErrorCounter
    rxErrorCounter := f c.rxErrorCounter
    txQueueDepth := f c.txQueueDepth
    rxQueueDepth := f c.rxQueueDepth
    txFailedCount := f c.txFailedCount
    rxMissedCount := f c.rxMissedCount
    rxOverrunCount := f c.rxOverrunCount
    arbLostCount := f c.arbLostCount
    busErrorCount := f c.busErrorCount }

/-- The counter can be reported: it fits in `CTR_W` bits, where `CTR_W` gives a width (R8, R27). -/
def fitsWidth (p : Params) (c : Nat) : Bool :=
  match p.ctrW with
  | none => true
  | some w => decide (c < 2 ^ w)

/-- Every counter of the record can be reported. -/
def fitsCounters (p : Params) (c : Counters) : Bool :=
  fitsWidth p c.txErrorCounter && fitsWidth p c.rxErrorCounter && fitsWidth p c.txQueueDepth &&
    fitsWidth p c.rxQueueDepth && fitsWidth p c.txFailedCount && fitsWidth p c.rxMissedCount &&
    fitsWidth p c.rxOverrunCount && fitsWidth p c.arbLostCount && fitsWidth p c.busErrorCount

/-- The counters the Link may report next (R28): the four gauges become anything, an event counter never falls. -/
def advanceCounters (old new : Counters) : Counters :=
  { new with
    txFailedCount := max old.txFailedCount new.txFailedCount
    rxMissedCount := max old.rxMissedCount new.rxMissedCount
    rxOverrunCount := max old.rxOverrunCount new.rxOverrunCount
    arbLostCount := max old.arbLostCount new.arbLostCount
    busErrorCount := max old.busErrorCount new.busErrorCount }

/-- The alerts of a word that the controller has bits for: `A[ALERT_W-1:0]` (R102). -/
def alertBits (p : Params) (a : AlertWord) : AlertWord := a % 2 ^ p.alertW

end Sys2Proof.Machine
end

