-- ==== Sys2Proof/Machine/Operands.lean ====
section
/-! DEFINITION. The operand forms of the operations: the byte buffer accesses of R11, the atomic snapshot of the
Vehicle State, the frame a slot becomes, the update a key/value write stands for, and the timeouts. -/

namespace Sys2Proof.Machine

/-- `MemRead(buf, i, n)` (R11): the `n` bytes of the buffer from index `i`. -/
def memRead (buf : List Byte) (i n : Nat) : List Byte := (buf.drop i).take n

/-- `MemWrite(buf, i, n, v)` (R11): the buffer with the bytes of `v` at index `i` and on; the length of the buffer
does not change. -/
def memWrite (buf : List Byte) (i : Nat) (v : List Byte) : List Byte :=
  (buf.take i ++ v ++ buf.drop (i + v.length)).take buf.length

/-- `snap <- vs` (R67, R193): the Vehicle State read as one value. -/
def snapshot (s : State) : VehicleState := s.block.vs

/-- A response frame: standard, data, identifier `0x7E8`, DLC 8 (R97, R98, R99). -/
def responseFrame (data : List Byte) : Frame := { extd := false, rtr := false, id := idResp, dlc := 8, data := data }

/-- The Consecutive Frame a slot becomes (R103, R229). -/
def slotFrame (sl : Slot) : Frame := responseFrame (memRead sl.toList 0 8)

/-- A VIN write: 17 bytes replace the VIN, any other length has no effect (R149, D37). -/
def writeVin (v : List Byte) (vs : VehicleState) : VehicleState :=
  if h : v.length = 17 then { vs with vin := ⟨v.toArray, by simpa using h⟩ } else vs

/-- `VS_WRITE`'s effect on the Vehicle State: one whole field (R78, R149). -/
def applyUpdate (u : VsUpdate) (vs : VehicleState) : VehicleState :=
  match u with
  | .speed v => { vs with speed := v }
  | .rpm v => { vs with rpm := v }
  | .throttle v => { vs with throttle := v }
  | .coolant v => { vs with coolant := v }
  | .fuel v => { vs with fuel := v }
  | .vin v => writeVin v vs

/-- The field a key names (`VS_KEYS`, R8, R149). -/
def lookupKey (key : String) : List (String × VsField) → Option VsField
  | [] => none
  | (k, f) :: rest => if k = key then some f else lookupKey key rest

/-- The number a numeric string stands for: a malformed string gives zero (R149, D39). -/
def numericValue (value : String) : Signal := (Config.parseSignal value).getD 0

/-- The `VS_WRITE` a key/value write causes: none for an unknown name (R149, D39). -/
def keyUpdate (p : Params) (key value : String) : Option VsUpdate :=
  match lookupKey key p.vsKeys with
  | none => none
  | some .speed => some (.speed (numericValue value))
  | some .rpm => some (.rpm (numericValue value))
  | some .throttle => some (.throttle (numericValue value))
  | some .coolant => some (.coolant (numericValue value))
  | some .fuel => some (.fuel (numericValue value))
  | some .vin => some (.vin (Config.vinBytes value))

end Sys2Proof.Machine
end

