-- ==== Sys2Proof/Machine/Segmenter.lean ====
section
/-! DEFINITION. The frame builders: the single-frame response (R192), and the Multi-Frame Segmenter's First Frame,
Consecutive Frames, payload of the VIN reply, clearing and populating of the pending queue (R220 to R226). -/

namespace Sys2Proof.Machine

/-- `SF_BUILD(mode, pid, data)` (R97, R107, R192). -/
def sfBuild (mode pid : Byte) (data : List Byte) : Frame :=
  responseFrame ([BitVec.ofNat 8 (2 + data.length), 0x40 + mode, pid] ++ data ++ List.replicate (5 - data.length) 0)

/-- `P_VIN`, the twenty bytes of the VIN reply in the two layouts (R220). -/
def vinPayload (layout : VinFfLayout) (vin : Vector Byte 17) : List Byte :=
  match layout with
  | .literal => [0x49, 0x02] ++ memRead vin.toList 0 3 ++ [0x00] ++ memRead vin.toList 3 14
  | .itemCount => [0x49, 0x02, 0x01] ++ vin.toList

/-- `FF_BUILD(P, L)` (R61, R98, R221). -/
def ffBuild (p : List Byte) (len : Nat) : Frame :=
  responseFrame ([0x10 ||| BitVec.ofNat 8 (len / 256 % 16), BitVec.ofNat 8 (len % 256)] ++ memRead p 0 6)

/-- `N_CF(L) = ceil((L - 6) / 7)` (R223). -/
def nCf (len : Nat) : Nat := (len - 6 + 6) / 7

/-- The bytes the `k`-th Consecutive Frame carries, `k` from 1 (R223). -/
def chunk (p : List Byte) (len k : Nat) : List Byte :=
  memRead p (6 + 7 * (k - 1)) (min len (6 + 7 * k) - (6 + 7 * (k - 1)))

/-- `CF_BUILD(k, chunk)`: the PCI byte `0x20 | (k mod 16)`, the bytes, zeros to the end (R222, R224, R225). -/
def cfBuild (k : Nat) (bytes : List Byte) : Slot :=
  #v[0x20 ||| BitVec.ofNat 8 (k % 16), bytes.getD 0 0, bytes.getD 1 0, bytes.getD 2 0, bytes.getD 3 0,
    bytes.getD 4 0, bytes.getD 5 0, bytes.getD 6 0]

/-- Every slot all-zero (R226, R229). -/
def clearSlots (q : List Slot) : List Slot := q.map fun _ => zeroSlot

/-- A queue with its first `n` slots overwritten by the Consecutive Frames of the payload (R226). -/
def populate (p : List Byte) (len n : Nat) (q : List Slot) : List Slot :=
  ((List.range n).map fun j => cfBuild (j + 1) (chunk p len (j + 1))) ++ q.drop n

end Sys2Proof.Machine
end

