-- ==== Sys2Proof/Machine/Ops.lean ====
section
/-! DEFINITION. The named operations over the state that the meanings share: returning a value and raising an error,
the Link's draws and control calls, sending and receiving, the alert poll, entry into and return from bus-off, the
receive queue and the pending queue. -/

namespace Sys2Proof.Machine

/-! ## Returning and raising -/

/-- The operation ends and returns a value to its caller. -/
def returns (r : Result) (s : State) : State := { s with result := r }

/-- `raise E` (R11): the operation ends and returns the error to its caller; state already written stays written. -/
def raise (e : Error) (s : State) : State := returns (.error e) s

/-- The error numbers E1 to E7 (R250); no rule reads them. -/
def errorNumber : Error → Nat
  | .controllerInstallFailed => 1
  | .controllerStartFailed => 2
  | .transmitTimeout => 3
  | .transmitFailed => 4
  | .busOff => 5
  | .unsupportedPid => 6
  | .unsupportedMode => 7

/-! ## The Link's draws

Each draw is the one fixed in advance by a `LINK` event. A `SEND` or `Ctrl` outcome that none has fixed is `ok` in a
program (R121), and else a free value (R11 `draw`, R273). -/

/-- The outcome of one `Link.transmit`. -/
def drawSend (timeout : Nat) (s : State) : SendOutcome × State :=
  match s.draws.send with
  | o :: rest => (o, { s with draws := { s.draws with send := rest } })
  | [] =>
    match s.draws.unfixed with
    | .ok => (.ok, s)
    | .free =>
      (Config.freeSend s.draws.count s.link.opState timeout,
        { s with draws := { s.draws with count := s.draws.count + 1 } })

/-- The outcome of one `Ctrl` call. -/
def drawCtrl (s : State) : CtrlOutcome × State :=
  match s.draws.ctrl with
  | o :: rest => (o, { s with draws := { s.draws with ctrl := rest } })
  | [] =>
    match s.draws.unfixed with
    | .ok => (.ok, s)
    | .free =>
      (Config.freeCtrl s.draws.count s.link.opState, { s with draws := { s.draws with count := s.draws.count + 1 } })

/-- Whether one `Link.receive` delivers. -/
def drawRecv (timeout : Nat) (s : State) : RecvOutcome × State :=
  match s.draws.recv with
  | o :: rest => (o, { s with draws := { s.draws with recv := rest } })
  | [] =>
    (Config.freeRecv s.draws.count s.link.opState timeout,
      { s with draws := { s.draws with count := s.draws.count + 1 } })

/-- `call Ctrl.op(args)` (R11): logged, and answered by the Link's draw. R33 lets the block write the Link's hidden state
by these calls and gives no effect: that no call moves the controller's operating state, its queues or its error counters
is a DESIGN CHOICE (notes/assumptions/29.md). -/
def callCtrl (c : CtrlCall) (s : State) : CtrlOutcome × State :=
  drawCtrl { s with ghost := { s.ghost with ctrlLog := s.ghost.ctrlLog ++ [c] } }

/-! ## Sending -/

/-- The Link accepts the frame: it enters the controller's transmit queue and `tx_log` (R33, R34, R132). -/
def acceptFrame (f : Frame) (s : State) : State :=
  { s with
    link := { s.link with txFifo := s.link.txFifo ++ [encodeWire f] }
    ghost := { s.ghost with txLog := s.ghost.txLog ++ [f] } }

/-- The block's own two tests at the start of a `SEND`: a frame that is none, or a bus state other than `Running`, is
refused (R132). -/
def sendAllowed (f : Frame) (s : State) : Bool := f.valid && s.block.busState == .running

/-- The rest of a `SEND` that passed its tests: it ends as the Link draws, whatever has become of `bus_state` (R132,
R265, R273). -/
def transmit (f : Frame) (timeout : Nat) (s : State) : Option Error × State :=
  match drawSend timeout s with
  | (.ok, s1) => (none, acceptFrame f s1)
  | (.timeout, s1) => (some .transmitTimeout, s1)
  | (.failed, s1) => (some .transmitFailed, s1)

/-- `SEND(frame, timeout)` (R132, R263): the error it returns, none on success, and the state after it. -/
def send (f : Frame) (timeout : Nat) (s : State) : Option Error × State :=
  if sendAllowed f s then transmit f timeout s else (some .transmitFailed, s)

/-- `RESPOND(frame)` (R159): one `SEND` with timeout `T_SEND`, its error absorbed. -/
def respond (f : Frame) (s : State) : State := (send f s.params.tSend s).2

/-- The response on its way out, replaced. -/
def setSending (x : Option Sending) (s : State) : State := { s with block := { s.block with sending := x } }

/-- `RESPOND(frame)` becomes the responder's next statement. -/
def askSend (f : Frame) (s : State) : State := setSending (some (.asked f)) s

/-- The next part of a response on its way out (R74, R158): its `SEND` begins, which an invalid frame or a bus state
other than `Running` ends at once, the error absorbed (R132, R159); a blocked `SEND` ends as the Link draws (R265). -/
def sendingPart (x : Sending) (s : State) : State :=
  match x with
  | .asked f => setSending (if sendAllowed f s then some (.blocked f) else none) s
  | .blocked f => (transmit f s.params.tSend (setSending none s)).2

/-- The response on its way out, to its end without interruption. -/
def finishSending (s : State) : State :=
  match s.block.sending with
  | none => s
  | some (.asked f) => respond f (setSending none s)
  | some (.blocked f) => (transmit f s.params.tSend (setSending none s)).2

/-! ## Receiving -/

/-- `Link.receive(timeout)` (R273): a word, removed from the controller's receive queue (R66), or none. -/
def linkReceive (timeout : Nat) (s : State) : Option WireWord × State :=
  match s.link.rxFifo with
  | [] => (none, s)
  | w :: rest =>
    match drawRecv timeout s with
    | (.timeout, s1) => (none, s1)
    | (.deliver, s1) => (some w, { s1 with link := { s1.link with rxFifo := rest } })

/-- `POLL_RECEIVE(timeout)` (R133): the frame it returns, and the state after it. -/
def pollReceive (timeout : Nat) (s : State) : Option Frame × State :=
  if !s.block.ctrlInstalled then (none, s)
  else
    match linkReceive timeout s with
    | (none, s1) => (none, s1)
    | (some w, s1) => (decodeWire w, s1)

/-- The receive loop's non-blocking enqueue (R30, R157): at capacity the arriving frame is lost. -/
def enqueue (f : Frame) (s : State) : State :=
  if s.block.rxq.length < rxqCap then { s with block := { s.block with rxq := s.block.rxq ++ [f] } }
  else { s with ghost := { s.ghost with rxDropped := s.ghost.rxDropped + 1 } }

/-! ## Alerts, entry into bus-off and return from it -/

/-- `POLL_ALERTS()` (R134): read and clear. -/
def pollAlerts (s : State) : AlertWord × State :=
  if !s.block.ctrlInstalled then (0, s)
  else (s.link.alertsPending, { s with link := { s.link with alertsPending := 0 } })

/-- The entry into `BusOff`, the block's trap entry (R13, R151, R264): the state changes, and one recovery request
is made at once, its result ignored (R155). Nothing is saved. -/
def enterBusOff (s : State) : State :=
  let s1 := { s with block := { s.block with busState := .busOff } }
  let s2 := (callCtrl .initiateRecovery s1).2
  { s2 with ghost := { s2.ghost with recoveryCalls := s2.ghost.recoveryCalls + 1 } }

/-- The return from `BusOff`, the block's trap return (R13, R152, R266): `Recovering`, one restart, and `Running` if
it succeeds; a failed restart leaves `Recovering` (R156). Nothing is restored. -/
def returnFromBusOff (s : State) : State :=
  let s1 := { s with block := { s.block with busState := .recovering } }
  let r := callCtrl .start s1
  let s2 := { r.2 with ghost := { r.2.ghost with restartCalls := r.2.ghost.restartCalls + 1 } }
  match r.1 with
  | .ok => { s2 with block := { s2.block with busState := .running } }
  | .fail => s2

/-- `ALERT.BUSOFF(a, s0)` (R151). -/
def busOffAlert (a : AlertWord) (s0 : BusState) (s : State) : State :=
  if busOffBit a ∧ s0 = .running then enterBusOff s else s

/-- `ALERT.BUSRECOVERED(a, s0)` (R152). -/
def busRecoveredAlert (a : AlertWord) (s0 : BusState) (s : State) : State :=
  if busRecoveredBit a ∧ s0 = .busOff then returnFromBusOff s else s

/-- `s0 <- bus_state` (R153): the state both handlers of one alert word test. -/
def latchState (s : State) : State := { s with block := { s.block with polledState := s.block.busState } }

/-! ## Starting and stopping the controller -/

/-- A fresh install: nothing pending, all nine counters zero (R38, R130). -/
def markInstalled (s : State) : State :=
  { s with
    block := { s.block with ctrlInstalled := true }
    link := { s.link with alertsPending := 0, counters := perCounter 0 } }

/-- `call Ctrl.uninstall()` and `ctrl_installed <- 0`, its result ignored (R130, R131). -/
def uninstall (s : State) : State :=
  let s1 := (callCtrl .uninstall s).2
  { s1 with block := { s1.block with ctrlInstalled := false } }

/-- The registers a successful `CONFIGURE_START` writes (R130). -/
def markStarted (bitRate : Rat) (txPin rxPin : Nat) (s : State) : State :=
  { s with
    block :=
      { s.block with
        cfg := { bitRate := bitRate, txPin := txPin, rxPin := rxPin }
        busState := .running
        rxloopActive := true } }

/-- `CONFIGURE_START` (R130, R263). -/
def configureStart (bitRate : Rat) (txPin rxPin : Nat) (s : State) : State :=
  if s.block.ctrlInstalled then raise .controllerInstallFailed s
  else
    match callCtrl (.install bitRate txPin rxPin .acceptAll) s with
    | (.fail, s1) => raise .controllerInstallFailed s1
    | (.ok, s1) =>
      match callCtrl .start (markInstalled s1) with
      | (.fail, s2) => raise .controllerStartFailed (uninstall s2)
      | (.ok, s2) => returns .handle (markStarted bitRate txPin rxPin s2)

/-- `STOP` (R131): its control calls' results are ignored. -/
def stopController (s : State) : State :=
  let s1 := { s with block := { s.block with rxloopActive := false } }
  let s2 := if s1.block.ctrlInstalled then uninstall (callCtrl .stop s1).2 else s1
  { s2 with block := { s2.block with busState := .stopped } }

/-! ## Observing -/

/-- `GET_STATUS()` (R135). The nine counters, `tx_queue_depth` and `rx_queue_depth` among them, are the record the Link
last reported: draws that no rule computes (R28), independent of the lengths of the Link's own lists `txFifo` and
`rxFifo`, which R33 gives the same names. That the two are not tied is the model's choice (notes/assumptions/13.md,
notes/assumptions/16.md). -/
def busStatus (s : State) : BusStatus :=
  if s.block.ctrlInstalled then { state := s.block.busState, counters := s.link.counters }
  else { state := .stopped, counters := perCounter 0 }

/-- `DIAG_REPORT()`'s record (R277). -/
def diagReport (b : BusStatus) : DiagReport :=
  { state := b.state
    counters := b.counters
    classes := PerCounter.each classifyCount b.counters
    busOffCallout := b.state == .busOff }

/-! ## The pending queue -/

/-- The pending queue with other contents. -/
def setSlots (q : List Slot) (s : State) : State := { s with block := { s.block with mfq := q } }

/-- `BEGIN_MFT(P, L)` (R226): whether it began, and the state after it; a reply too long for the queue is refused
whole. -/
def beginMft (p : List Byte) (len : Nat) (s : State) : Bool × State :=
  if s.block.mfq.length < nCf len then (false, s)
  else (true, setSlots (populate p len (nCf len) (clearSlots s.block.mfq)) s)

/-- One slot of a release: transmitted if populated, skipped if not (R229, R230). -/
def releaseSlot (sl : Slot) (s : State) : State := if populated sl then respond (slotFrame sl) s else s

/-- The loop of a release over slots in order (R229). -/
def releaseSlots : List Slot → State → State
  | [], s => s
  | sl :: rest, s => releaseSlots rest (releaseSlot sl s)

/-- The end of a release: the queue is cleared, and the responder is between iterations again (R229). -/
def endRelease (s : State) : State :=
  { s with block := { s.block with mfq := clearSlots s.block.mfq, release := none } }

/-- A release from slot `i` to its end without interruption (R229, R231). -/
def releaseFrom (i : Nat) (s : State) : State := endRelease (releaseSlots (s.block.mfq.drop i) s)

/-- The first populated slot at index `i` or above, with the index after it. -/
def nextPopulated : List Slot → Nat → Option (Slot × Nat)
  | [], _ => none
  | sl :: rest, i => if populated sl then some (sl, i + 1) else nextPopulated rest (i + 1)

/-- The release at index `i`. -/
def setRelease (i : Option Nat) (s : State) : State := { s with block := { s.block with release := i } }

/-- One scheduling point of a release (R74): the next populated slot from `i` on becomes the next response, or the
release ends. -/
def releasePart (i : Nat) (s : State) : State :=
  match nextPopulated (s.block.mfq.drop i) i with
  | none => endRelease s
  | some (sl, j) => askSend (slotFrame sl) (setRelease (some j) s)

end Sys2Proof.Machine
end

