-- ==== Sys2Proof/Machine/Alerts.lean ====
section
/-! DEFINITION. The two alert handlers (R151, R152). Both test `s0`, the bus state latched before either runs
(R153). -/

namespace Sys2Proof.Machine

/-- `ALERT.BUSOFF` (R151). -/
def execAlertBusOff (a : AlertWord) (s : State) : Host.Outcome State Fault Refusal :=
  .next (busOffAlert a s.block.polledState s)

/-- `ALERT.BUSRECOVERED` (R152). -/
def execAlertBusRecovered (a : AlertWord) (s : State) : Host.Outcome State Fault Refusal :=
  .next (busRecoveredAlert a s.block.polledState s)

end Sys2Proof.Machine
end

