-- ==== Sys2Proof/Machine/Diagnostics.lean ====
section
/-! DEFINITION. The commands that only observe: the Bus Status read (R135) and the Diagnostics Reporter (R277). -/

namespace Sys2Proof.Machine

/-- `GET_STATUS` (R135). -/
def execGetStatus (s : State) : Host.Outcome State Fault Refusal := .next (returns (.status (busStatus s)) s)

/-- `DIAG_REPORT` (R277). -/
def execDiagReport (s : State) : Host.Outcome State Fault Refusal := .next (returns (.report (diagReport (busStatus s))) s)

end Sys2Proof.Machine
end

