-- ==== Sys2Proof/Machine/FlowControl.lean ====
section
/-! DEFINITION. The Flow-Control Continue, which releases the pending queue (R229 to R232). -/

namespace Sys2Proof.Machine

/-- `FC.CONT` (R229): the whole release, from slot 0. The release that other agents interrupt is the responder's
(`respPart`, `beginFcCont`). -/
def execFcCont (_dlc : Nat) (_d1 _d2 : Byte) (s : State) : Host.Outcome State Fault Refusal := .next (releaseFrom 0 s)

/-- The dispatch of `FC.CONT` by a responder that other agents may interrupt (R74): the release stands at slot 0. -/
def beginFcCont (s : State) : State := setRelease (some 0) s

end Sys2Proof.Machine
end

