-- ==== Sys2Proof/Machine/Ignored.lean ====
section
/-! DEFINITION. The received-frame classes that do nothing at all: "no transmission, no state change, no error"
(R113). -/

namespace Sys2Proof.Machine

/-- `OBD.SHORT` (R176). -/
def execObdShort (_dlc : Nat) (_d0 _d1 : Byte) (s : State) : Host.Outcome State Fault Refusal := .next s

/-- `OBD.M1.UNSUP` (R173). -/
def execObdM1Unsup (_dlc : Nat) (_d0 _pid : Byte) (s : State) : Host.Outcome State Fault Refusal := .next s

/-- `OBD.M9.UNSUP` (R174). -/
def execObdM9Unsup (_dlc : Nat) (_d0 _pid : Byte) (s : State) : Host.Outcome State Fault Refusal := .next s

/-- `OBD.MODE.UNSUP` (R175). -/
def execObdModeUnsup (_dlc : Nat) (_d0 _mode _pid : Byte) (s : State) : Host.Outcome State Fault Refusal := .next s

/-- `FC.OTHER` (R178): the pending queue is neither released nor cleared. -/
def execFcOther (_dlc : Nat) (_d0 _d1 _d2 : Byte) (s : State) : Host.Outcome State Fault Refusal := .next s

/-- `RX.IGNORE` (R179). -/
def execRxIgnore (_x : DispatchFields) (s : State) : Host.Outcome State Fault Refusal := .next s

end Sys2Proof.Machine
end

