-- ==== Sys2Proof/Machine/ObdMode1.lean ====
section
/-! DEFINITION. The Mode 1 requests that have a reply (R193 to R201). Each reads the Vehicle State as one snapshot,
builds one single-frame response (`…Reply`) and transmits it with `RESPOND`. -/

namespace Sys2Proof.Machine

/-- The reply to PID `0x00` (R196). -/
def m1Pid00Reply (s : State) : Frame :=
  sfBuild 0x01 0x00 s.params.m1Pid00Mask.toList

/-- `OBD.M1.PID00` (R196). -/
def execObdM1Pid00 (_dlc : Nat) (_d0 : Byte) (s : State) : Host.Outcome State Fault Refusal :=
  .next (respond (m1Pid00Reply s) s)

/-- The reply to PID `0x05` (R197). -/
def m1Pid05Reply (s : State) : Frame :=
  sfBuild 0x01 0x05 [enc05 s.params.numerics (snapshot s).coolant]

/-- `OBD.M1.PID05` (R197). -/
def execObdM1Pid05 (_dlc : Nat) (_d0 : Byte) (s : State) : Host.Outcome State Fault Refusal :=
  .next (respond (m1Pid05Reply s) s)

/-- The reply to PID `0x0C` (R60, R198). -/
def m1Pid0CReply (s : State) : Frame :=
  sfBuild 0x01 0x0C [highByte (enc0C s.params.numerics (snapshot s).rpm),
    lowByte (enc0C s.params.numerics (snapshot s).rpm)]

/-- `OBD.M1.PID0C` (R60, R198). -/
def execObdM1Pid0C (_dlc : Nat) (_d0 : Byte) (s : State) : Host.Outcome State Fault Refusal :=
  .next (respond (m1Pid0CReply s) s)

/-- The reply to PID `0x0D` (R199). -/
def m1Pid0DReply (s : State) : Frame :=
  sfBuild 0x01 0x0D [enc0D s.params.numerics (snapshot s).speed]

/-- `OBD.M1.PID0D` (R199). -/
def execObdM1Pid0D (_dlc : Nat) (_d0 : Byte) (s : State) : Host.Outcome State Fault Refusal :=
  .next (respond (m1Pid0DReply s) s)

/-- The reply to PID `0x11` (R200). -/
def m1Pid11Reply (s : State) : Frame :=
  sfBuild 0x01 0x11 [enc11 s.params.numerics (snapshot s).throttle]

/-- `OBD.M1.PID11` (R200). -/
def execObdM1Pid11 (_dlc : Nat) (_d0 : Byte) (s : State) : Host.Outcome State Fault Refusal :=
  .next (respond (m1Pid11Reply s) s)

/-- The reply to PID `0x2F` (R201). -/
def m1Pid2FReply (s : State) : Frame :=
  sfBuild 0x01 0x2F [enc2F s.params.numerics (snapshot s).fuel]

/-- `OBD.M1.PID2F` (R201). -/
def execObdM1Pid2F (_dlc : Nat) (_d0 : Byte) (s : State) : Host.Outcome State Fault Refusal :=
  .next (respond (m1Pid2FReply s) s)

end Sys2Proof.Machine
end

