-- ==== Sys2Proof/Machine/ObdMode9.lean ====
section
/-! DEFINITION. The Mode 9 requests that have a reply: the supported-PID bitmask (R202) and the VIN, whose reply is a
First Frame and Consecutive Frames left pending (R226, R227). -/

namespace Sys2Proof.Machine

/-- The reply to PID `0x00` (R202). -/
def m9Pid00Reply (s : State) : Frame := sfBuild 0x09 0x00 s.params.m9Pid00Mask.toList

/-- `OBD.M9.PID00` (R202). -/
def execObdM9Pid00 (_dlc : Nat) (_d0 : Byte) (s : State) : Host.Outcome State Fault Refusal :=
  .next (respond (m9Pid00Reply s) s)

/-- The VIN reply (R227): begin the transmission, and if it began, send the First Frame. -/
def vinReply (p : List Byte) (len : Nat) (s : State) : State :=
  match beginMft p len s with
  | (true, s1) => respond (ffBuild p len) s1
  | (false, s1) => s1

/-- The VIN reply as far as its dispatch goes, by a responder that other agents may interrupt (R74): the queue is
written, and the First Frame is the next response. -/
def beginVinReply (p : List Byte) (len : Nat) (s : State) : State :=
  match beginMft p len s with
  | (true, s1) => askSend (ffBuild p len) s1
  | (false, s1) => s1

/-- The payload of the VIN reply, of the VIN as it stands (R67, R220). -/
def m9Pid02Payload (s : State) : List Byte := vinPayload s.params.vinFfLayout (snapshot s).vin

/-- `OBD.M9.PID02` (R227). -/
def execObdM9Pid02 (_dlc : Nat) (_d0 : Byte) (s : State) : Host.Outcome State Fault Refusal :=
  .next (vinReply (m9Pid02Payload s) vinTotalLen s)

end Sys2Proof.Machine
end

