-- ==== Sys2Proof/Machine/Transport.lean ====
section
/-! DEFINITION. The host commands and transport primitives of Bus Transport (R130 to R134, R149). -/

namespace Sys2Proof.Machine

/-- `CONFIGURE_START` (R130). -/
def execConfigureStart (bitRate : Rat) (txPin rxPin : Nat) (s : State) : Host.Outcome State Fault Refusal :=
  .next (configureStart bitRate txPin rxPin s)

/-- What a caller of `SEND` sees: the error, or the end of the operation (R132). -/
def sendResult (e : Option Error) (s : State) : State :=
  match e with
  | some err => raise err s
  | none => returns .unit s

/-- `SEND` (R132). -/
def execSend (f : Frame) (timeout : Nat) (s : State) : Host.Outcome State Fault Refusal :=
  .next (sendResult (send f timeout s).1 (send f timeout s).2)

/-- `POLL_RECEIVE` (R133). -/
def execPollReceive (timeout : Nat) (s : State) : Host.Outcome State Fault Refusal :=
  .next (returns (.frame (pollReceive timeout s).1) (pollReceive timeout s).2)

/-- `POLL_ALERTS` (R134). -/
def execPollAlerts (s : State) : Host.Outcome State Fault Refusal :=
  .next (returns (.alerts (pollAlerts s).1) (pollAlerts s).2)

/-- `STOP` (R131). -/
def execStop (s : State) : Host.Outcome State Fault Refusal := .next (returns .unit (stopController s))

/-- `VS_WRITE` (R149). -/
def execVsWrite (u : VsUpdate) (s : State) : Host.Outcome State Fault Refusal :=
  .next (returns .unit { s with block := { s.block with vs := applyUpdate u s.block.vs } })

end Sys2Proof.Machine
end

