-- ==== Sys2Proof/Machine/Dispatch.lean ====
section
/-! DEFINITION. One arm per operation of the map. -/

namespace Sys2Proof.Machine

/-- The meaning of each operation. -/
def exec (i : Instr) (s : State) : Host.Outcome State Fault Refusal :=
  match i with
  | .obdShort dlc d0 d1 => Sys2Proof.Machine.execObdShort dlc d0 d1 s
  | .obdM1Pid00 dlc d0 => Sys2Proof.Machine.execObdM1Pid00 dlc d0 s
  | .obdM1Pid05 dlc d0 => Sys2Proof.Machine.execObdM1Pid05 dlc d0 s
  | .obdM1Pid0C dlc d0 => Sys2Proof.Machine.execObdM1Pid0C dlc d0 s
  | .obdM1Pid0D dlc d0 => Sys2Proof.Machine.execObdM1Pid0D dlc d0 s
  | .obdM1Pid11 dlc d0 => Sys2Proof.Machine.execObdM1Pid11 dlc d0 s
  | .obdM1Pid2F dlc d0 => Sys2Proof.Machine.execObdM1Pid2F dlc d0 s
  | .obdM1Unsup dlc d0 pid => Sys2Proof.Machine.execObdM1Unsup dlc d0 pid s
  | .obdM9Pid00 dlc d0 => Sys2Proof.Machine.execObdM9Pid00 dlc d0 s
  | .obdM9Pid02 dlc d0 => Sys2Proof.Machine.execObdM9Pid02 dlc d0 s
  | .obdM9Unsup dlc d0 pid => Sys2Proof.Machine.execObdM9Unsup dlc d0 pid s
  | .obdModeUnsup dlc d0 mode pid => Sys2Proof.Machine.execObdModeUnsup dlc d0 mode pid s
  | .fcCont dlc d1 d2 => Sys2Proof.Machine.execFcCont dlc d1 d2 s
  | .fcOther dlc d0 d1 d2 => Sys2Proof.Machine.execFcOther dlc d0 d1 d2 s
  | .rxIgnore x => Sys2Proof.Machine.execRxIgnore x s
  | .configureStart bitRate txPin rxPin => Sys2Proof.Machine.execConfigureStart bitRate txPin rxPin s
  | .send f timeout => Sys2Proof.Machine.execSend f timeout s
  | .pollReceive timeout => Sys2Proof.Machine.execPollReceive timeout s
  | .pollAlerts => Sys2Proof.Machine.execPollAlerts s
  | .stop => Sys2Proof.Machine.execStop s
  | .getStatus => Sys2Proof.Machine.execGetStatus s
  | .vsWrite u => Sys2Proof.Machine.execVsWrite u s
  | .diagReport => Sys2Proof.Machine.execDiagReport s
  | .alertBusOff a => Sys2Proof.Machine.execAlertBusOff a s
  | .alertBusRecovered a => Sys2Proof.Machine.execAlertBusRecovered a s

end Sys2Proof.Machine
end

