-- ==== Sys2Proof/Machine/Agents.lean ====
section
/-! DEFINITION. The steps of the agents (R14): the receive loop, the responder, the host, and the Link; how an
operation is fetched; how a program is loaded; and where a word of the opcode table is stored so that the next step runs
it. -/

namespace Sys2Proof.Machine

/-! ## Fetching -/

/-- Run what a word decodes to; a word that spells no operation is no move. -/
def runDecoded (d : Decoded) (s : State) : Host.Outcome State Fault Refusal :=
  match d with
  | .ok i => exec i s
  | .reject r => .refused (.noOperation r)

/-- Run operations one after the other. -/
def runAll : List Instr → State → Host.Outcome State Fault Refusal
  | [], s => .next s
  | i :: rest, s =>
    match exec i s with
    | .next s1 => runAll rest s1
    | .fault r => .fault r
    | .refused r => .refused r

/-- The receive queue with other contents. -/
def setRxq (q : List Frame) (s : State) : State := { s with block := { s.block with rxq := q } }

/-! ## The receive loop -/

/-- The first half of an iteration: receive, and enqueue what came (R157). -/
def receivePhase (s : State) : State :=
  match pollReceive s.params.tRxPoll s with
  | (some f, s1) => enqueue f s1
  | (none, s1) => s1

/-- `HANDLE_ALERTS(a)` (R153): latch `s0`, then run each handler the word selects. Only the receive loop does this, with
the word its poll returned (R260). -/
def handlerStep (a : AlertWord) (s : State) : Host.Outcome State Fault Refusal := runAll (selected (.alert a)) (latchState s)

/-- The second half: poll the alerts and handle them, whether or not a frame came (R157, R261). -/
def alertPhase (s : State) : Host.Outcome State Fault Refusal := handlerStep (pollAlerts s).1 (pollAlerts s).2

/-- `RXLOOP.STEP` (R157); while the loop is not active it has no step (R26), and the state stays as it is. -/
def rxloopStep (s : State) : Host.Outcome State Fault Refusal :=
  if s.block.rxloopActive then alertPhase (receivePhase s) else .next s

/-! ## The responder -/

/-- Whether the responder is inside an iteration: it has a response on its way out, or a release under way. -/
def midIteration (s : State) : Bool := s.block.sending.isSome || s.block.release.isSome

/-- The rest of an iteration under way, without interruption: the response on its way out ends, and then the release
(R158, R229). -/
def finishIteration (s : State) : State :=
  match s.block.release with
  | none => finishSending s
  | some i => releaseFrom i (finishSending s)

/-- `RESP.STEP` to the end of the iteration (R158): finish an iteration that is under way, or else dequeue a frame and
run its operation; with an empty queue the wait times out and nothing happens. -/
def respStep (s : State) : Host.Outcome State Fault Refusal :=
  if midIteration s then .next (finishIteration s)
  else
    match s.block.rxq with
    | [] => .next s
    | f :: rest => runDecoded (decodeFrame f) (setRxq rest s)

/-- The dispatch of an operation by a responder that other agents may interrupt (R74, R158): the operations that transmit
stop before their first `SEND`; the others run whole. -/
def beginOperation (i : Instr) (s : State) : Host.Outcome State Fault Refusal :=
  match i with
  | .obdM1Pid00 _ _ => .next (askSend (m1Pid00Reply s) s)
  | .obdM1Pid05 _ _ => .next (askSend (m1Pid05Reply s) s)
  | .obdM1Pid0C _ _ => .next (askSend (m1Pid0CReply s) s)
  | .obdM1Pid0D _ _ => .next (askSend (m1Pid0DReply s) s)
  | .obdM1Pid11 _ _ => .next (askSend (m1Pid11Reply s) s)
  | .obdM1Pid2F _ _ => .next (askSend (m1Pid2FReply s) s)
  | .obdM9Pid00 _ _ => .next (askSend (m9Pid00Reply s) s)
  | .obdM9Pid02 _ _ => .next (beginVinReply (m9Pid02Payload s) vinTotalLen s)
  | .fcCont _ _ _ => .next (beginFcCont s)
  | .obdShort _ _ _ | .obdM1Unsup _ _ _ | .obdM9Unsup _ _ _ | .obdModeUnsup _ _ _ _ | .fcOther _ _ _ _
  | .rxIgnore _ => exec i s
  | .configureStart _ _ _ | .send _ _ | .pollReceive _ | .pollAlerts | .stop | .getStatus | .vsWrite _
  | .diagReport => exec i s
  | .alertBusOff _ | .alertBusRecovered _ => exec i s

/-- The responder to its next scheduling point (R15, R74): the dequeue and the dispatch decision are one step; each
`SEND` then begins in one step and ends in another, and a release has one step before each of its `SEND`s and one for its
end. Between any two of them the other agents may step. -/
def respPart (s : State) : Host.Outcome State Fault Refusal :=
  match s.block.sending with
  | some x => .next (sendingPart x s)
  | none =>
    match s.block.release with
    | some i => .next (releasePart i s)
    | none =>
      match s.block.rxq with
      | [] => .next s
      | f :: rest =>
        match decodeFrame f with
        | .ok i => beginOperation i (setRxq rest s)
        | .reject r => .refused (.noOperation r)

/-! ## The host -/

/-- The three operations the host does not call while the loops run: they would steal frames and alerts from the receive
loop (R306). -/
def isLoopCall : Instr → Bool
  | .send _ _ => true
  | .pollReceive _ => true
  | .pollAlerts => true
  | .obdShort _ _ _ | .obdM1Pid00 _ _ | .obdM1Pid05 _ _ | .obdM1Pid0C _ _ | .obdM1Pid0D _ _ | .obdM1Pid11 _ _
  | .obdM1Pid2F _ _ | .obdM1Unsup _ _ _ | .obdM9Pid00 _ _ | .obdM9Pid02 _ _ | .obdM9Unsup _ _ _
  | .obdModeUnsup _ _ _ _ | .fcCont _ _ _ | .fcOther _ _ _ _ | .rxIgnore _ => false
  | .configureStart _ _ _ | .stop | .getStatus | .vsWrite _ | .diagReport => false
  | .alertBusOff _ | .alertBusRecovered _ => false

/-- The host issues a command (R101). The calls R306 assumes never to happen are no move (U19). -/
def hostStep (bytes : List Byte) (s : State) : Host.Outcome State Fault Refusal :=
  match decode (.cmd bytes) with
  | .ok i => if isLoopCall i && s.block.rxloopActive then .refused .hostCallWhileLoopsRun else exec i s
  | .reject r => .refused (.noOperation r)

/-- The control surface's key/value write (R149, D39): an unknown name is ignored. -/
def hostKeyStep (key value : String) (s : State) : Host.Outcome State Fault Refusal :=
  match keyUpdate s.params key value with
  | none => .next s
  | some u => exec (.vsWrite u) s

/-! ## The Link -/

/-- The Link takes a word from the bus and will deliver it (R121 `RX`); without a controller no frame is received
(R285). -/
def linkReceives (w : WireWord) (s : State) : State :=
  if s.block.ctrlInstalled then
    { s with
      link := { s.link with rxFifo := s.link.rxFifo ++ [w] }
      draws := { s.draws with recv := s.draws.recv ++ [.deliver] } }
  else s

/-- The Link raises alerts (R32), while the controller is installed (R259, R273). -/
def linkRaises (a : AlertWord) (s : State) : State :=
  if s.block.ctrlInstalled then
    { s with link := { s.link with alertsPending := s.link.alertsPending ||| alertBits s.params a } }
  else s

/-- The Link reports counters (R28); it has no record to report that `CTR_W` cannot hold (R8, R27). -/
def linkReports (c : Counters) (s : State) : State :=
  if fitsCounters s.params c then { s with link := { s.link with counters := advanceCounters s.link.counters c } } else s

/-- The Link's hidden state moves (R33). -/
def linkMoves (rxFifo : List WireWord) (opState : Nat) (s : State) : State :=
  { s with link := { s.link with rxFifo := rxFifo, opState := opState } }

/-- The oldest accepted word leaves the controller's transmit queue (R73). -/
def linkTransmitted (s : State) : State := { s with link := { s.link with txFifo := s.link.txFifo.drop 1 } }

/-! ## One event -/

/-- The step an event stands for. -/
def runEvent (e : Event) (s : State) : Host.Outcome State Fault Refusal :=
  match e with
  | .resp => respStep s
  | .respPart => respPart s
  | .rxloop => rxloopStep s
  | .host bytes => hostStep bytes s
  | .hostKey key value => hostKeyStep key value s
  | .rx w => .next (linkReceives w s)
  | .alert a => .next (linkRaises a s)
  | .linkSend o => .next { s with draws := { s.draws with send := s.draws.send ++ [o] } }
  | .linkCtrl o => .next { s with draws := { s.draws with ctrl := s.draws.ctrl ++ [o] } }
  | .linkRecv o => .next { s with draws := { s.draws with recv := s.draws.recv ++ [o] } }
  | .linkCounters c => .next (linkReports c s)
  | .linkHidden rxFifo opState => .next (linkMoves rxFifo opState s)
  | .linkTxDone => .next (linkTransmitted s)

/-- The next event: the head of the program, or with no program left the free scheduler's choice (R14). -/
def nextEvent (s : State) : Event × State :=
  match s.script with
  | e :: rest => (e, { s with script := rest })
  | [] => (Config.freeEvent s.turn, { s with turn := s.turn + 1 })

/-! ## Loading a program -/

/-- A program (R121) loaded: its events are the ones to come, and a `SEND` or `Ctrl` outcome that none of its `LINK`
events fixes is `ok`. -/
def loadProgram (program : List Event) (s : State) : State :=
  { s with script := program, draws := { s.draws with unfixed := .ok } }

/-! ## Storing a word of the opcode table -/

/-- The state in which the host may call what the bytes decode to: the loops do not run under the three calls of R306. -/
def hostMayCall (bytes : List Byte) (s : State) : State :=
  match decode (.cmd bytes) with
  | .ok i => if isLoopCall i then { s with block := { s.block with rxloopActive := false } } else s
  | .reject _ => s

/-- The state in which the next iteration of the receive loop polls the word `a` and does nothing else: the loop active
over a controller that has received nothing and holds exactly these alerts (R157, R260). -/
def alertsToPoll (a : AlertWord) (s : State) : State :=
  { s with
    block := { s.block with ctrlInstalled := true, rxloopActive := true }
    link := { s.link with alertsPending := a, rxFifo := [] } }

/-- An encoded operation put where the next step fetches it: a frame at the head of the receive queue with the
responder between iterations, a command in the host's hands (one of the three calls of R306 with the loops halted), an
alert word where the receive loop polls it. -/
def placeOp (w : OpWord) (s : State) : State :=
  match w with
  | .rxf dw =>
    { s with
      block := { s.block with rxq := frameOfFields (unpackDispatch dw) :: s.block.rxq, release := none, sending := none }
      script := .resp :: s.script }
  | .cmd bytes => { hostMayCall bytes s with script := .host bytes :: s.script }
  | .alert a => { alertsToPoll a s with script := .rxloop :: s.script }

end Sys2Proof.Machine
end

