-- ==== Sys2Proof/Machine/Step.lean ====
section
/-! DEFINITION. One step of the machine: the next event is taken and its agent steps (R14, R15). -/

namespace Sys2Proof.Machine

/-- One step. -/
def step (s : State) : Host.Outcome State Fault Refusal := runEvent (nextEvent s).1 (nextEvent s).2

/-- The state with a word of the opcode table stored where the next step fetches its operation. -/
def State.withFetchWord (s : State) (nbits w : Nat) : State := placeOp (tableOpWord nbits w) s

end Sys2Proof.Machine
end

