-- ==== Sys2Proof/Safety.lean ====
section
/-! DEFINITION. The terms in which claims about the machine are stated: what the Link draws, the state after a reply,
rounding and truncation as relations, the invariant of the machine, quiescence, and a release run part by part. -/

namespace Sys2Proof.Machine

/-! ## What the Link draws -/

/-- The `k`-th outcome, from 0, that the Link draws for the `Ctrl` calls made next. -/
def ctrlDraw : Nat → State → CtrlOutcome
  | 0, s => (drawCtrl s).1
  | k + 1, s => ctrlDraw k (drawCtrl s).2

/-- The draws left after `n` `Ctrl` calls. -/
def drawsAfterCtrl : Nat → State → Draws
  | 0, s => s.draws
  | n + 1, s => drawsAfterCtrl n (drawCtrl s).2

/-- The outcome the Link draws for a `SEND` made next with this timeout. -/
def sendDraw (timeout : Nat) (s : State) : SendOutcome := (drawSend timeout s).1

/-- The draws left after one `SEND` that asked the Link. -/
def drawsAfterSend (timeout : Nat) (s : State) : Draws := (drawSend timeout s).2.draws

/-- A frame the block builds goes out: the block is `Running` and the Link accepts it (R132). -/
def accepted (timeout : Nat) (s : State) : Bool := s.block.busState == .running && sendDraw timeout s == .ok

/-! ## Replies -/

/-- A standard data frame on `0x7E8` with eight data bytes, written out (R97, R98, R99). -/
def frame7E8 (b0 b1 b2 b3 b4 b5 b6 b7 : Byte) : Frame :=
  { extd := false, rtr := false, id := 0x7E8, dlc := 8, data := [b0, b1, b2, b3, b4, b5, b6, b7] }

/-- The state after one `RESPOND` of a valid frame (R132, R159): `tx_log` and the controller's transmit queue gain
the frame if it is accepted; the Link is asked only while `Running`; nothing else changes. -/
def afterReply (f : Frame) (s : State) : State :=
  { s with
    draws := if s.block.busState = .running then drawsAfterSend s.params.tSend s else s.draws
    link := if accepted s.params.tSend s then { s.link with txFifo := s.link.txFifo ++ [encodeWire f] } else s.link
    ghost := if accepted s.params.tSend s then { s.ghost with txLog := s.ghost.txLog ++ [f] } else s.ghost }

/-! ## Rounding and truncation as relations (R12) -/

/-- `r` is `round(x)`: the integer nearest to `x`, and at a half the one farther from zero. -/
def IsRound (x : Rat) (r : Int) : Prop := |x - r| < 1 / 2 ∨ (|x - r| = 1 / 2 ∧ |x| < |(r : Rat)|)

/-- `r` is `trunc(x)`: the fraction of `x` cut off toward zero. -/
def IsTrunc (x : Rat) (r : Int) : Prop := (0 ≤ x ∧ (r : Rat) ≤ x ∧ x < r + 1) ∨ (x < 0 ∧ x ≤ r ∧ (r : Rat) < x + 1)

/-- An integer held inside `0` to `hi`, as a natural number. -/
def heldIn (hi : Nat) (r : Int) : Nat := (max 0 (min (hi : Int) r)).toNat

/-! ## Frames and slots -/

/-- The record is a Frame and lists exactly its valid bytes (R20, R21, R91). -/
def isFrame (f : Frame) : Bool := f.valid && f.data.length == f.dlc

/-- The shape of the pending queue (R233, with only the VIN path populating it): nothing is populated, or exactly the
first two slots are, with PCI bytes `0x21` and `0x22`. -/
def PendingShape (q : List Slot) : Prop :=
  (∀ sl ∈ q, populated sl = false) ∨
    ∃ a b rest, q = a :: b :: rest ∧ a[0] = 0x21 ∧ b[0] = 0x22 ∧ ∀ sl ∈ rest, populated sl = false

/-- A frame the responder may transmit (R182): a standard data frame on `0x7E8` with eight bytes that is a single-frame
response of Mode 1 or 9, a First Frame, or the Consecutive Frame `0x21` or `0x22`. -/
def IsResponse (f : Frame) : Prop :=
  ∃ b0 b1 b2 b3 b4 b5 b6 b7, f = frame7E8 b0 b1 b2 b3 b4 b5 b6 b7 ∧
    (((b0 = 0x03 ∨ b0 = 0x04 ∨ b0 = 0x06) ∧ (b1 = 0x41 ∨ b1 = 0x49)) ∨ b0 = 0x10 ∨ b0 = 0x21 ∨ b0 = 0x22)

/-! ## The invariant -/

/-- What holds in every state the machine can reach. -/
structure Inv (s : State) : Prop where
  /-- `len(rxq) <= RXQ_CAP` (R30). -/
  rxqBound : s.block.rxq.length ≤ rxqCap
  /-- The receive queue holds Frames (R20, R94). -/
  rxqFrames : ∀ f ∈ s.block.rxq, isFrame f = true
  /-- The pending queue has `MF_SLOTS` slots (R31). -/
  mfqSize : s.block.mfq.length = s.params.mfSlots
  /-- R233. -/
  mfqShape : PendingShape s.block.mfq
  /-- R26. -/
  stoppedIff : s.block.busState = .stopped ↔ s.block.ctrlInstalled = false
  /-- R26; the two are also set and cleared together (R130, R131). -/
  loopInstalled : s.block.rxloopActive = true ↔ s.block.ctrlInstalled = true
  /-- The alert word has `ALERT_W` bits (R32, R102). -/
  alertsFit : s.link.alertsPending < 2 ^ s.params.alertW
  /-- A release under way is at a slot of the queue, or at its end (R229). -/
  releaseBound : ∀ i, s.block.release = some i → i ≤ s.block.mfq.length
  /-- What the responder is transmitting is a response (R182). -/
  sendingResponse : ∀ x, s.block.sending = some x → IsResponse x.frame
  /-- The counters fit in `CTR_W` bits, where it gives a width (R8, R27). -/
  countersFit : fitsCounters s.params s.link.counters = true
  /-- `recovery_calls` counts the recovery requests of `ctrl_log` (R34). -/
  recoveryCount : s.ghost.recoveryCalls = s.ghost.ctrlLog.count .initiateRecovery
  /-- `restart_calls` counts some of the starts of `ctrl_log` (R34). -/
  restartCount : s.ghost.restartCalls ≤ s.ghost.ctrlLog.count .start
  /-- Only Frames were transmitted (R132). -/
  txLogFrames : ∀ f ∈ s.ghost.txLog, f.valid = true

/-! ## Whole-machine notions -/

/-- Quiescent (R305): nothing to dispatch, no operation and no `SEND` in progress, no alert pending. -/
def Quiescent (s : State) : Prop :=
  s.block.rxq = [] ∧ s.block.release = none ∧ s.block.sending = none ∧ s.link.alertsPending = 0

/-- The event is the host's command `i`. -/
def isCommand (e : Event) (i : Instr) : Prop := ∃ bytes, e = .host bytes ∧ decode (.cmd bytes) = .ok i

/-- The event is a `VS_WRITE`, given as a command or through the key/value path (R24, R149). -/
def writesVehicleState (e : Event) : Prop := (∃ u, isCommand e (.vsWrite u)) ∨ ∃ key value, e = .hostKey key value

/-- The responder alone, part by part, until it is between iterations again. -/
def finishParts : Nat → State → Host.Outcome State Fault Refusal
  | 0, s => .next s
  | n + 1, s =>
    if midIteration s then
      match respPart s with
      | .next t => finishParts n t
      | .fault r => .fault r
      | .refused r => .refused r
    else .next s

/-- One iteration of the responder taken part by part, with no other agent stepping in between. -/
def iterationByParts (n : Nat) (s : State) : Host.Outcome State Fault Refusal :=
  match respPart s with
  | .next t => finishParts n t
  | .fault r => .fault r
  | .refused r => .refused r

end Sys2Proof.Machine
end

