-- ==== Sys2Proof/Certificates/Slice0/Obligations.lean ====
section
/-! DEFINITION. The statements about the machine. Each docstring names the rules of the spec it rests on. Where an
equation gives the whole next state, its fields `draws`, `result` and `link.txFifo` are the model's way to hold what the
Link draws, what a command returns and what the controller has accepted (notes/assumptions/2.md, 11.md, 16.md). -/

open Sys2Proof Sys2Proof.Machine

/-! ## Encoding -/

/-- Words written out from the operation map (the dispatch words of V10 to V26, the command codes of R101, the alert
bits of R102) decode to the operations they stand for. -/
def Obligations.DecodesWrittenWords : Prop :=
  decode (.rxf 0x07DF2020100) = .ok (.obdShort 2 0x02 0x01) ∧
    decode (.rxf 0x07DF802010C) = .ok (.obdM1Pid0C 8 0x02) ∧
    decode (.rxf 0x07DF3FF010D) = .ok (.obdM1Pid0D 3 0xFF) ∧
    decode (.rxf 0x07DF8020199) = .ok (.obdM1Unsup 8 0x02 0x99) ∧
    decode (.rxf 0x07DF802090A) = .ok (.obdM9Unsup 8 0x02 0x0A) ∧
    decode (.rxf 0x07DF80222F1) = .ok (.obdModeUnsup 8 0x02 0x22 0xF1) ∧
    decode (.rxf 0x07E01300000) = .ok (.fcCont 1 0x00 0x00) ∧
    decode (.rxf 0x07E08310000) = .ok (.fcOther 8 0x31 0x00 0x00) ∧
    decode (.rxf 0x17DF802010C) = .ok (.rxIgnore ⟨true, false, 0x7DF, 8, 0x02, 0x01, 0x0C⟩) ∧
    decode (.cmd [0x04]) = .ok .stop ∧
    decode (.alert 0x2) = .ok (.alertBusRecovered 0x2)

/-- R109, R170: every dispatch word with a DLC a frame can have selects the operation whose mnemonic is that of the
first row of the operation map (`rxfRows`) whose mask, match and DLC condition hold of it; there always is one. -/
def Obligations.DispatchIsTheTablesFirstRow : Prop :=
  ∀ w : DispatchWord, (unpackDispatch w).dlc ≤ 8 →
    ∃ i m, decodeRxf w = .ok i ∧ i.wf = true ∧ i.rxfMnemonic = some m ∧ tableMnemonic w = some m

/-- Every well-formed operation is among those its encoding selects; and outside the alert words, which may select two
handlers (R112), it is what the decoder reads. The operand bytes of the commands are the model's choice
(notes/assumptions/6.md). -/
def Obligations.DecodeInvertsEncode : Prop :=
  ∀ i : Instr, i.wf = true → i ∈ selected (encode i) ∧ (i.format ≠ .alert → decode (encode i) = .ok i)

/-- The operation of a received frame encodes as that frame's dispatch word (R105, R109). -/
def Obligations.EncodeInvertsFrameDecode : Prop :=
  ∀ f : Frame, isFrame f = true → ∃ i, decodeFrame f = .ok i ∧ i.wf = true ∧ encode i = .rxf (dispatchWord f)

/-- R93: the fields of the wire word of a frame; a byte field at the DLC or above is `0x00`. -/
def Obligations.WireWordFields : Prop :=
  ∀ f : Frame, f.valid = true →
    (encodeWire f).getLsbD 98 = f.extd ∧ (encodeWire f).getLsbD 97 = f.rtr ∧
      (encodeWire f).extractLsb' 68 29 = f.id ∧ ((encodeWire f).extractLsb' 64 4).toNat = f.dlc ∧
      ∀ i < 8, (encodeWire f).extractLsb' (56 - 8 * i) 8 = if i < f.dlc then f.data.getD i 0 else 0x00

/-- R94: `decode_wire` on any 99-bit word. -/
def Obligations.WireDecodeIsTotal : Prop :=
  ∀ w : WireWord,
    ((8 < (w.extractLsb' 64 4).toNat ∨ (w.getLsbD 98 = false ∧ (w.extractLsb' 68 29).extractLsb' 11 18 ≠ 0)) →
        decodeWire w = none) ∧
      ((w.extractLsb' 64 4).toNat ≤ 8 → (w.getLsbD 98 = true ∨ (w.extractLsb' 68 29).extractLsb' 11 18 = 0) →
        ∃ f, decodeWire w = some f ∧ isFrame f = true ∧ f.extd = w.getLsbD 98 ∧ f.rtr = w.getLsbD 97 ∧
          f.id = w.extractLsb' 68 29 ∧ f.dlc = (w.extractLsb' 64 4).toNat ∧
          ∀ i < f.dlc, f.data[i]? = some (w.extractLsb' (56 - 8 * i) 8))

/-- R95: encode then decode gives back a frame equal as a frame; decode then encode gives back exactly the words whose
unused byte fields are zero. -/
def Obligations.WireRoundTrip : Prop :=
  (∀ f : Frame, f.valid = true →
      ∃ g, decodeWire (encodeWire f) = some g ∧ g.extd = f.extd ∧ g.rtr = f.rtr ∧ g.id = f.id ∧ g.dlc = f.dlc ∧
        ∀ i < f.dlc, g.byte i = f.byte i) ∧
    ∀ (w : WireWord) (f : Frame), decodeWire w = some f →
      (encodeWire f = w ↔ ∀ i < 8, f.dlc ≤ i → w.extractLsb' (56 - 8 * i) 8 = 0)

/-! ## The step and the operation it runs -/

/-- A step takes the next event, and the event's agent runs the decoded operation: the responder that of the frame it
dequeues (R158), the host that of its command (R101), unless it is one of the three calls R306 assumes away while the
loops run, the receive loop, after its receive and enqueue, each handler that the word it polls selects, the bus state
latched first (R153, R157, R260). The list of events, the latch and the place inside an iteration are the model's choice
(notes/assumptions/1.md, notes/assumptions/8.md and notes/assumptions/17.md). -/
def Obligations.StepRunsDecodedOperation : Prop :=
  (∀ (s : State) (rest : List Event) (f : Frame) (q : List Frame) (i : Instr),
      s.script = .resp :: rest → s.block.release = none → s.block.sending = none → s.block.rxq = f :: q →
      decodeFrame f = .ok i →
      step s = exec i { s with script := rest, block := { s.block with rxq := q } }) ∧
    (∀ (s : State) (rest : List Event) (bytes : List Byte) (i : Instr),
      s.script = .host bytes :: rest → decode (.cmd bytes) = .ok i →
      (isLoopCall i = true → s.block.rxloopActive = false) → step s = exec i { s with script := rest }) ∧
    ∀ (s r : State) (rest : List Event) (a : AlertWord),
      s.script = .rxloop :: rest → s.block.rxloopActive = true → r = receivePhase { s with script := rest } →
      a = (if s.block.ctrlInstalled then s.link.alertsPending else 0) →
      (pollAlerts r).1 = a ∧ step s = runAll (selected (.alert a)) (latchState (pollAlerts r).2)

/-- A word of the opcode table stored with `withFetchWord` is what the very next step runs: a frame with the responder
between iterations, one of the three calls of R306 with the loops halted, an alert word where the active receive loop
polls it from a controller that has received nothing (R260). How a word is placed is the model's choice
(notes/assumptions/1.md, notes/assumptions/9.md and notes/assumptions/10.md). -/
def Obligations.StepRunsFetchedTableWord : Prop :=
  (∀ (s : State) (nbits w : Nat) (i : Instr), 41 ≤ nbits → nbits ≤ 48 → decodeTableWord nbits w = some i →
      step (s.withFetchWord nbits w) = exec i { s with block := { s.block with release := none, sending := none } }) ∧
    (∀ (s : State) (w : Nat) (i : Instr), decodeTableWord 8 w = some i →
      step (s.withFetchWord 8 w) =
        exec i (if isLoopCall i then { s with block := { s.block with rxloopActive := false } } else s)) ∧
    ∀ (s : State) (nbits w : Nat) (i : Instr), nbits ≠ 8 → ¬(41 ≤ nbits ∧ nbits ≤ 48) →
      ¬(w.testBit 0 = true ∧ w.testBit 1 = true) → decodeTableWord nbits w = some i →
      step (s.withFetchWord nbits w) =
        exec i
          (latchState
            { s with
              block := { s.block with ctrlInstalled := true, rxloopActive := true }
              link := { s.link with alertsPending := 0, rxFifo := [] } })

/-! ## The PID Codec -/

/-- R12: the arithmetic the encoders run is `round` and `trunc`. The scaled rounding of a signal `x` by `k / m` is the one
integer that is `round(x * k / m)`, and the quotient of its numerator by its denominator the one that is `trunc(x)`. -/
def Obligations.RoundAndTruncAreFunctions : Prop :=
  (∀ (x : Signal) (k : Int) (m : Nat) (r : Int), 0 < m → (IsRound (x * k / m) r ↔ r = scaleRound x k m)) ∧
    ∀ (x : Signal) (r : Int), IsTrunc x r ↔ r = truncDiv x.num x.den

/-- R197. -/
def Obligations.CoolantReply : Prop :=
  ∀ (dlc : Nat) (d0 : Byte) (s : State) (r : Int),
    s.params.numerics = .reference → IsRound s.block.vs.coolant r →
    exec (.obdM1Pid05 dlc d0) s =
      .next (afterReply (frame7E8 0x03 0x41 0x05 (BitVec.ofNat 8 (heldIn 255 (r + 40))) 0 0 0 0) s)

/-- R198: the most significant byte first (R60). -/
def Obligations.EngineSpeedReply : Prop :=
  ∀ (dlc : Nat) (d0 : Byte) (s : State) (r : Int),
    s.params.numerics = .reference → IsRound (s.block.vs.rpm * 4) r →
    exec (.obdM1Pid0C dlc d0) s =
      .next (afterReply (frame7E8 0x04 0x41 0x0C (BitVec.ofNat 8 (heldIn 65535 r / 256))
        (BitVec.ofNat 8 (heldIn 65535 r % 256)) 0 0 0) s)

/-- R199. -/
def Obligations.VehicleSpeedReply : Prop :=
  ∀ (dlc : Nat) (d0 : Byte) (s : State) (r : Int),
    s.params.numerics = .reference → IsTrunc s.block.vs.speed r →
    exec (.obdM1Pid0D dlc d0) s =
      .next (afterReply (frame7E8 0x03 0x41 0x0D (BitVec.ofNat 8 (heldIn 255 r)) 0 0 0 0) s)

/-- R200. -/
def Obligations.ThrottleReply : Prop :=
  ∀ (dlc : Nat) (d0 : Byte) (s : State) (r : Int),
    s.params.numerics = .reference → IsRound (s.block.vs.throttle * 255 / 100) r →
    exec (.obdM1Pid11 dlc d0) s =
      .next (afterReply (frame7E8 0x03 0x41 0x11 (BitVec.ofNat 8 (heldIn 255 r)) 0 0 0 0) s)

/-- R201. -/
def Obligations.FuelLevelReply : Prop :=
  ∀ (dlc : Nat) (d0 : Byte) (s : State) (r : Int),
    s.params.numerics = .reference → IsRound (s.block.vs.fuel * 255 / 100) r →
    exec (.obdM1Pid2F dlc d0) s =
      .next (afterReply (frame7E8 0x03 0x41 0x2F (BitVec.ofNat 8 (heldIn 255 r)) 0 0 0 0) s)

/-- R191: in any other arithmetic the data bytes are some function of the operand alone (the free encoders of
`Config`, notes/assumptions/14.md). -/
def Obligations.OtherArithmeticReplies : Prop :=
  ∀ (dlc : Nat) (d0 : Byte) (s : State), s.params.numerics = .implementation →
    exec (.obdM1Pid05 dlc d0) s =
        .next (afterReply (frame7E8 0x03 0x41 0x05 (Config.enc05 s.block.vs.coolant) 0 0 0 0) s) ∧
      exec (.obdM1Pid0C dlc d0) s =
        .next (afterReply (frame7E8 0x04 0x41 0x0C ((Config.enc0C s.block.vs.rpm).extractLsb' 8 8)
          ((Config.enc0C s.block.vs.rpm).extractLsb' 0 8) 0 0 0) s) ∧
      exec (.obdM1Pid0D dlc d0) s =
        .next (afterReply (frame7E8 0x03 0x41 0x0D (Config.enc0D s.block.vs.speed) 0 0 0 0) s) ∧
      exec (.obdM1Pid11 dlc d0) s =
        .next (afterReply (frame7E8 0x03 0x41 0x11 (Config.enc11 s.block.vs.throttle) 0 0 0 0) s) ∧
      exec (.obdM1Pid2F dlc d0) s =
        .next (afterReply (frame7E8 0x03 0x41 0x2F (Config.enc2F s.block.vs.fuel) 0 0 0 0) s)

/-- R196, R202: the two supported-PID bitmasks. -/
def Obligations.SupportedPidReplies : Prop :=
  ∀ (dlc : Nat) (d0 : Byte) (s : State),
    exec (.obdM1Pid00 dlc d0) s =
        .next (afterReply (frame7E8 0x06 0x41 0x00 s.params.m1Pid00Mask[0] s.params.m1Pid00Mask[1]
          s.params.m1Pid00Mask[2] s.params.m1Pid00Mask[3] 0) s) ∧
      exec (.obdM9Pid00 dlc d0) s =
        .next (afterReply (frame7E8 0x06 0x49 0x00 s.params.m9Pid00Mask[0] s.params.m9Pid00Mask[1]
          s.params.m9Pid00Mask[2] s.params.m9Pid00Mask[3] 0) s)

/-- R209: what a decoder gives back of a signal inside the range its bytes can hold, and that every decoder followed by
its encoder is the identity on bytes. -/
def Obligations.CodecRoundTrips : Prop :=
  (∀ x : Rat, -40 ≤ x → x ≤ 215 → |dec05 (refEnc05 x) - x| ≤ 1 / 2) ∧
    (∀ x : Rat, 0 ≤ x → x ≤ 65535 / 4 → |dec0C (highByte (refEnc0C x)) (lowByte (refEnc0C x)) - x| ≤ 1 / 8) ∧
    (∀ x : Rat, 0 ≤ x → x < 256 → 0 ≤ x - dec0D (refEnc0D x) ∧ x - dec0D (refEnc0D x) < 1) ∧
    (∀ x : Rat, 0 ≤ x → x ≤ 100 → |dec11 (refEnc11 x) - x| ≤ 50 / 255 ∧ |dec2F (refEnc2F x) - x| ≤ 50 / 255) ∧
    (∀ a : Byte, refEnc05 (dec05 a) = a ∧ refEnc0D (dec0D a) = a ∧ refEnc11 (dec11 a) = a ∧ refEnc2F (dec2F a) = a) ∧
    ∀ a b : Byte, highByte (refEnc0C (dec0C a b)) = a ∧ lowByte (refEnc0C (dec0C a b)) = b

/-- R194: no encoder wraps: a larger signal never gives a smaller code. -/
def Obligations.EncodersNeverWrap : Prop :=
  ∀ x y : Rat, x ≤ y →
    (refEnc05 x).toNat ≤ (refEnc05 y).toNat ∧ (refEnc0C x).toNat ≤ (refEnc0C y).toNat ∧
      (refEnc0D x).toNat ≤ (refEnc0D y).toNat ∧ (refEnc11 x).toNat ≤ (refEnc11 y).toNat ∧
      (refEnc2F x).toNat ≤ (refEnc2F y).toNat

/-! ## The Multi-Frame Segmenter -/

/-- R221: the First Frame of a payload of any length from 8 to 4095. -/
def Obligations.FirstFrameLayout : Prop :=
  ∀ (p : List Byte) (len : Nat), 8 ≤ len → len ≤ 4095 → p.length = len →
    ffBuild p len =
      frame7E8 (BitVec.ofNat 8 (0x10 + len / 256)) (BitVec.ofNat 8 (len % 256)) (p.getD 0 0) (p.getD 1 0) (p.getD 2 0)
        (p.getD 3 0) (p.getD 4 0) (p.getD 5 0)

/-- R226 with R222 to R225: the begin of a transmission of any length from 8 to 4095. `n` is the number of Consecutive
Frames, the least with `7 * n` at least `len - 6`. With too few slots nothing changes; else slot `i` below `n` holds
the PCI byte of sequence number `(i + 1) mod 16` and the payload bytes from `6 + 7 * i` on, zeros past the end, and
every other slot is all-zero, whatever the queue held before. -/
def Obligations.BeginTransmissionReplacesQueue : Prop :=
  ∀ (p : List Byte) (len n : Nat) (s : State), 8 ≤ len → len ≤ 4095 → p.length = len →
    len - 6 ≤ 7 * n → 7 * n < len - 6 + 7 →
    (s.block.mfq.length < n → beginMft p len s = (false, s)) ∧
      (n ≤ s.block.mfq.length → ∃ q : List Slot,
        beginMft p len s = (true, { s with block := { s.block with mfq := q } }) ∧ q.length = s.block.mfq.length ∧
          (∀ i < n, ∃ sl : Slot, q[i]? = some sl ∧ sl[0] = BitVec.ofNat 8 (0x20 + (i + 1) % 16) ∧
            ∀ j : Fin 7, sl[j.val + 1] = if 6 + 7 * i + j.val < len then p.getD (6 + 7 * i + j.val) 0 else 0) ∧
          ∀ i, n ≤ i → i < q.length → q[i]? = some zeroSlot)

/-- The First Frame's six payload bytes and the seven of each slot in order, cut to the length, are the payload: no
byte is lost, doubled or moved (R221, R223). -/
def Obligations.SegmentationCarriesPayload : Prop :=
  ∀ (p : List Byte) (len : Nat) (s t : State), 8 ≤ len → len ≤ 4095 → p.length = len →
    beginMft p len s = (true, t) →
    ((ffBuild p len).data.drop 2 ++ t.block.mfq.flatMap fun sl => sl.toList.drop 1).take len = p

/-- R227 with R220: the VIN request. With at least two slots (R8) the queue becomes the two Consecutive Frames of the
snapshot's VIN and zeros, and one First Frame in the configured layout goes out; with fewer nothing happens at all. -/
def Obligations.VinRequest : Prop :=
  ∀ (dlc : Nat) (d0 : Byte) (s : State) (v : Vector Byte 17), s.block.vs.vin = v →
    (2 ≤ s.block.mfq.length →
      exec (.obdM9Pid02 dlc d0) s =
        .next (afterReply
          (match s.params.vinFfLayout with
            | .literal => frame7E8 0x10 0x14 0x49 0x02 v[0] v[1] v[2] 0x00
            | .itemCount => frame7E8 0x10 0x14 0x49 0x02 0x01 v[0] v[1] v[2])
          { s with
            block :=
              { s.block with
                mfq :=
                  #v[0x21, v[3], v[4], v[5], v[6], v[7], v[8], v[9]] ::
                    #v[0x22, v[10], v[11], v[12], v[13], v[14], v[15], v[16]] ::
                    List.replicate (s.block.mfq.length - 2) zeroSlot } })) ∧
      (s.block.mfq.length < 2 → exec (.obdM9Pid02 dlc d0) s = .next s)

/-! ## The flow-control release -/

/-- R229, R230, R232: a release while `Running`, for any outcomes of its transmissions. The populated slots (byte 0 not
zero) are transmitted in slot order, each once; those the Link accepts enter `tx_log` and the controller's transmit
queue, a failed one is skipped; at the end every slot is all-zero. Nothing else changes. The draws, the place and the
controller's transmit queue are the model's fields (notes/assumptions/2.md and notes/assumptions/17.md,
notes/assumptions/16.md). -/
def Obligations.ReleaseTransmitsPendingInOrder : Prop :=
  ∀ (dlc : Nat) (d1 d2 : Byte) (s : State) (outs more : List SendOutcome) (sent : List Frame),
    s.block.busState = .running → s.draws.send = outs ++ more →
    outs.length = (s.block.mfq.filter fun sl => sl[0] != 0).length →
    sent =
      (((s.block.mfq.filter fun sl => sl[0] != 0).zip outs).filterMap fun p =>
        if p.2 = .ok then
          some (frame7E8 p.1[0] p.1[1] p.1[2] p.1[3] p.1[4] p.1[5] p.1[6] p.1[7])
        else none) →
    exec (.fcCont dlc d1 d2) s =
      .next
        { s with
          block := { s.block with mfq := List.replicate s.block.mfq.length zeroSlot, release := none }
          draws := { s.draws with send := more }
          link := { s.link with txFifo := s.link.txFifo ++ sent.map encodeWire }
          ghost := { s.ghost with txLog := s.ghost.txLog ++ sent } }

/-- R229 in every state and for free outcomes too: a release ends, the queue is cleared, what goes out are populated
slots in slot order, and only `tx_log`, the controller's transmit queue and the draws change besides; while not
`Running` nothing goes out and nothing is drawn (R264). -/
def Obligations.ReleaseAlwaysEndsAndClears : Prop :=
  ∀ (dlc : Nat) (d1 d2 : Byte) (s : State), ∃ (sent : List Frame) (d : Draws),
    exec (.fcCont dlc d1 d2) s =
        .next
          { s with
            block := { s.block with mfq := List.replicate s.block.mfq.length zeroSlot, release := none }
            draws := d
            link := { s.link with txFifo := s.link.txFifo ++ sent.map encodeWire }
            ghost := { s.ghost with txLog := s.ghost.txLog ++ sent } } ∧
      sent.Sublist ((s.block.mfq.filter fun sl => sl[0] != 0).map slotFrame) ∧
      (s.block.busState ≠ .running → sent = [] ∧ d = s.draws)

/-- R229: a second Flow-Control retransmits nothing; it changes nothing at all. -/
def Obligations.SecondReleaseIsEmpty : Prop :=
  ∀ (dlc dlc' : Nat) (d1 d2 d1' d2' : Byte) (s t : State),
    exec (.fcCont dlc d1 d2) s = .next t → exec (.fcCont dlc' d1' d2') t = .next t

/-- R158, R74: an iteration of the responder taken part by part, with no other agent in between, is the whole iteration,
from wherever inside an iteration it starts. The places inside a `SEND` and a release are the model's choice
(notes/assumptions/17.md). -/
def Obligations.IterationByPartsIsWholeIteration : Prop :=
  ∀ (n : Nat) (s : State), 3 * s.block.mfq.length + 3 ≤ n → iterationByParts n s = respStep s

/-! ## The dispatcher -/

/-- R113: every frame decodes to one of the fifteen rows, and six of the rows do nothing at all. -/
def Obligations.IgnoredClassesDoNothing : Prop :=
  (∀ f : Frame, isFrame f = true → ∃ i m, decodeFrame f = .ok i ∧ i.rxfMnemonic = some m) ∧
    ∀ (s : State) (dlc : Nat) (d0 d1 d2 : Byte) (x : DispatchFields),
      exec (.obdShort dlc d0 d1) s = .next s ∧ exec (.obdM1Unsup dlc d0 d2) s = .next s ∧
        exec (.obdM9Unsup dlc d0 d2) s = .next s ∧ exec (.obdModeUnsup dlc d0 d1 d2) s = .next s ∧
        exec (.fcOther dlc d0 d1 d2) s = .next s ∧ exec (.rxIgnore x) s = .next s

/-- R182: what the responder transmits, and what it is about to transmit, are standard data frames on `0x7E8` with eight
bytes, and none of them is a negative response or a Flow-Control frame: a single frame has length byte 3, 4 or 6 and
reply mode `0x41` or `0x49`, and the others are a First Frame or the Consecutive Frames `0x21` and `0x22`. -/
def Obligations.ResponderTransmitsOnlyResponses : Prop :=
  ∀ s t : State, Inv s → (respStep s = .next t ∨ respPart s = .next t) →
    ∃ sent, t.ghost.txLog = s.ghost.txLog ++ sent ∧
      ∀ f, f ∈ sent ∨ t.block.sending = some (.asked f) ∨ t.block.sending = some (.blocked f) →
        ∃ b0 b1 b2 b3 b4 b5 b6 b7, f = frame7E8 b0 b1 b2 b3 b4 b5 b6 b7 ∧
          (((b0 = 0x03 ∨ b0 = 0x04 ∨ b0 = 0x06) ∧ (b1 = 0x41 ∨ b1 = 0x49)) ∨ b0 = 0x10 ∨ b0 = 0x21 ∨ b0 = 0x22)

/-- The frame of every received-frame operation: nothing but `mfq`, the place in a release, `tx_log`, the controller's
transmit queue and the draws can change, and the first two only by the VIN request and the Flow-Control Continue
(R193, R227, R229). -/
def Obligations.ReceivedFrameOperationsFrame : Prop :=
  ∀ (i : Instr) (s t : State), i.format = .rxf → exec i s = .next t →
    (∃ (m : List Slot) (r : Option Nat) (d : Draws) (q : List WireWord) (l : List Frame),
        t =
          { s with
            block := { s.block with mfq := m, release := r }
            draws := d
            link := { s.link with txFifo := q }
            ghost := { s.ghost with txLog := l } }) ∧
      ((∀ dlc d0, i ≠ .obdM9Pid02 dlc d0) → (∀ dlc d1 d2, i ≠ .fcCont dlc d1 d2) → t.block = s.block)

/-! ## Host commands -/

/-- R130, the success: both control calls are answered `ok`. `result` and the draws are the model's fields
(notes/assumptions/11.md and notes/assumptions/2.md). That a fresh install keeps the controller's two queues
(`link.rxFifo`, `link.txFifo`) is the model's choice and no rule's (notes/assumptions/16.md), and so is that no `Ctrl`
call moves its operating state (`link.opState`, notes/assumptions/29.md). -/
def Obligations.ConfigureStartSucceeds : Prop :=
  ∀ (rate : Rat) (tx rx : Nat) (s : State),
    s.block.ctrlInstalled = false → ctrlDraw 0 s = .ok → ctrlDraw 1 s = .ok →
    exec (.configureStart rate tx rx) s =
      .next
        { s with
          block :=
            { s.block with
              ctrlInstalled := true
              busState := .running
              rxloopActive := true
              cfg := { bitRate := rate, txPin := tx, rxPin := rx } }
          link := { s.link with alertsPending := 0, counters := perCounter 0 }
          draws := drawsAfterCtrl 2 s
          ghost := { s.ghost with ctrlLog := s.ghost.ctrlLog ++ [.install rate tx rx .acceptAll, .start] }
          result := .handle }

/-- R130, R251, R263, the failures: the first that applies is the one error, the block's registers and queues are as
they were, and a controller that was installed and would not start is uninstalled before the error returns. `result` and
the draws are the model's fields (notes/assumptions/11.md and notes/assumptions/2.md). That an install that does not
start keeps the controller's two queues (`link.rxFifo`, `link.txFifo`) is the model's choice and no rule's
(notes/assumptions/16.md), and so is that no `Ctrl` call moves its operating state (`link.opState`,
notes/assumptions/29.md). -/
def Obligations.ConfigureStartFails : Prop :=
  ∀ (rate : Rat) (tx rx : Nat) (s : State),
    (s.block.ctrlInstalled = true →
        exec (.configureStart rate tx rx) s = .next { s with result := .error .controllerInstallFailed }) ∧
      (s.block.ctrlInstalled = false → ctrlDraw 0 s = .fail →
        exec (.configureStart rate tx rx) s =
          .next
            { s with
              draws := drawsAfterCtrl 1 s
              ghost := { s.ghost with ctrlLog := s.ghost.ctrlLog ++ [.install rate tx rx .acceptAll] }
              result := .error .controllerInstallFailed }) ∧
      (s.block.ctrlInstalled = false → ctrlDraw 0 s = .ok → ctrlDraw 1 s = .fail →
        exec (.configureStart rate tx rx) s =
          .next
            { s with
              link := { s.link with alertsPending := 0, counters := perCounter 0 }
              draws := drawsAfterCtrl 3 s
              ghost :=
                { s.ghost with ctrlLog := s.ghost.ctrlLog ++ [.install rate tx rx .acceptAll, .start, .uninstall] }
              result := .error .controllerStartFailed })

/-- R131: `STOP` in any state, and that it is idempotent. `result` and the draws are the model's fields
(notes/assumptions/11.md and notes/assumptions/2.md). That the controller's two queues (`link.rxFifo`, `link.txFifo`)
outlast a `STOP` is the model's choice and no rule's (N27, notes/assumptions/16.md), and so is that no `Ctrl` call moves
its operating state (`link.opState`) or its error counters, and that the alerts still pending stay in the Link, where no
poll returns them (notes/assumptions/29.md). -/
def Obligations.StopHaltsAndIsIdempotent : Prop :=
  (∀ s : State, s.block.ctrlInstalled = true →
      exec .stop s =
        .next
          { s with
            block := { s.block with rxloopActive := false, ctrlInstalled := false, busState := .stopped }
            draws := drawsAfterCtrl 2 s
            ghost := { s.ghost with ctrlLog := s.ghost.ctrlLog ++ [.stop, .uninstall] }
            result := .unit }) ∧
    (∀ s : State, s.block.ctrlInstalled = false →
      exec .stop s =
        .next { s with block := { s.block with rxloopActive := false, busState := .stopped }, result := .unit }) ∧
    ∀ s t : State, exec .stop s = .next t → exec .stop t = .next t

/-- R132, R263: `SEND`. Its own refusals come first and ask nobody; else it ends as the Link draws. `result`, the draws
and the controller's transmit queue are the model's fields (notes/assumptions/11.md and notes/assumptions/2.md,
notes/assumptions/16.md). -/
def Obligations.SendOutcomes : Prop :=
  ∀ (f : Frame) (timeout : Nat) (s : State),
    (f.valid = false ∨ s.block.busState ≠ .running →
        exec (.send f timeout) s = .next { s with result := .error .transmitFailed }) ∧
      (f.valid = true → s.block.busState = .running →
        (sendDraw timeout s = .ok →
            exec (.send f timeout) s =
              .next
                { s with
                  draws := drawsAfterSend timeout s
                  link := { s.link with txFifo := s.link.txFifo ++ [encodeWire f] }
                  ghost := { s.ghost with txLog := s.ghost.txLog ++ [f] }
                  result := .unit }) ∧
          (sendDraw timeout s = .timeout →
            exec (.send f timeout) s =
              .next { s with draws := drawsAfterSend timeout s, result := .error .transmitTimeout }) ∧
          (sendDraw timeout s = .failed →
            exec (.send f timeout) s =
              .next { s with draws := drawsAfterSend timeout s, result := .error .transmitFailed }))

/-- R133: `POLL_RECEIVE`. A delivered word leaves the controller's receive queue (R66); one that spells no Frame gives
nothing. The fate of a word is a draw in the model's field (notes/assumptions/3.md). -/
def Obligations.PollReceiveOutcomes : Prop :=
  ∀ (timeout : Nat) (s : State),
    (s.block.ctrlInstalled = false ∨ s.link.rxFifo = [] →
        exec (.pollReceive timeout) s = .next { s with result := .frame none }) ∧
      ∀ (w : WireWord) (rest : List WireWord), s.block.ctrlInstalled = true → s.link.rxFifo = w :: rest →
        ((drawRecv timeout s).1 = .timeout →
            exec (.pollReceive timeout) s =
              .next { s with draws := (drawRecv timeout s).2.draws, result := .frame none }) ∧
          ((drawRecv timeout s).1 = .deliver →
            exec (.pollReceive timeout) s =
              .next
                { s with
                  draws := (drawRecv timeout s).2.draws
                  link := { s.link with rxFifo := rest }
                  result := .frame (decodeWire w) })

/-- R134: `POLL_ALERTS` reads and clears; a second poll returns the empty set. `result` is the model's field
(notes/assumptions/11.md). -/
def Obligations.PollAlertsReadsAndClears : Prop :=
  (∀ s : State, s.block.ctrlInstalled = true →
      exec .pollAlerts s =
        .next { s with link := { s.link with alertsPending := 0 }, result := .alerts s.link.alertsPending }) ∧
    (∀ s : State, s.block.ctrlInstalled = false → exec .pollAlerts s = .next { s with result := .alerts 0 }) ∧
    ∀ s t : State, exec .pollAlerts s = .next t → exec .pollAlerts t = .next { t with result := .alerts 0 }

/-- R135: `GET_STATUS` changes nothing but what it returns. The record is the one the Link holds, its two queue depths not
tied to the Link's lists (notes/assumptions/13.md and notes/assumptions/16.md). -/
def Obligations.GetStatusReads : Prop :=
  ∀ s : State,
    (s.block.ctrlInstalled = false →
        exec .getStatus s = .next { s with result := .status { state := .stopped, counters := perCounter 0 } }) ∧
      (s.block.ctrlInstalled = true →
        exec .getStatus s = .next { s with result := .status { state := s.block.busState, counters := s.link.counters } })

/-- R276, R277: `DIAG_REPORT` returns the state and the counters that `GET_STATUS` returns, the class of each of the
nine counters, and the callout; it changes nothing else. `result` is the model's field (notes/assumptions/11.md). -/
def Obligations.DiagReportClassifies : Prop :=
  ∀ (s : State) (cls : Nat → Machine.Class), cls 0 = .ok → (∀ c, 1 ≤ c → c ≤ 96 → cls c = .warning) →
    (∀ c, 96 < c → cls c = .critical) →
    ∃ (b : BusStatus) (r : DiagReport),
      exec .getStatus s = .next { s with result := .status b } ∧
        exec .diagReport s = .next { s with result := .report r } ∧
        r.state = b.state ∧ r.counters = b.counters ∧ (r.busOffCallout = true ↔ b.state = .busOff) ∧
        r.classes =
          { txErrorCounter := cls b.counters.txErrorCounter
            rxErrorCounter := cls b.counters.rxErrorCounter
            txQueueDepth := cls b.counters.txQueueDepth
            rxQueueDepth := cls b.counters.rxQueueDepth
            txFailedCount := cls b.counters.txFailedCount
            rxMissedCount := cls b.counters.rxMissedCount
            rxOverrunCount := cls b.counters.rxOverrunCount
            arbLostCount := cls b.counters.arbLostCount
            busErrorCount := cls b.counters.busErrorCount }

/-- R149: `VS_WRITE` replaces one whole field and nothing else; a VIN of another length than 17 has no effect. Above it,
the key/value path ignores an unknown name and writes the number the string spells, 0 for a malformed one. `result` is
the model's field and the parser a free value (notes/assumptions/11.md and notes/assumptions/18.md). -/
def Obligations.VsWriteReplacesOneField : Prop :=
  (∀ (s : State) (v : Signal),
      exec (.vsWrite (.speed v)) s =
          .next { s with block := { s.block with vs := { s.block.vs with speed := v } }, result := .unit } ∧
        exec (.vsWrite (.rpm v)) s =
          .next { s with block := { s.block with vs := { s.block.vs with rpm := v } }, result := .unit } ∧
        exec (.vsWrite (.throttle v)) s =
          .next { s with block := { s.block with vs := { s.block.vs with throttle := v } }, result := .unit } ∧
        exec (.vsWrite (.coolant v)) s =
          .next { s with block := { s.block with vs := { s.block.vs with coolant := v } }, result := .unit } ∧
        exec (.vsWrite (.fuel v)) s =
          .next { s with block := { s.block with vs := { s.block.vs with fuel := v } }, result := .unit }) ∧
    (∀ (s : State) (v : Vector Byte 17),
      exec (.vsWrite (.vin v.toList)) s =
        .next { s with block := { s.block with vs := { s.block.vs with vin := v } }, result := .unit }) ∧
    (∀ (s : State) (v : List Byte), v.length ≠ 17 → exec (.vsWrite (.vin v)) s = .next { s with result := .unit }) ∧
    (∀ (s : State) (key value : String), lookupKey key s.params.vsKeys = none → hostKeyStep key value s = .next s) ∧
    ∀ (s : State) (key value : String) (x : Signal), x = (Config.parseSignal value).getD 0 →
      (lookupKey key s.params.vsKeys = some .speed → hostKeyStep key value s = exec (.vsWrite (.speed x)) s) ∧
        (lookupKey key s.params.vsKeys = some .rpm → hostKeyStep key value s = exec (.vsWrite (.rpm x)) s) ∧
        (lookupKey key s.params.vsKeys = some .throttle → hostKeyStep key value s = exec (.vsWrite (.throttle x)) s) ∧
        (lookupKey key s.params.vsKeys = some .coolant → hostKeyStep key value s = exec (.vsWrite (.coolant x)) s) ∧
        (lookupKey key s.params.vsKeys = some .fuel → hostKeyStep key value s = exec (.vsWrite (.fuel x)) s) ∧
        (lookupKey key s.params.vsKeys = some .vin →
          hostKeyStep key value s = exec (.vsWrite (.vin (Config.vinBytes value))) s)

/-! ## Alerts, bus-off and recovery -/

/-- R151, R264: the handler of `BUS_OFF`, with `s0` the latched bus state. The result of the recovery request changes
nothing (R155). The latch and the draws are the model's fields (notes/assumptions/8.md and notes/assumptions/2.md). That the
recovery request moves nothing in the controller is the model's choice and no rule's (notes/assumptions/16.md and
notes/assumptions/29.md). -/
def Obligations.BusOffEntry : Prop :=
  ∀ (a : AlertWord) (s : State),
    (a.testBit 0 = true → s.block.polledState = .running →
        exec (.alertBusOff a) s =
          .next
            { s with
              block := { s.block with busState := .busOff }
              draws := drawsAfterCtrl 1 s
              ghost :=
                { s.ghost with
                  ctrlLog := s.ghost.ctrlLog ++ [.initiateRecovery]
                  recoveryCalls := s.ghost.recoveryCalls + 1 } }) ∧
      (a.testBit 0 = false ∨ s.block.polledState ≠ .running → exec (.alertBusOff a) s = .next s)

/-- R152, R156, R266: the handler of `BUS_RECOVERED`. A restart that fails leaves `Recovering`. The latch and the draws
are the model's fields (notes/assumptions/8.md and notes/assumptions/2.md). That the restart moves nothing in the
controller is the model's choice and no rule's (notes/assumptions/16.md and notes/assumptions/29.md). -/
def Obligations.BusRecoveredRestart : Prop :=
  ∀ (a : AlertWord) (s : State),
    (a.testBit 1 = true → s.block.polledState = .busOff →
        exec (.alertBusRecovered a) s =
          .next
            { s with
              block := { s.block with busState := if ctrlDraw 0 s = .ok then .running else .recovering }
              draws := drawsAfterCtrl 1 s
              ghost :=
                { s.ghost with
                  ctrlLog := s.ghost.ctrlLog ++ [.start]
                  restartCalls := s.ghost.restartCalls + 1 } }) ∧
      (a.testBit 1 = false ∨ s.block.polledState ≠ .busOff → exec (.alertBusRecovered a) s = .next s)

/-- R153: one alert word causes at most one transition: with both bits set it acts as `BUS_OFF` in `Running`, as
`BUS_RECOVERED` in `BusOff`, and as nothing elsewhere; other bits have no effect. (`polledState`, the model's home of
`s0`, is written first.) The latch is the model's field (notes/assumptions/8.md). -/
def Obligations.OneAlertWordOneTransition : Prop :=
  ∀ (a : AlertWord) (s : State),
    (a.testBit 0 = true → s.block.busState = .running →
        handlerStep a s = exec (.alertBusOff a) (latchState s)) ∧
      (a.testBit 1 = true → s.block.busState = .busOff →
        handlerStep a s = exec (.alertBusRecovered a) (latchState s)) ∧
      (¬(a.testBit 0 = true ∧ s.block.busState = .running) → ¬(a.testBit 1 = true ∧ s.block.busState = .busOff) →
        handlerStep a s = .next (latchState s))

/-- R157, R30: an iteration of the receive loop in which a frame arrives. Below ten frames it takes the tail of the
queue; at ten it is lost and counted, and the queue stays as it was. The fate of a word is a draw in the model's field
(notes/assumptions/3.md). -/
def Obligations.ReceiveLoopEnqueuesOrDrops : Prop :=
  ∀ (s : State) (w : WireWord) (f : Frame) (rest : List WireWord) (more : List RecvOutcome),
    s.block.rxloopActive = true → s.block.ctrlInstalled = true → s.link.rxFifo = w :: rest →
    decodeWire w = some f → s.draws.recv = .deliver :: more →
    ∃ t, runEvent .rxloop s = .next t ∧ t.link.rxFifo = rest ∧ t.draws.recv = more ∧
      (s.block.rxq.length < 10 → t.block.rxq = s.block.rxq ++ [f] ∧ t.ghost.rxDropped = s.ghost.rxDropped) ∧
      (10 ≤ s.block.rxq.length → t.block.rxq = s.block.rxq ∧ t.ghost.rxDropped = s.ghost.rxDropped + 1)

/-- R261: every iteration of the receive loop polls and handles the alerts, whether or not a frame came and whether or
not the queue was full. -/
def Obligations.ReceiveLoopAlwaysPollsAlerts : Prop :=
  ∀ s : State, s.block.rxloopActive = true → s.block.ctrlInstalled = true →
    ∃ t, runEvent .rxloop s = .next t ∧ t.link.alertsPending = 0 ∧ t.block.rxloopActive = true ∧
      t.block.ctrlInstalled = true ∧ t.block.mfq = s.block.mfq ∧ t.block.vs = s.block.vs ∧ t.block.cfg = s.block.cfg ∧
      t.ghost.txLog = s.ghost.txLog ∧
      (s.link.alertsPending.testBit 0 = true → s.block.busState = .running →
        t.block.busState = .busOff ∧ t.ghost.ctrlLog = s.ghost.ctrlLog ++ [.initiateRecovery]) ∧
      (s.link.alertsPending.testBit 1 = true → s.block.busState = .busOff →
        (t.block.busState = .running ∨ t.block.busState = .recovering) ∧
          t.ghost.ctrlLog = s.ghost.ctrlLog ++ [.start]) ∧
      (¬(s.link.alertsPending.testBit 0 = true ∧ s.block.busState = .running) →
        ¬(s.link.alertsPending.testBit 1 = true ∧ s.block.busState = .busOff) →
        t.block.busState = s.block.busState ∧ t.ghost.ctrlLog = s.ghost.ctrlLog)

/-! ## The whole machine -/

/-- R281: the values the spec gives for reset. `VS_INIT` is a free value (notes/assumptions/15.md). -/
def Obligations.ResetValues : Prop :=
  State.reset.block.busState = .stopped ∧ State.reset.block.ctrlInstalled = false ∧
    State.reset.block.rxloopActive = false ∧ State.reset.block.rxq = [] ∧
    State.reset.block.mfq.length = Config.params.mfSlots ∧ (∀ sl ∈ State.reset.block.mfq, sl = zeroSlot) ∧
    State.reset.link.alertsPending = 0 ∧ State.reset.block.vs = Config.vsInit ∧ State.reset.ghost.txLog = [] ∧
    State.reset.ghost.ctrlLog = [] ∧ State.reset.ghost.recoveryCalls = 0 ∧ State.reset.ghost.restartCalls = 0 ∧
    State.reset.ghost.rxDropped = 0

/-- The invariant holds after reset. -/
def Obligations.ResetMeetsInvariant : Prop := Inv State.reset

/-- R26, R27, R30, R31, R182, R233: the invariant is kept by every step, whatever the Link, the host and the scheduler do. -/
def Obligations.StepKeepsInvariant : Prop := ∀ s t : State, Inv s → step s = .next t → Inv t

/-- The transitions of `bus_state` (R150, R154), complete: a step that changes it is one of these. Alerts reach the block
only when the receive loop polls (R260): but for `CONFIGURE_START` and `STOP`, the bus state, the recovery calls and the
restart calls change only in an iteration of the active receive loop, on an alert pending in an installed controller. -/
def Obligations.BusStateTransitionsAreComplete : Prop :=
  (∀ s t : State, Inv s → step s = .next t → t.block.busState ≠ s.block.busState →
      (s.block.busState = .stopped ∧ t.block.busState = .running ∧
          ∃ rate tx rx, isCommand (nextEvent s).1 (.configureStart rate tx rx)) ∨
        (s.block.busState = .running ∧ t.block.busState = .busOff ∧
          (nextEvent s).1 = .rxloop ∧ s.link.alertsPending.testBit 0 = true ∧
          t.ghost.ctrlLog = s.ghost.ctrlLog ++ [.initiateRecovery]) ∨
        (s.block.busState = .busOff ∧ (t.block.busState = .running ∨ t.block.busState = .recovering) ∧
          (nextEvent s).1 = .rxloop ∧ s.link.alertsPending.testBit 1 = true ∧
          t.ghost.ctrlLog = s.ghost.ctrlLog ++ [.start]) ∨
        (t.block.busState = .stopped ∧ isCommand (nextEvent s).1 .stop)) ∧
    ∀ s t : State, step s = .next t →
      (t.ghost.recoveryCalls ≠ s.ghost.recoveryCalls ∨ t.ghost.restartCalls ≠ s.ghost.restartCalls) →
      (nextEvent s).1 = .rxloop ∧ s.block.rxloopActive = true ∧ s.block.ctrlInstalled = true ∧
        (s.link.alertsPending.testBit 0 = true ∨ s.link.alertsPending.testBit 1 = true)

/-- R156, R298: after a failed restart only `STOP` leaves `Recovering`, and until then no `SEND` gets past its tests; one
that was blocked before may still end in success (R265). -/
def Obligations.RecoveringIsLeftOnlyByStop : Prop :=
  ∀ s t : State, Inv s → s.block.busState = .recovering → step s = .next t →
    (t.block.busState = .recovering ∨ (t.block.busState = .stopped ∧ isCommand (nextEvent s).1 .stop)) ∧
      (∀ f, t.block.sending = some (.blocked f) → s.block.sending = some (.blocked f)) ∧
      (t.ghost.txLog = s.ghost.txLog ∨
        ∃ f, s.block.sending = some (.blocked f) ∧ t.block.sending = none ∧ t.ghost.txLog = s.ghost.txLog ++ [f])

/-- R132, R264, R265: outside `Running` no `SEND` gets past its tests, and a step transmits nothing, but for the end of a
`SEND` that was blocked already. -/
def Obligations.NoSendBeginsUnlessRunning : Prop :=
  ∀ s t : State, s.block.busState ≠ .running → step s = .next t →
    (∀ f, t.block.sending = some (.blocked f) → s.block.sending = some (.blocked f)) ∧
      ((t.ghost.txLog = s.ghost.txLog ∧ ∀ w ∈ t.link.txFifo, w ∈ s.link.txFifo) ∨
        ∃ f, s.block.sending = some (.blocked f) ∧ t.block.sending = none ∧
          ((nextEvent s).1 = .resp ∨ (nextEvent s).1 = .respPart) ∧ t.ghost.txLog = s.ghost.txLog ++ [f] ∧
          t.link.txFifo = s.link.txFifo ++ [encodeWire f])

/-- R24: only `VS_WRITE` changes the Vehicle State. -/
def Obligations.OnlyVsWriteChangesVehicleState : Prop :=
  ∀ s t : State, step s = .next t → t.block.vs ≠ s.block.vs → writesVehicleState (nextEvent s).1

/-- R31, R274: only the responder touches the pending queue. -/
def Obligations.OnlyResponderTouchesPendingQueue : Prop :=
  ∀ s t : State, step s = .next t → t.block.mfq ≠ s.block.mfq →
    (nextEvent s).1 = .resp ∨ (nextEvent s).1 = .respPart

/-- R70, R30: the receive queue is first-in first-out: a step leaves it, or the responder takes its head, or the receive
loop adds one frame at its tail. -/
def Obligations.ReceiveQueueIsFirstInFirstOut : Prop :=
  ∀ s t : State, step s = .next t →
    t.block.rxq = s.block.rxq ∨
      (((nextEvent s).1 = .resp ∨ (nextEvent s).1 = .respPart) ∧ ∃ f, s.block.rxq = f :: t.block.rxq) ∨
      ((nextEvent s).1 = .rxloop ∧ s.block.rxloopActive = true ∧ s.block.rxq.length < 10 ∧
        ∃ f, isFrame f = true ∧ t.block.rxq = s.block.rxq ++ [f])

/-- R254: every agent can always take its next step: a step ends in a next state unless the host's bytes spell no
command, or a call that R306 assumes never to happen. The two refusals are DEDUCED (notes/assumptions/5.md and
notes/assumptions/10.md). -/
def Obligations.EveryAgentCanAlwaysStep : Prop :=
  ∀ s : State, Inv s →
    (∀ bytes, (nextEvent s).1 = .host bytes →
      ∃ i, decode (.cmd bytes) = .ok i ∧ (isLoopCall i = true → s.block.rxloopActive = false)) →
    ∃ t, step s = .next t

/-- R116: a command code `0x08` to `0xFF` is refused by name, whatever follows it. (notes/assumptions/5.md) -/
def Obligations.ReservedCommandsAreRefused : Prop :=
  ∀ (s : State) (code : Byte) (operands : List Byte), 8 ≤ code.toNat →
    runEvent (.host (code :: operands)) s = .refused (.noOperation (.reservedCommand code))

/-- R34, R40: the logs only grow, the counts never fall, and the parameters are fixed for a run. -/
def Obligations.LogsGrowAndParametersStay : Prop :=
  ∀ s t : State, step s = .next t →
    s.ghost.txLog <+: t.ghost.txLog ∧ s.ghost.ctrlLog <+: t.ghost.ctrlLog ∧
      s.ghost.recoveryCalls ≤ t.ghost.recoveryCalls ∧ s.ghost.restartCalls ≤ t.ghost.restartCalls ∧
      s.ghost.rxDropped ≤ t.ghost.rxDropped ∧ t.params = s.params

/-- R28: while a controller stays installed the five event counters never decrease; the four gauges may become anything
that `CTR_W` bits hold, or anything at all where `CTR_W` gives no width (R8, R27). The counters are held in the Link
(notes/assumptions/13.md). -/
def Obligations.EventCountersNeverFall : Prop :=
  (∀ s t : State, step s = .next t → s.block.ctrlInstalled = true → t.block.ctrlInstalled = true →
      s.link.counters.txFailedCount ≤ t.link.counters.txFailedCount ∧
        s.link.counters.rxMissedCount ≤ t.link.counters.rxMissedCount ∧
        s.link.counters.rxOverrunCount ≤ t.link.counters.rxOverrunCount ∧
        s.link.counters.arbLostCount ≤ t.link.counters.arbLostCount ∧
        s.link.counters.busErrorCount ≤ t.link.counters.busErrorCount) ∧
    ∀ (s : State) (c : Counters),
      (∀ w, s.params.ctrW = some w →
        c.txErrorCounter < 2 ^ w ∧ c.rxErrorCounter < 2 ^ w ∧ c.txQueueDepth < 2 ^ w ∧ c.rxQueueDepth < 2 ^ w ∧
          c.txFailedCount < 2 ^ w ∧ c.rxMissedCount < 2 ^ w ∧ c.rxOverrunCount < 2 ^ w ∧ c.arbLostCount < 2 ^ w ∧
          c.busErrorCount < 2 ^ w) →
      ∃ t, runEvent (.linkCounters c) s = .next t ∧
        t.link.counters.txErrorCounter = c.txErrorCounter ∧ t.link.counters.rxErrorCounter = c.rxErrorCounter ∧
        t.link.counters.txQueueDepth = c.txQueueDepth ∧ t.link.counters.rxQueueDepth = c.rxQueueDepth

/-- R305: in a quiescent state, with nothing waiting in the controller, neither loop changes anything (the receive loop
writes the model's own latch `polledState`, notes/assumptions/8.md). -/
def Obligations.QuiescentLoopsChangeNothing : Prop :=
  ∀ s : State, Quiescent s → s.link.rxFifo = [] →
    runEvent .resp s = .next s ∧ runEvent .respPart s = .next s ∧
      runEvent .rxloop s = .next (if s.block.rxloopActive then latchState s else s)

/-- R306, U19: the host's `SEND`, `POLL_RECEIVE` and `POLL_ALERTS` while the loops run are no move, refused by name; every
other command, and these three while the loops do not run, is run. That "while the loops run" is `rxloop_active = 1` is
DEDUCED (notes/assumptions/10.md). -/
def Obligations.LoopCallsAreRefusedWhileLoopsRun : Prop :=
  ∀ (s : State) (bytes : List Byte) (i : Instr), decode (.cmd bytes) = .ok i →
    ((i = .pollAlerts ∨ (∃ timeout, i = .pollReceive timeout) ∨ ∃ f timeout, i = .send f timeout) →
        s.block.rxloopActive = true → runEvent (.host bytes) s = .refused .hostCallWhileLoopsRun) ∧
      (s.block.rxloopActive = false ∨
          (i ≠ .pollAlerts ∧ (∀ timeout, i ≠ .pollReceive timeout) ∧ ∀ f timeout, i ≠ .send f timeout) →
        runEvent (.host bytes) s = exec i s)

/-- R265, R131, R74: a response on its way out is the responder's alone: no step of another agent, the entry into
`BusOff` and a `STOP` among them, cancels it. Its `SEND` begins by the tests of R132, the bus state as it is then; once
blocked it ends as the Link draws, whatever the bus state has become. The place inside a `SEND` and the controller's
transmit queue are the model's fields (notes/assumptions/17.md and notes/assumptions/16.md). -/
def Obligations.BlockedSendEndsAsDrawn : Prop :=
  (∀ s t : State, step s = .next t → t.block.sending ≠ s.block.sending →
      (nextEvent s).1 = .resp ∨ (nextEvent s).1 = .respPart) ∧
    (∀ (s : State) (f : Frame), s.block.sending = some (.asked f) →
      (f.valid = true → s.block.busState = .running →
          runEvent .respPart s = .next { s with block := { s.block with sending := some (.blocked f) } }) ∧
        (f.valid = false ∨ s.block.busState ≠ .running →
          runEvent .respPart s = .next { s with block := { s.block with sending := none } })) ∧
    ∀ (s : State) (f : Frame), s.block.sending = some (.blocked f) →
      (s.block.release = none → runEvent .resp s = runEvent .respPart s) ∧
        (sendDraw s.params.tSend s = .ok →
          runEvent .respPart s =
            .next
              { s with
                block := { s.block with sending := none }
                draws := drawsAfterSend s.params.tSend s
                link := { s.link with txFifo := s.link.txFifo ++ [encodeWire f] }
                ghost := { s.ghost with txLog := s.ghost.txLog ++ [f] } }) ∧
        (sendDraw s.params.tSend s ≠ .ok →
          runEvent .respPart s =
            .next
              { s with
                block := { s.block with sending := none }
                draws := drawsAfterSend s.params.tSend s })
end

