-- ==== Sys2Proof/Laws/State.lean ====
section
/-! SUPPORT. What each plain update of the state does to each field of it, by definition. -/

namespace Sys2Proof.Machine

@[simp] theorem returns_block (r : Result) (s : State) : (returns r s).block = s.block := rfl
@[simp] theorem returns_link (r : Result) (s : State) : (returns r s).link = s.link := rfl
@[simp] theorem returns_draws (r : Result) (s : State) : (returns r s).draws = s.draws := rfl
@[simp] theorem returns_ghost (r : Result) (s : State) : (returns r s).ghost = s.ghost := rfl
@[simp] theorem returns_result (r : Result) (s : State) : (returns r s).result = r := rfl
@[simp] theorem returns_script (r : Result) (s : State) : (returns r s).script = s.script := rfl
@[simp] theorem returns_turn (r : Result) (s : State) : (returns r s).turn = s.turn := rfl
@[simp] theorem returns_params (r : Result) (s : State) : (returns r s).params = s.params := rfl

@[simp] theorem raise_block (e : Error) (s : State) : (raise e s).block = s.block := rfl
@[simp] theorem raise_link (e : Error) (s : State) : (raise e s).link = s.link := rfl
@[simp] theorem raise_draws (e : Error) (s : State) : (raise e s).draws = s.draws := rfl
@[simp] theorem raise_ghost (e : Error) (s : State) : (raise e s).ghost = s.ghost := rfl
@[simp] theorem raise_result (e : Error) (s : State) : (raise e s).result = .error e := rfl
@[simp] theorem raise_script (e : Error) (s : State) : (raise e s).script = s.script := rfl
@[simp] theorem raise_turn (e : Error) (s : State) : (raise e s).turn = s.turn := rfl
@[simp] theorem raise_params (e : Error) (s : State) : (raise e s).params = s.params := rfl

@[simp] theorem setRxq_block (q : List Frame) (s : State) : (setRxq q s).block = { s.block with rxq := q } := rfl
@[simp] theorem setRxq_link (q : List Frame) (s : State) : (setRxq q s).link = s.link := rfl
@[simp] theorem setRxq_draws (q : List Frame) (s : State) : (setRxq q s).draws = s.draws := rfl
@[simp] theorem setRxq_ghost (q : List Frame) (s : State) : (setRxq q s).ghost = s.ghost := rfl
@[simp] theorem setRxq_result (q : List Frame) (s : State) : (setRxq q s).result = s.result := rfl
@[simp] theorem setRxq_script (q : List Frame) (s : State) : (setRxq q s).script = s.script := rfl
@[simp] theorem setRxq_turn (q : List Frame) (s : State) : (setRxq q s).turn = s.turn := rfl
@[simp] theorem setRxq_params (q : List Frame) (s : State) : (setRxq q s).params = s.params := rfl

@[simp] theorem setSlots_block (q : List Slot) (s : State) : (setSlots q s).block = { s.block with mfq := q } := rfl
@[simp] theorem setSlots_link (q : List Slot) (s : State) : (setSlots q s).link = s.link := rfl
@[simp] theorem setSlots_draws (q : List Slot) (s : State) : (setSlots q s).draws = s.draws := rfl
@[simp] theorem setSlots_ghost (q : List Slot) (s : State) : (setSlots q s).ghost = s.ghost := rfl
@[simp] theorem setSlots_result (q : List Slot) (s : State) : (setSlots q s).result = s.result := rfl
@[simp] theorem setSlots_script (q : List Slot) (s : State) : (setSlots q s).script = s.script := rfl
@[simp] theorem setSlots_turn (q : List Slot) (s : State) : (setSlots q s).turn = s.turn := rfl
@[simp] theorem setSlots_params (q : List Slot) (s : State) : (setSlots q s).params = s.params := rfl

@[simp] theorem latchState_block (s : State) :
    (latchState s).block = { s.block with polledState := s.block.busState } := rfl
@[simp] theorem latchState_link (s : State) : (latchState s).link = s.link := rfl
@[simp] theorem latchState_draws (s : State) : (latchState s).draws = s.draws := rfl
@[simp] theorem latchState_ghost (s : State) : (latchState s).ghost = s.ghost := rfl
@[simp] theorem latchState_result (s : State) : (latchState s).result = s.result := rfl
@[simp] theorem latchState_script (s : State) : (latchState s).script = s.script := rfl
@[simp] theorem latchState_turn (s : State) : (latchState s).turn = s.turn := rfl
@[simp] theorem latchState_params (s : State) : (latchState s).params = s.params := rfl

@[simp] theorem acceptFrame_block (f : Frame) (s : State) : (acceptFrame f s).block = s.block := rfl
@[simp] theorem acceptFrame_link (f : Frame) (s : State) :
    (acceptFrame f s).link = { s.link with txFifo := s.link.txFifo ++ [encodeWire f] } := rfl
@[simp] theorem acceptFrame_draws (f : Frame) (s : State) : (acceptFrame f s).draws = s.draws := rfl
@[simp] theorem acceptFrame_ghost (f : Frame) (s : State) :
    (acceptFrame f s).ghost = { s.ghost with txLog := s.ghost.txLog ++ [f] } := rfl
@[simp] theorem acceptFrame_result (f : Frame) (s : State) : (acceptFrame f s).result = s.result := rfl
@[simp] theorem acceptFrame_script (f : Frame) (s : State) : (acceptFrame f s).script = s.script := rfl
@[simp] theorem acceptFrame_turn (f : Frame) (s : State) : (acceptFrame f s).turn = s.turn := rfl
@[simp] theorem acceptFrame_params (f : Frame) (s : State) : (acceptFrame f s).params = s.params := rfl

@[simp] theorem markInstalled_block (s : State) :
    (markInstalled s).block = { s.block with ctrlInstalled := true } := rfl
@[simp] theorem markInstalled_link (s : State) :
    (markInstalled s).link = { s.link with alertsPending := 0, counters := perCounter 0 } := rfl
@[simp] theorem markInstalled_draws (s : State) : (markInstalled s).draws = s.draws := rfl
@[simp] theorem markInstalled_ghost (s : State) : (markInstalled s).ghost = s.ghost := rfl
@[simp] theorem markInstalled_result (s : State) : (markInstalled s).result = s.result := rfl
@[simp] theorem markInstalled_script (s : State) : (markInstalled s).script = s.script := rfl
@[simp] theorem markInstalled_turn (s : State) : (markInstalled s).turn = s.turn := rfl
@[simp] theorem markInstalled_params (s : State) : (markInstalled s).params = s.params := rfl

@[simp] theorem markStarted_block (rate : Rat) (tx rx : Nat) (s : State) :
    (markStarted rate tx rx s).block = { s.block with cfg := ⟨rate, tx, rx⟩, busState := .running, rxloopActive := true } := rfl
@[simp] theorem markStarted_link (rate : Rat) (tx rx : Nat) (s : State) :
    (markStarted rate tx rx s).link = s.link := rfl
@[simp] theorem markStarted_draws (rate : Rat) (tx rx : Nat) (s : State) :
    (markStarted rate tx rx s).draws = s.draws := rfl
@[simp] theorem markStarted_ghost (rate : Rat) (tx rx : Nat) (s : State) :
    (markStarted rate tx rx s).ghost = s.ghost := rfl
@[simp] theorem markStarted_result (rate : Rat) (tx rx : Nat) (s : State) :
    (markStarted rate tx rx s).result = s.result := rfl
@[simp] theorem markStarted_script (rate : Rat) (tx rx : Nat) (s : State) :
    (markStarted rate tx rx s).script = s.script := rfl
@[simp] theorem markStarted_turn (rate : Rat) (tx rx : Nat) (s : State) :
    (markStarted rate tx rx s).turn = s.turn := rfl
@[simp] theorem markStarted_params (rate : Rat) (tx rx : Nat) (s : State) :
    (markStarted rate tx rx s).params = s.params := rfl

@[simp] theorem endRelease_block (s : State) :
    (endRelease s).block = { s.block with mfq := clearSlots s.block.mfq, release := none } := rfl
@[simp] theorem endRelease_link (s : State) : (endRelease s).link = s.link := rfl
@[simp] theorem endRelease_draws (s : State) : (endRelease s).draws = s.draws := rfl
@[simp] theorem endRelease_ghost (s : State) : (endRelease s).ghost = s.ghost := rfl
@[simp] theorem endRelease_result (s : State) : (endRelease s).result = s.result := rfl
@[simp] theorem endRelease_script (s : State) : (endRelease s).script = s.script := rfl
@[simp] theorem endRelease_turn (s : State) : (endRelease s).turn = s.turn := rfl
@[simp] theorem endRelease_params (s : State) : (endRelease s).params = s.params := rfl

@[simp] theorem setSending_block (x : Option Sending) (s : State) :
    (setSending x s).block = { s.block with sending := x } := rfl
@[simp] theorem setSending_link (x : Option Sending) (s : State) : (setSending x s).link = s.link := rfl
@[simp] theorem setSending_draws (x : Option Sending) (s : State) : (setSending x s).draws = s.draws := rfl
@[simp] theorem setSending_ghost (x : Option Sending) (s : State) : (setSending x s).ghost = s.ghost := rfl
@[simp] theorem setSending_result (x : Option Sending) (s : State) : (setSending x s).result = s.result := rfl
@[simp] theorem setSending_script (x : Option Sending) (s : State) : (setSending x s).script = s.script := rfl
@[simp] theorem setSending_turn (x : Option Sending) (s : State) : (setSending x s).turn = s.turn := rfl
@[simp] theorem setSending_params (x : Option Sending) (s : State) : (setSending x s).params = s.params := rfl

@[simp] theorem setRelease_block (i : Option Nat) (s : State) :
    (setRelease i s).block = { s.block with release := i } := rfl
@[simp] theorem setRelease_link (i : Option Nat) (s : State) : (setRelease i s).link = s.link := rfl
@[simp] theorem setRelease_draws (i : Option Nat) (s : State) : (setRelease i s).draws = s.draws := rfl
@[simp] theorem setRelease_ghost (i : Option Nat) (s : State) : (setRelease i s).ghost = s.ghost := rfl
@[simp] theorem setRelease_result (i : Option Nat) (s : State) : (setRelease i s).result = s.result := rfl
@[simp] theorem setRelease_script (i : Option Nat) (s : State) : (setRelease i s).script = s.script := rfl
@[simp] theorem setRelease_turn (i : Option Nat) (s : State) : (setRelease i s).turn = s.turn := rfl
@[simp] theorem setRelease_params (i : Option Nat) (s : State) : (setRelease i s).params = s.params := rfl

@[simp] theorem askSend_eq (f : Frame) (s : State) : askSend f s = setSending (some (.asked f)) s := rfl
@[simp] theorem beginFcCont_eq (s : State) : beginFcCont s = setRelease (some 0) s := rfl

@[simp] theorem loadProgram_block (p : List Event) (s : State) : (loadProgram p s).block = s.block := rfl
@[simp] theorem loadProgram_link (p : List Event) (s : State) : (loadProgram p s).link = s.link := rfl
@[simp] theorem loadProgram_draws (p : List Event) (s : State) :
    (loadProgram p s).draws = { s.draws with unfixed := .ok } := rfl
@[simp] theorem loadProgram_ghost (p : List Event) (s : State) : (loadProgram p s).ghost = s.ghost := rfl
@[simp] theorem loadProgram_result (p : List Event) (s : State) : (loadProgram p s).result = s.result := rfl
@[simp] theorem loadProgram_script (p : List Event) (s : State) : (loadProgram p s).script = p := rfl
@[simp] theorem loadProgram_turn (p : List Event) (s : State) : (loadProgram p s).turn = s.turn := rfl
@[simp] theorem loadProgram_params (p : List Event) (s : State) : (loadProgram p s).params = s.params := rfl

/-- Counters at zero fit any width. -/
theorem fitsCounters_zero (p : Params) : fitsCounters p (perCounter 0) = true := by
  have h : fitsWidth p 0 = true := by
    unfold fitsWidth
    split <;> simp
  simp [fitsCounters, perCounter, h]

/-- An advance of counters that fit to counters that fit gives counters that fit: nothing wraps. -/
theorem fitsCounters_advance (p : Params) (a b : Counters) (ha : fitsCounters p a = true) (hb : fitsCounters p b = true) :
    fitsCounters p (advanceCounters a b) = true := by
  have h : ∀ x y, fitsWidth p x = true → fitsWidth p y = true → fitsWidth p (max x y) = true := by
    intro x y hx hy
    rcases max_choice x y with e | e <;> rw [e] <;> assumption
  simp only [fitsCounters, advanceCounters, Bool.and_eq_true] at *
  simp [*]

/-- A report that `CTR_W` can hold advances the counters; there is no other (R28). -/
theorem linkReports_cases (c : Counters) (s : State) :
    (fitsCounters s.params c = true ∧
        linkReports c s = { s with link := { s.link with counters := advanceCounters s.link.counters c } }) ∨
      (fitsCounters s.params c = false ∧ linkReports c s = s) := by
  unfold linkReports
  cases fitsCounters s.params c <;> simp

@[simp] theorem linkMoves_block (q : List WireWord) (op : Nat) (s : State) : (linkMoves q op s).block = s.block := rfl
@[simp] theorem linkMoves_link (q : List WireWord) (op : Nat) (s : State) :
    (linkMoves q op s).link = { s.link with rxFifo := q, opState := op } := rfl
@[simp] theorem linkMoves_draws (q : List WireWord) (op : Nat) (s : State) : (linkMoves q op s).draws = s.draws := rfl
@[simp] theorem linkMoves_ghost (q : List WireWord) (op : Nat) (s : State) : (linkMoves q op s).ghost = s.ghost := rfl
@[simp] theorem linkMoves_result (q : List WireWord) (op : Nat) (s : State) :
    (linkMoves q op s).result = s.result := rfl
@[simp] theorem linkMoves_script (q : List WireWord) (op : Nat) (s : State) :
    (linkMoves q op s).script = s.script := rfl
@[simp] theorem linkMoves_turn (q : List WireWord) (op : Nat) (s : State) : (linkMoves q op s).turn = s.turn := rfl
@[simp] theorem linkMoves_params (q : List WireWord) (op : Nat) (s : State) :
    (linkMoves q op s).params = s.params := rfl

@[simp] theorem linkTransmitted_block (s : State) : (linkTransmitted s).block = s.block := rfl
@[simp] theorem linkTransmitted_link (s : State) :
    (linkTransmitted s).link = { s.link with txFifo := s.link.txFifo.drop 1 } := rfl
@[simp] theorem linkTransmitted_draws (s : State) : (linkTransmitted s).draws = s.draws := rfl
@[simp] theorem linkTransmitted_ghost (s : State) : (linkTransmitted s).ghost = s.ghost := rfl
@[simp] theorem linkTransmitted_result (s : State) : (linkTransmitted s).result = s.result := rfl
@[simp] theorem linkTransmitted_script (s : State) : (linkTransmitted s).script = s.script := rfl
@[simp] theorem linkTransmitted_turn (s : State) : (linkTransmitted s).turn = s.turn := rfl
@[simp] theorem linkTransmitted_params (s : State) : (linkTransmitted s).params = s.params := rfl

end Sys2Proof.Machine
end

