-- ==== Sys2Proof/Laws/Draws.lean ====
section
/-! SUPPORT. The Link's draws change the draws and nothing else, and depend on nothing but the draws and the Link's
operating state. -/

namespace Sys2Proof.Machine

theorem drawSend_state (timeout : Nat) (s : State) :
    (drawSend timeout s).2 = { s with draws := drawsAfterSend timeout s } := by
  unfold drawsAfterSend drawSend
  repeat' split
  all_goals rfl

theorem drawCtrl_state (s : State) : (drawCtrl s).2 = { s with draws := drawsAfterCtrl 1 s } := by
  simp only [drawsAfterCtrl]
  unfold drawCtrl
  repeat' split
  all_goals rfl

theorem drawRecv_state (timeout : Nat) (s : State) :
    (drawRecv timeout s).2 = { s with draws := (drawRecv timeout s).2.draws } := by
  unfold drawRecv
  split <;> rfl

/-- Two states with the same draws and the same operating state of the Link draw alike. -/
theorem drawSend_congr {s t : State} (timeout : Nat) (hd : s.draws = t.draws) (ho : s.link.opState = t.link.opState) :
    sendDraw timeout s = sendDraw timeout t ∧ drawsAfterSend timeout s = drawsAfterSend timeout t := by
  unfold sendDraw drawsAfterSend drawSend
  rw [hd, ho]
  constructor <;> repeat' split
  all_goals first | rfl | exact hd

theorem drawCtrl_congr {s t : State} (hd : s.draws = t.draws) (ho : s.link.opState = t.link.opState) :
    (drawCtrl s).1 = (drawCtrl t).1 ∧ (drawCtrl s).2.draws = (drawCtrl t).2.draws := by
  unfold drawCtrl
  rw [hd, ho]
  constructor <;> repeat' split
  all_goals first | rfl | exact hd

theorem ctrlDraw_congr (k : Nat) {s t : State} (hd : s.draws = t.draws) (ho : s.link.opState = t.link.opState) :
    ctrlDraw k s = ctrlDraw k t := by
  induction k generalizing s t with
  | zero => exact (drawCtrl_congr hd ho).1
  | succ k ih => exact ih (drawCtrl_congr hd ho).2 (by rw [drawCtrl_state, drawCtrl_state]; exact ho)

theorem drawsAfterCtrl_congr (n : Nat) {s t : State} (hd : s.draws = t.draws)
    (ho : s.link.opState = t.link.opState) : drawsAfterCtrl n s = drawsAfterCtrl n t := by
  induction n generalizing s t with
  | zero => exact hd
  | succ n ih => exact ih (drawCtrl_congr hd ho).2 (by rw [drawCtrl_state, drawCtrl_state]; exact ho)

/-- A state that has made `n` more `Ctrl` draws than `s` draws next what `s` draws after those. -/
theorem ctrlDraw_after {s t : State} (n k : Nat) (hd : t.draws = drawsAfterCtrl n s)
    (ho : t.link.opState = s.link.opState) : ctrlDraw k t = ctrlDraw (n + k) s := by
  induction n generalizing s with
  | zero => rw [Nat.zero_add]; exact ctrlDraw_congr k hd ho
  | succ n ih => rw [Nat.succ_add]; exact ih hd (by rw [drawCtrl_state]; exact ho)

theorem drawsAfterCtrl_after {s t : State} (n m : Nat) (hd : t.draws = drawsAfterCtrl n s)
    (ho : t.link.opState = s.link.opState) : drawsAfterCtrl m t = drawsAfterCtrl (n + m) s := by
  induction n generalizing s with
  | zero => rw [Nat.zero_add]; exact drawsAfterCtrl_congr m hd ho
  | succ n ih => rw [Nat.succ_add]; exact ih hd (by rw [drawCtrl_state]; exact ho)

/-- A control call is logged, answered by the next draw, and changes nothing else. -/
theorem callCtrl_eq (c : CtrlCall) (s : State) :
    callCtrl c s =
      (ctrlDraw 0 s,
        { s with draws := drawsAfterCtrl 1 s, ghost := { s.ghost with ctrlLog := s.ghost.ctrlLog ++ [c] } }) := by
  have h := drawCtrl_congr (s := { s with ghost := { s.ghost with ctrlLog := s.ghost.ctrlLog ++ [c] } }) (t := s) rfl rfl
  refine Prod.ext h.1 ?_
  rw [callCtrl, drawCtrl_state]
  simp only [drawsAfterCtrl, h.2]

/-- The same, in terms of the state `n` control calls earlier. -/
theorem callCtrl_after {s t : State} (n : Nat) (c : CtrlCall) (hd : t.draws = drawsAfterCtrl n s)
    (ho : t.link.opState = s.link.opState) :
    callCtrl c t =
      (ctrlDraw n s,
        { t with draws := drawsAfterCtrl (n + 1) s, ghost := { t.ghost with ctrlLog := t.ghost.ctrlLog ++ [c] } }) := by
  rw [callCtrl_eq, ctrlDraw_after n 0 hd ho, drawsAfterCtrl_after n 1 hd ho, Nat.add_zero]

@[simp] theorem callCtrl_block (c : CtrlCall) (s : State) : (callCtrl c s).2.block = s.block := by rw [callCtrl_eq]
@[simp] theorem callCtrl_link (c : CtrlCall) (s : State) : (callCtrl c s).2.link = s.link := by rw [callCtrl_eq]
@[simp] theorem callCtrl_ghost (c : CtrlCall) (s : State) :
    (callCtrl c s).2.ghost = { s.ghost with ctrlLog := s.ghost.ctrlLog ++ [c] } := by rw [callCtrl_eq]
@[simp] theorem callCtrl_result (c : CtrlCall) (s : State) : (callCtrl c s).2.result = s.result := by rw [callCtrl_eq]
@[simp] theorem callCtrl_script (c : CtrlCall) (s : State) : (callCtrl c s).2.script = s.script := by rw [callCtrl_eq]
@[simp] theorem callCtrl_turn (c : CtrlCall) (s : State) : (callCtrl c s).2.turn = s.turn := by rw [callCtrl_eq]
@[simp] theorem callCtrl_params (c : CtrlCall) (s : State) : (callCtrl c s).2.params = s.params := by rw [callCtrl_eq]

/-- Control calls leave the other outcomes fixed in advance alone, and how an unfixed outcome is drawn. -/
theorem drawsAfterCtrl_other (n : Nat) (s : State) :
    (drawsAfterCtrl n s).send = s.draws.send ∧ (drawsAfterCtrl n s).recv = s.draws.recv ∧
      (drawsAfterCtrl n s).unfixed = s.draws.unfixed := by
  induction n generalizing s with
  | zero => exact ⟨rfl, rfl, rfl⟩
  | succ n ih =>
    rw [drawsAfterCtrl, (ih _).1, (ih _).2.1, (ih _).2.2]
    unfold drawCtrl
    repeat' split
    all_goals exact ⟨rfl, rfl, rfl⟩

/-- A `SEND` leaves the other outcomes fixed in advance alone, and how an unfixed outcome is drawn. -/
theorem drawsAfterSend_other (timeout : Nat) (s : State) :
    (drawsAfterSend timeout s).ctrl = s.draws.ctrl ∧ (drawsAfterSend timeout s).recv = s.draws.recv ∧
      (drawsAfterSend timeout s).unfixed = s.draws.unfixed := by
  unfold drawsAfterSend drawSend
  repeat' split
  all_goals exact ⟨rfl, rfl, rfl⟩

/-! ## The draws of a program (R121) -/

/-- A `LINK send=` event's outcome is the next one drawn, once. -/
theorem sendDraw_fixed {o : SendOutcome} {rest : List SendOutcome} {s : State} (timeout : Nat)
    (h : s.draws.send = o :: rest) :
    sendDraw timeout s = o ∧ drawsAfterSend timeout s = { s.draws with send := rest } := by
  simp [sendDraw, drawsAfterSend, drawSend, h]

/-- In a program an unfixed `SEND` outcome is `ok`, however often, and uses no draw. -/
theorem sendDraw_default {s : State} (timeout : Nat) (h : s.draws.send = []) (hu : s.draws.unfixed = .ok) :
    sendDraw timeout s = .ok ∧ drawsAfterSend timeout s = s.draws := by
  simp [sendDraw, drawsAfterSend, drawSend, h, hu]

/-- A `LINK ctrl=` event's outcome is the next one drawn, once. -/
theorem ctrlDraw_fixed {o : CtrlOutcome} {rest : List CtrlOutcome} {s : State} (h : s.draws.ctrl = o :: rest) :
    ctrlDraw 0 s = o ∧ drawsAfterCtrl 1 s = { s.draws with ctrl := rest } := by
  simp [ctrlDraw, drawsAfterCtrl, drawCtrl, h]

/-- In a program every unfixed `Ctrl` outcome is `ok`, and none uses a draw. -/
theorem ctrlDraw_default {s : State} (k : Nat) (h : s.draws.ctrl = []) (hu : s.draws.unfixed = .ok) :
    ctrlDraw k s = .ok ∧ drawsAfterCtrl k s = s.draws := by
  have e : drawCtrl s = (.ok, s) := by simp [drawCtrl, h, hu]
  induction k with
  | zero => exact ⟨by rw [ctrlDraw, e], rfl⟩
  | succ k ih => rwa [ctrlDraw, drawsAfterCtrl, e]

end Sys2Proof.Machine
end

