-- ==== Sys2Proof/Laws/Transport.lean ====
section
/-! SUPPORT. Everything the transport operations can do, one lemma each. -/

namespace Sys2Proof.Machine

/-- A `SEND` the block refuses itself (R132): the error, and no other effect. -/
theorem send_refused (f : Frame) (timeout : Nat) (s : State) (h : f.valid = false ∨ s.block.busState ≠ .running) :
    send f timeout s = (some .transmitFailed, s) := by
  unfold send
  rcases h with h | h <;> simp [sendAllowed, h]

theorem sendAllowed_iff (f : Frame) (s : State) :
    sendAllowed f s = true ↔ f.valid = true ∧ s.block.busState = .running := by simp [sendAllowed]

/-- A `SEND` under way ends as the Link draws, in any bus state (R132, R265, R273). -/
theorem transmit_cases (f : Frame) (timeout : Nat) (s : State) :
    (sendDraw timeout s = .ok ∧
        transmit f timeout s = (none, acceptFrame f { s with draws := drawsAfterSend timeout s })) ∨
      (sendDraw timeout s = .timeout ∧
        transmit f timeout s = (some .transmitTimeout, { s with draws := drawsAfterSend timeout s })) ∨
      (sendDraw timeout s = .failed ∧
        transmit f timeout s = (some .transmitFailed, { s with draws := drawsAfterSend timeout s })) := by
  have h2 := drawSend_state timeout s
  unfold transmit sendDraw
  generalize drawSend timeout s = p at h2 ⊢
  obtain ⟨o, t⟩ := p
  simp only at h2
  subst h2
  cases o <;> simp

/-- A `SEND` that asks the Link ends as the Link draws (R132). -/
theorem send_asked (f : Frame) (timeout : Nat) (s : State) (hv : f.valid = true) (hr : s.block.busState = .running) :
    (sendDraw timeout s = .ok ∧
        send f timeout s = (none, acceptFrame f { s with draws := drawsAfterSend timeout s })) ∨
      (sendDraw timeout s = .timeout ∧
        send f timeout s = (some .transmitTimeout, { s with draws := drawsAfterSend timeout s })) ∨
      (sendDraw timeout s = .failed ∧
        send f timeout s = (some .transmitFailed, { s with draws := drawsAfterSend timeout s })) := by
  have e : send f timeout s = transmit f timeout s := by rw [send, if_pos ((sendAllowed_iff f s).mpr ⟨hv, hr⟩)]
  rw [e]
  exact transmit_cases f timeout s

/-- `RESPOND` of a valid frame (R159). -/
theorem respond_eq (f : Frame) (s : State) (hv : f.valid = true) : respond f s = afterReply f s := by
  unfold respond afterReply accepted
  by_cases hr : s.block.busState = .running
  · rcases send_asked f s.params.tSend s hv hr with ⟨ho, h⟩ | ⟨ho, h⟩ | ⟨ho, h⟩ <;> simp [h, hr, ho, acceptFrame]
  · rw [send_refused f _ s (.inr hr)]
    have : (s.block.busState == .running) = false := by simpa using hr
    simp [hr, this]

/-- What any `RESPOND` can do: nothing, or a draw, or a draw and the frame sent. -/
theorem respond_cases (f : Frame) (s : State) :
    respond f s = s ∨ respond f s = { s with draws := drawsAfterSend s.params.tSend s } ∨
      (f.valid = true ∧ s.block.busState = .running ∧
        respond f s = acceptFrame f { s with draws := drawsAfterSend s.params.tSend s }) := by
  unfold respond
  by_cases hv : f.valid = true
  · by_cases hr : s.block.busState = .running
    · rcases send_asked f s.params.tSend s hv hr with ⟨_, h⟩ | ⟨_, h⟩ | ⟨_, h⟩ <;> simp [h, hv, hr]
    · simp [send_refused f _ s (.inr hr)]
  · simp [send_refused f _ s (.inl (by simpa using hv))]

@[simp] theorem respond_block (f : Frame) (s : State) : (respond f s).block = s.block := by
  rcases respond_cases f s with h | h | ⟨_, _, h⟩ <;> simp [h]
@[simp] theorem respond_result (f : Frame) (s : State) : (respond f s).result = s.result := by
  rcases respond_cases f s with h | h | ⟨_, _, h⟩ <;> simp [h]
@[simp] theorem respond_script (f : Frame) (s : State) : (respond f s).script = s.script := by
  rcases respond_cases f s with h | h | ⟨_, _, h⟩ <;> simp [h]
@[simp] theorem respond_turn (f : Frame) (s : State) : (respond f s).turn = s.turn := by
  rcases respond_cases f s with h | h | ⟨_, _, h⟩ <;> simp [h]
@[simp] theorem respond_params (f : Frame) (s : State) : (respond f s).params = s.params := by
  rcases respond_cases f s with h | h | ⟨_, _, h⟩ <;> simp [h]
@[simp] theorem respond_opState (f : Frame) (s : State) : (respond f s).link.opState = s.link.opState := by
  rcases respond_cases f s with h | h | ⟨_, _, h⟩ <;> simp [h]

/-- A response that only asked for its `SEND` and is finished without interruption is a `RESPOND` (R158, R159). -/
theorem finishSending_askSend (f : Frame) (s : State) (h : s.block.sending = none) :
    finishSending (askSend f s) = respond f s := by
  have e : setSending none (askSend f s) = s := by simp [setSending, askSend, ← h]
  change respond f (setSending none (askSend f s)) = _
  rw [e]

/-- What a `SEND` can do to the state: the same three cases as `RESPOND`. -/
theorem send_state_cases (f : Frame) (timeout : Nat) (s : State) :
    (send f timeout s).2 = s ∨ (send f timeout s).2 = { s with draws := drawsAfterSend timeout s } ∨
      (f.valid = true ∧ s.block.busState = .running ∧
        (send f timeout s).2 = acceptFrame f { s with draws := drawsAfterSend timeout s }) := by
  by_cases hv : f.valid = true
  · by_cases hr : s.block.busState = .running
    · rcases send_asked f timeout s hv hr with ⟨_, h⟩ | ⟨_, h⟩ | ⟨_, h⟩ <;> simp [h, hv, hr]
    · simp [send_refused f _ s (.inr hr)]
  · simp [send_refused f _ s (.inl (by simpa using hv))]

/-- What one reply can do. -/
theorem respond_state (f : Frame) (s : State) :
    ∃ d l,
      respond f s =
        { s with
          draws := d
          link := { s.link with txFifo := s.link.txFifo ++ l.map encodeWire }
          ghost := { s.ghost with txLog := s.ghost.txLog ++ l } } ∧
      (l = [] ∨ (l = [f] ∧ f.valid = true)) ∧ (s.block.busState ≠ .running → l = [] ∧ d = s.draws) := by
  by_cases hr : s.block.busState = .running
  · rcases respond_cases f s with h | h | ⟨hv, _, h⟩
    · exact ⟨s.draws, [], by simp [h], .inl rfl, fun hh => absurd hr hh⟩
    · exact ⟨_, [], by rw [h]; simp; rfl, .inl rfl, fun hh => absurd hr hh⟩
    · exact ⟨_, [f], by rw [h]; rfl, .inr ⟨rfl, hv⟩, fun hh => absurd hr hh⟩
  · refine ⟨s.draws, [], ?_, .inl rfl, fun _ => ⟨rfl, rfl⟩⟩
    unfold respond
    rw [send_refused f _ s (.inr hr)]
    simp

/-- The end of a `SEND` reads nothing of the block and leaves it as it is (R265). -/
theorem transmit_setBlock (f : Frame) (timeout : Nat) (s : State) (b : Block) :
    (transmit f timeout { s with block := b }).2 = { (transmit f timeout s).2 with block := b } := by
  unfold transmit drawSend
  cases s.draws.send with
  | nil =>
    cases s.draws.unfixed
    · cases Config.freeSend s.draws.count s.link.opState timeout <;> rfl
    · rfl
  | cons o rest => cases o <;> rfl

/-- What the rest of a `SEND` can do to the state, in any bus state (R265). -/
theorem transmit_state (f : Frame) (timeout : Nat) (s : State) :
    ∃ d l,
      (transmit f timeout s).2 =
        { s with
          draws := d
          link := { s.link with txFifo := s.link.txFifo ++ l.map encodeWire }
          ghost := { s.ghost with txLog := s.ghost.txLog ++ l } } ∧
      (l = [] ∨ l = [f]) := by
  rcases transmit_cases f timeout s with ⟨_, h⟩ | ⟨_, h⟩ | ⟨_, h⟩ <;> rw [h]
  · exact ⟨_, [f], rfl, .inr rfl⟩
  · exact ⟨_, [], by simp; rfl, .inl rfl⟩
  · exact ⟨_, [], by simp; rfl, .inl rfl⟩

/-- What goes out of the responder while the block is not `Running`, and with which draws: nothing and none, but for a
`SEND` that was blocked already (R132, R264, R265). -/
def OnlyBlockedSends (s : State) (d : Draws) (l : List Frame) : Prop :=
  (l = [] ∧ d = s.draws) ∨ ∃ f, s.block.sending = some (.blocked f) ∧ (l = [] ∨ l = [f])

/-- Everything that finishing the response on its way out can do. -/
theorem finishSending_state (s : State) :
    ∃ d l,
      finishSending s =
        { s with
          block := { s.block with sending := none }
          draws := d
          link := { s.link with txFifo := s.link.txFifo ++ l.map encodeWire }
          ghost := { s.ghost with txLog := s.ghost.txLog ++ l } } ∧
      (∀ f ∈ l, ∃ x, s.block.sending = some x ∧ x.frame = f) ∧
      (s.block.busState ≠ .running → OnlyBlockedSends s d l) := by
  unfold finishSending
  split
  · next h => exact ⟨s.draws, [], by simp [← h], by simp, fun _ => .inl ⟨rfl, rfl⟩⟩
  · next f h =>
    obtain ⟨d, l, e, hl, hn⟩ := respond_state f (setSending none s)
    refine ⟨d, l, e, fun g hg => ⟨_, h, ?_⟩, fun hr => .inl (hn hr)⟩
    rcases hl with rfl | ⟨rfl, _⟩
    · cases hg
    · exact (List.mem_singleton.mp hg).symm
  · next f h =>
    obtain ⟨d, l, e, hl⟩ := transmit_state f s.params.tSend (setSending none s)
    refine ⟨d, l, e, fun g hg => ⟨_, h, ?_⟩, fun _ => .inr ⟨f, h, hl⟩⟩
    rcases hl with rfl | rfl
    · cases hg
    · exact (List.mem_singleton.mp hg).symm

/-- Everything that one part of a response on its way out can do (R74, R265). -/
theorem sendingPart_state (x : Sending) (s : State) (hx : s.block.sending = some x) :
    ∃ d l y,
      sendingPart x s =
        { s with
          block := { s.block with sending := y }
          draws := d
          link := { s.link with txFifo := s.link.txFifo ++ l.map encodeWire }
          ghost := { s.ghost with txLog := s.ghost.txLog ++ l } } ∧
      (l = [] ∨ (l = [x.frame] ∧ y = none)) ∧
      (y = none ∨ (y = some (.blocked x.frame) ∧ s.block.busState = .running)) ∧
      (s.block.busState ≠ .running → OnlyBlockedSends s d l) := by
  cases x with
  | asked f =>
    refine ⟨s.draws, [], if sendAllowed f s then some (.blocked f) else none, by simp [sendingPart, setSending], .inl rfl, ?_,
      fun _ => .inl ⟨rfl, rfl⟩⟩
    split
    · next h => exact .inr ⟨rfl, ((sendAllowed_iff f s).mp h).2⟩
    · exact .inl rfl
  | blocked f =>
    obtain ⟨d, l, e, hl⟩ := transmit_state f s.params.tSend (setSending none s)
    exact ⟨d, l, none, e, hl.imp id fun h => ⟨h, rfl⟩, .inl rfl, fun _ => .inr ⟨f, hx, hl⟩⟩

/-- A frame that a poll returns is a Frame that lists exactly its valid bytes (R94). -/
theorem decodeWire_isFrame {w : WireWord} {f : Frame} (h : decodeWire w = some f) : isFrame f = true := by
  unfold decodeWire at h
  split at h
  · next hv =>
    cases h
    have hd : (wireRecord w).dlc ≤ 8 := by
      unfold Frame.valid at hv
      simp only [Bool.and_eq_true, decide_eq_true_eq] at hv
      exact hv.1
    unfold isFrame
    rw [hv]
    simp only [Bool.true_and, beq_iff_eq]
    simp only [wireRecord, List.length_take, List.length_cons, List.length_nil] at hd ⊢
    omega
  · cases h

/-- What `POLL_RECEIVE` can do (R133): the draws and the controller's receive queue change, and a frame comes out only
if it is a Frame and the controller is installed. -/
theorem pollReceive_cases (timeout : Nat) (s : State) :
    ∃ d q, (pollReceive timeout s).2 = { s with draws := d, link := { s.link with rxFifo := q } } ∧
      ∀ f, (pollReceive timeout s).1 = some f → isFrame f = true ∧ s.block.ctrlInstalled = true := by
  unfold pollReceive linkReceive
  cases hi : s.block.ctrlInstalled
  · exact ⟨s.draws, s.link.rxFifo, rfl, by simp⟩
  cases hq : s.link.rxFifo with
  | nil => exact ⟨s.draws, s.link.rxFifo, rfl, by simp⟩
  | cons w rest =>
    have h2 := drawRecv_state timeout s
    generalize drawRecv timeout s = p at h2
    obtain ⟨o, t⟩ := p
    simp only at h2
    cases o
    · refine ⟨t.draws, rest, ?_, fun f hf => ⟨decodeWire_isFrame hf, rfl⟩⟩
      rw [h2]
      rfl
    · exact ⟨t.draws, s.link.rxFifo, h2, by simp⟩

/-- The receive phase of an iteration: a poll, and at most one frame enqueued or dropped (R30, R157). -/
theorem receivePhase_cases (s : State) :
    ∃ d q, receivePhase s = { s with draws := d, link := { s.link with rxFifo := q } } ∨
      ∃ f, isFrame f = true ∧ s.block.ctrlInstalled = true ∧
        receivePhase s = enqueue f { s with draws := d, link := { s.link with rxFifo := q } } := by
  obtain ⟨d, q, h2, hf⟩ := pollReceive_cases s.params.tRxPoll s
  refine ⟨d, q, ?_⟩
  unfold receivePhase
  generalize pollReceive s.params.tRxPoll s = p at h2 hf
  obtain ⟨o, t⟩ := p
  simp only at h2 hf
  subst h2
  cases o with
  | none => exact .inl rfl
  | some f => exact .inr ⟨f, (hf f rfl).1, (hf f rfl).2, rfl⟩

/-- `uninstall` (R131), in terms of the state `n` control calls earlier. -/
theorem uninstall_after {s t : State} (n : Nat) (hd : t.draws = drawsAfterCtrl n s)
    (ho : t.link.opState = s.link.opState) :
    uninstall t =
      { t with
        block := { t.block with ctrlInstalled := false }
        draws := drawsAfterCtrl (n + 1) s
        ghost := { t.ghost with ctrlLog := t.ghost.ctrlLog ++ [.uninstall] } } := by
  unfold uninstall
  rw [callCtrl_after n _ hd ho]

/-- Everything `CONFIGURE_START` can do (R130, R263). -/
theorem configureStart_cases (rate : Rat) (tx rx : Nat) (s : State) :
    (s.block.ctrlInstalled = true ∧ configureStart rate tx rx s = raise .controllerInstallFailed s) ∨
      (s.block.ctrlInstalled = false ∧ ctrlDraw 0 s = .fail ∧
        configureStart rate tx rx s =
          { s with
            draws := drawsAfterCtrl 1 s
            ghost := { s.ghost with ctrlLog := s.ghost.ctrlLog ++ [.install rate tx rx .acceptAll] }
            result := .error .controllerInstallFailed }) ∨
      (s.block.ctrlInstalled = false ∧ ctrlDraw 0 s = .ok ∧ ctrlDraw 1 s = .fail ∧
        configureStart rate tx rx s =
          { s with
            link := { s.link with alertsPending := 0, counters := perCounter 0 }
            draws := drawsAfterCtrl 3 s
            ghost := { s.ghost with ctrlLog := s.ghost.ctrlLog ++ [.install rate tx rx .acceptAll, .start, .uninstall] }
            result := .error .controllerStartFailed }) ∨
      (s.block.ctrlInstalled = false ∧ ctrlDraw 0 s = .ok ∧ ctrlDraw 1 s = .ok ∧
        configureStart rate tx rx s =
          { s with
            block :=
              { s.block with ctrlInstalled := true, cfg := ⟨rate, tx, rx⟩, busState := .running, rxloopActive := true }
            link := { s.link with alertsPending := 0, counters := perCounter 0 }
            draws := drawsAfterCtrl 2 s
            ghost := { s.ghost with ctrlLog := s.ghost.ctrlLog ++ [.install rate tx rx .acceptAll, .start] }
            result := .handle }) := by
  unfold configureStart
  cases hi : s.block.ctrlInstalled
  · right
    rw [callCtrl_after (s := s) 0 _ rfl rfl]
    cases h0 : ctrlDraw 0 s
    · right
      simp only [Bool.false_eq_true, if_false]
      have e := callCtrl_after (s := s) 1 .start (t := markInstalled { s with
        draws := drawsAfterCtrl 1 s
        ghost := { s.ghost with ctrlLog := s.ghost.ctrlLog ++ [.install rate tx rx .acceptAll] } }) rfl rfl
      rw [e]
      cases h1 : ctrlDraw 1 s
      · right
        simp [returns, markStarted, markInstalled]
      · left
        have hb : { s.block with ctrlInstalled := false } = s.block := by rw [← hi]
        have e2 : ∀ t : State, t.draws = drawsAfterCtrl 2 s → t.link.opState = s.link.opState → uninstall t = _ :=
          fun t hd ho => uninstall_after (s := s) 2 hd ho
        simp [e2, raise, returns, markInstalled, hb]
    · left
      simp [raise, returns]
  · left
    simp

/-- `STOP` (R131). -/
theorem stopController_eq (s : State) :
    stopController s =
      { s with
        block := { s.block with rxloopActive := false, ctrlInstalled := false, busState := .stopped }
        draws := if s.block.ctrlInstalled then drawsAfterCtrl 2 s else s.draws
        ghost :=
          { s.ghost with
            ctrlLog := if s.block.ctrlInstalled then s.ghost.ctrlLog ++ [.stop, .uninstall] else s.ghost.ctrlLog } } := by
  unfold stopController
  cases hi : s.block.ctrlInstalled
  · simp [hi]
  · have e1 : ∀ t : State, t.draws = s.draws → t.link.opState = s.link.opState → callCtrl .stop t = _ :=
      fun t hd ho => callCtrl_after (s := s) 0 .stop hd ho
    have e2 : ∀ t : State, t.draws = drawsAfterCtrl 1 s → t.link.opState = s.link.opState → uninstall t = _ :=
      fun t hd ho => uninstall_after (s := s) 1 hd ho
    simp [hi, e1, e2]

/-- Everything a receive phase can do, as one record (R30, R157): the draws and the controller's receive queue move; and
either nothing arrives, or a Frame takes the tail of a queue with room, or one is lost at a full queue. -/
theorem receivePhase_state (s : State) :
    ∃ d q rx n,
      receivePhase s =
        { s with
          block := { s.block with rxq := s.block.rxq ++ rx }
          draws := d
          link := { s.link with rxFifo := q }
          ghost := { s.ghost with rxDropped := s.ghost.rxDropped + n } } ∧
      ((rx = [] ∧ n = 0) ∨ (∃ f, rx = [f] ∧ n = 0 ∧ isFrame f = true ∧ s.block.rxq.length < rxqCap) ∨
        (rx = [] ∧ n = 1 ∧ rxqCap ≤ s.block.rxq.length)) := by
  obtain ⟨d, q, h | ⟨f, hf, _, h⟩⟩ := receivePhase_cases s
  · exact ⟨d, q, [], 0, by rw [h]; simp, .inl ⟨rfl, rfl⟩⟩
  · by_cases hl : s.block.rxq.length < rxqCap
    · exact ⟨d, q, [f], 0, by rw [h]; simp [enqueue, hl], .inr (.inl ⟨f, rfl, rfl, hf, hl⟩)⟩
    · exact ⟨d, q, [], 1, by rw [h]; simp [enqueue, hl], .inr (.inr ⟨rfl, rfl, by omega⟩)⟩

end Sys2Proof.Machine
end

