-- ==== Sys2Proof/Laws/Alerts.lean ====
section
/-! SUPPORT. Everything the alert handlers can do. -/

namespace Sys2Proof.Machine

/-- The entry into bus-off (R151, R264). -/
theorem enterBusOff_eq (s : State) :
    enterBusOff s =
      { s with
        block := { s.block with busState := .busOff }
        draws := drawsAfterCtrl 1 s
        ghost :=
          { s.ghost with
            ctrlLog := s.ghost.ctrlLog ++ [.initiateRecovery], recoveryCalls := s.ghost.recoveryCalls + 1 } } := by
  unfold enterBusOff
  have e : ∀ t : State, t.draws = s.draws → t.link.opState = s.link.opState → callCtrl .initiateRecovery t = _ :=
    fun t hd ho => callCtrl_after (s := s) 0 .initiateRecovery hd ho
  simp [e]

/-- The return from bus-off (R152, R156, R266). -/
theorem returnFromBusOff_eq (s : State) :
    returnFromBusOff s =
      { s with
        block := { s.block with busState := if ctrlDraw 0 s = .ok then .running else .recovering }
        draws := drawsAfterCtrl 1 s
        ghost :=
          { s.ghost with ctrlLog := s.ghost.ctrlLog ++ [.start], restartCalls := s.ghost.restartCalls + 1 } } := by
  unfold returnFromBusOff
  have e : ∀ t : State, t.draws = s.draws → t.link.opState = s.link.opState → callCtrl .start t = _ :=
    fun t hd ho => callCtrl_after (s := s) 0 .start hd ho
  cases h : ctrlDraw 0 s <;> simp [e, h]

/-- What the handling of one alert word comes to (R153), as one function. -/
def handleAlerts (a : AlertWord) (s : State) : State :=
  let s1 := latchState s
  busRecoveredAlert a s1.block.polledState (busOffAlert a s1.block.polledState s1)

/-- One alert word causes at most one of the two transitions (R153, R262). -/
theorem handleAlerts_cases (a : AlertWord) (s : State) :
    (busOffBit a = true ∧ s.block.busState = .running ∧ handleAlerts a s = enterBusOff (latchState s)) ∨
      (busRecoveredBit a = true ∧ s.block.busState = .busOff ∧ handleAlerts a s = returnFromBusOff (latchState s)) ∨
      (¬(busOffBit a = true ∧ s.block.busState = .running) ∧
        ¬(busRecoveredBit a = true ∧ s.block.busState = .busOff) ∧ handleAlerts a s = latchState s) := by
  unfold handleAlerts busOffAlert busRecoveredAlert
  simp only [latchState_block]
  by_cases h1 : s.block.busState = .running
  · have h2 : s.block.busState ≠ .busOff := by simp [h1]
    by_cases hb : busOffBit a = true <;> simp [h1, hb]
  · by_cases hb : busRecoveredBit a = true <;> by_cases h2 : s.block.busState = .busOff <;> simp [h1, h2, hb]

/-- The handlers of a word, run one after the other from the latched state, are `HANDLE_ALERTS` (R153). -/
theorem handlerStep_eq (a : AlertWord) (s : State) : handlerStep a s = .next (handleAlerts a s) := by
  have hs : ∀ t : State, (busOffAlert a t.block.polledState t).block.polledState = t.block.polledState := by
    intro t
    unfold busOffAlert
    split
    · rw [enterBusOff_eq]
    · rfl
  have h0 : busOffBit a = false → ∀ t : State, busOffAlert a t.block.polledState t = t := by
    intro h t
    simp [busOffAlert, h]
  have h1 : busRecoveredBit a = false → ∀ (t : State) (s0 : BusState), busRecoveredAlert a s0 t = t := by
    intro h t s0
    simp [busRecoveredAlert, h]
  unfold handlerStep selected alertHandlers handleAlerts
  simp only
  cases b0 : a.testBit 0 <;> cases b1 : a.testBit 1
  · rw [h0 b0, h1 b1]
    rfl
  · rw [h0 b0]
    rfl
  · rw [h1 b1]
    rfl
  · simp only [if_true, List.singleton_append, runAll, exec, execAlertBusOff, execAlertBusRecovered, hs]

/-- Everything the handling of one alert word can do, as one record (R153): the latch is written, and the state, the
draws and the two logs move as one of the two transitions says, or not at all. -/
theorem handleAlerts_state (a : AlertWord) (s : State) :
    ∃ b d l m n,
      handleAlerts a s =
        { s with
          block := { s.block with busState := b, polledState := s.block.busState }
          draws := d
          ghost :=
            { s.ghost with
              ctrlLog := s.ghost.ctrlLog ++ l
              recoveryCalls := s.ghost.recoveryCalls + m
              restartCalls := s.ghost.restartCalls + n } } ∧
      ((busOffBit a = true ∧ s.block.busState = .running ∧ b = .busOff ∧ l = [.initiateRecovery] ∧ m = 1 ∧ n = 0) ∨
        (busRecoveredBit a = true ∧ s.block.busState = .busOff ∧ (b = .running ∨ b = .recovering) ∧ l = [.start] ∧
          m = 0 ∧ n = 1) ∨
        (¬(busOffBit a = true ∧ s.block.busState = .running) ∧
          ¬(busRecoveredBit a = true ∧ s.block.busState = .busOff) ∧ b = s.block.busState ∧ d = s.draws ∧ l = [] ∧
          m = 0 ∧ n = 0)) := by
  rcases handleAlerts_cases a s with ⟨h1, h2, e⟩ | ⟨h1, h2, e⟩ | ⟨h1, h2, e⟩
  · refine ⟨.busOff, drawsAfterCtrl 1 (latchState s), [.initiateRecovery], 1, 0, ?_, .inl ⟨h1, h2, rfl, rfl, rfl, rfl⟩⟩
    rw [e, enterBusOff_eq]
    rfl
  · refine ⟨if ctrlDraw 0 (latchState s) = .ok then .running else .recovering, drawsAfterCtrl 1 (latchState s), [.start], 0, 1,
      by rw [e, returnFromBusOff_eq]; rfl, .inr (.inl ⟨h1, h2, ?_, rfl, rfl, rfl⟩)⟩
    by_cases h : ctrlDraw 0 (latchState s) = .ok <;> simp [h]
  · exact ⟨_, s.draws, [], 0, 0, by rw [e]; simp [latchState], .inr (.inr ⟨h1, h2, rfl, rfl, rfl, rfl, rfl⟩)⟩

end Sys2Proof.Machine
end

