-- ==== Sys2Proof/Laws/Wire.lean ====
section
/-! SUPPORT. The bit fields of the dispatch word and the wire word come back as they were placed, and the operand bytes
of the host commands come back as they were written. -/

namespace Sys2Proof

theorem place_getLsbD (w lo i : Nat) {n : Nat} (v : BitVec n) :
    (place w lo v).getLsbD i = (decide (i < w) && decide (lo ≤ i) && v.getLsbD (i - lo)) := by
  simp only [place, BitVec.getLsbD_shiftLeft, BitVec.getLsbD_setWidth]
  by_cases h1 : i < w <;> by_cases h2 : lo ≤ i
  · have : i - lo < w := by omega
    simp [h1, h2, this]
  · simp [h1, h2]
  · simp [h1]
  · simp [h1]

/-! ## The dispatch word -/

theorem slice_packDispatch_id (x : DispatchFields) : slice (packDispatch x) 28 11 = x.id := by
  apply BitVec.eq_of_getLsbD_eq
  intro i hi
  simp only [packDispatch, slice, BitVec.getLsbD_extractLsb', BitVec.getLsbD_or, place_getLsbD]
  interval_cases i <;> simp

theorem slice_packDispatch_dlc (x : DispatchFields) : slice (packDispatch x) 24 4 = BitVec.ofNat 4 x.dlc := by
  apply BitVec.eq_of_getLsbD_eq
  intro i hi
  simp only [packDispatch, slice, BitVec.getLsbD_extractLsb', BitVec.getLsbD_or, place_getLsbD]
  interval_cases i <;> simp

theorem slice_packDispatch_d0 (x : DispatchFields) : slice (packDispatch x) 16 8 = x.d0 := by
  apply BitVec.eq_of_getLsbD_eq
  intro i hi
  simp only [packDispatch, slice, BitVec.getLsbD_extractLsb', BitVec.getLsbD_or, place_getLsbD]
  interval_cases i <;> simp

theorem slice_packDispatch_d1 (x : DispatchFields) : slice (packDispatch x) 8 8 = x.d1 := by
  apply BitVec.eq_of_getLsbD_eq
  intro i hi
  simp only [packDispatch, slice, BitVec.getLsbD_extractLsb', BitVec.getLsbD_or, place_getLsbD]
  interval_cases i <;> simp

theorem slice_packDispatch_d2 (x : DispatchFields) : slice (packDispatch x) 0 8 = x.d2 := by
  apply BitVec.eq_of_getLsbD_eq
  intro i hi
  simp only [packDispatch, slice, BitVec.getLsbD_extractLsb', BitVec.getLsbD_or, place_getLsbD]
  interval_cases i <;> simp

theorem packDispatch_extd (x : DispatchFields) : (packDispatch x).getLsbD 40 = x.extd := by
  simp only [packDispatch, BitVec.getLsbD_or, place_getLsbD]
  simp

theorem packDispatch_rtr (x : DispatchFields) : (packDispatch x).getLsbD 39 = x.rtr := by
  simp only [packDispatch, BitVec.getLsbD_or, place_getLsbD]
  simp

/-- Unpacking a packed dispatch word gives the fields back (R105). -/
theorem unpackDispatch_packDispatch (x : DispatchFields) (h : x.dlc < 16) : unpackDispatch (packDispatch x) = x := by
  unfold unpackDispatch
  rw [slice_packDispatch_id, slice_packDispatch_dlc, slice_packDispatch_d0, slice_packDispatch_d1,
    slice_packDispatch_d2, packDispatch_extd, packDispatch_rtr, BitVec.toNat_ofNat, Nat.mod_eq_of_lt (by simpa using h)]

/-! ## The wire word -/

theorem encodeWire_extd (f : Frame) : (encodeWire f).getLsbD 98 = f.extd := by
  simp only [encodeWire, BitVec.getLsbD_or, place_getLsbD]
  simp

theorem encodeWire_rtr (f : Frame) : (encodeWire f).getLsbD 97 = f.rtr := by
  simp only [encodeWire, BitVec.getLsbD_or, place_getLsbD]
  simp

theorem slice_encodeWire_id (f : Frame) : slice (encodeWire f) 68 29 = f.id := by
  apply BitVec.eq_of_getLsbD_eq
  intro i hi
  simp only [encodeWire, slice, BitVec.getLsbD_extractLsb', BitVec.getLsbD_or, place_getLsbD]
  interval_cases i <;> simp

theorem slice_encodeWire_dlc (f : Frame) : slice (encodeWire f) 64 4 = BitVec.ofNat 4 f.dlc := by
  apply BitVec.eq_of_getLsbD_eq
  intro i hi
  simp only [encodeWire, slice, BitVec.getLsbD_extractLsb', BitVec.getLsbD_or, place_getLsbD]
  interval_cases i <;> simp

/-- The byte field of index `k` holds byte `k` (R92, R93). -/
theorem slice_encodeWire_byte (f : Frame) (k : Nat) (h : k < 8) : slice (encodeWire f) (56 - 8 * k) 8 = f.byte k := by
  apply BitVec.eq_of_getLsbD_eq
  intro i hi
  simp only [encodeWire, slice, BitVec.getLsbD_extractLsb', BitVec.getLsbD_or, place_getLsbD]
  interval_cases k <;> interval_cases i <;> simp

/-- A record that lists exactly its data bytes comes back from its wire word, a Frame or not. -/
theorem wireRecord_encodeWire (f : Frame) (h : f.canonical = true) : wireRecord (encodeWire f) = f := by
  simp only [Frame.canonical, Bool.and_eq_true, decide_eq_true_eq, beq_iff_eq] at h
  obtain ⟨hd, hl⟩ := h
  have h8 := slice_encodeWire_byte f
  unfold wireRecord
  rw [encodeWire_extd, encodeWire_rtr, slice_encodeWire_id, slice_encodeWire_dlc, h8 0 (by decide), h8 1 (by decide),
    h8 2 (by decide), h8 3 (by decide), h8 4 (by decide), h8 5 (by decide), h8 6 (by decide), h8 7 (by decide),
    BitVec.toNat_ofNat, Nat.mod_eq_of_lt (by simpa using hd)]
  obtain ⟨e, r, id, dlc, data⟩ := f
  simp only [Frame.mk.injEq, true_and]
  simp only at hd hl
  apply List.ext_getElem?
  intro i
  by_cases hi : i < dlc
  · by_cases hi8 : i < 8
    · have hlen : i < data.length := by omega
      have e1 : data[i]? = some (data.getD i 0) := by simp [hlen]
      rw [List.getElem?_take_of_lt hi, e1]
      simp only [Frame.byte]
      interval_cases i <;> simp [hi]
    · rw [List.getElem?_eq_none (by simp; omega), List.getElem?_eq_none (by omega)]
  · rw [List.getElem?_eq_none (by simp; omega), List.getElem?_eq_none (by omega)]

/-! ## Operand bytes -/

theorem takeNat_natGroups (fuel n : Nat) (rest : List Byte) (h : n < 128 ^ (fuel + 1)) :
    takeNat (natGroups fuel n ++ rest) = some (n, rest) := by
  induction fuel generalizing n with
  | zero =>
    have hn : n < 128 := by simpa using h
    have e : (BitVec.ofNat 8 (n % 128)).toNat = n := by simp; omega
    simp [natGroups, takeNat, e, hn]
  | succ k ih =>
    unfold natGroups
    split
    · next hn =>
      have e : (BitVec.ofNat 8 n).toNat = n := by simp; omega
      simp [takeNat, e, hn]
    · next hn =>
      have hk : n / 128 < 128 ^ (k + 1) := by
        rw [Nat.div_lt_iff_lt_mul (by decide)]
        calc n < 128 ^ (k + 1 + 1) := h
          _ = 128 ^ (k + 1) * 128 := Nat.pow_succ ..
      have e : (BitVec.ofNat 8 (n % 128 + 128)).toNat = n % 128 + 128 := by
        rw [BitVec.toNat_ofNat]
        omega
      have h0 : n / 128 ≠ 0 := by omega
      simp only [List.cons_append, takeNat, e, ih _ hk]
      rw [if_neg (by omega), if_neg h0]
      congr 2
      omega

/-- A number comes back from its bytes. -/
theorem takeNat_natBytes (n : Nat) (rest : List Byte) : takeNat (natBytes n ++ rest) = some (n, rest) := by
  apply takeNat_natGroups
  calc n < 2 ^ (n.log2 + 1) := Nat.lt_log2_self
    _ ≤ 128 ^ (n.log2 + 1) := Nat.pow_le_pow_left (by decide) _

@[simp] theorem unzigzag_zigzag (z : Int) : unzigzag (zigzag z) = z := by
  cases z with
  | ofNat n => simp [zigzag, unzigzag]
  | negSucc n =>
    have h1 : (2 * n + 1) % 2 = 1 := by omega
    have h2 : (2 * n + 1) / 2 = n := by omega
    simp [zigzag, unzigzag, h1, h2]

theorem lowestTerms_self (x : Rat) : lowestTerms x.num x.den = some x := by
  unfold lowestTerms
  rw [dif_pos ⟨x.den_nz, x.reduced⟩]

/-- A signal comes back from its bytes. -/
theorem takeSignal_signalBytes (x : Signal) (rest : List Byte) : takeSignal (signalBytes x ++ rest) = some (x, rest) := by
  have hd : x.den - 1 + 1 = x.den := Nat.sub_add_cancel x.den_pos
  unfold takeSignal signalBytes
  rw [List.append_assoc, takeNat_natBytes]
  simp only
  rw [takeNat_natBytes]
  simp [hd, lowestTerms_self]

/-- A positive bit rate comes back from its bytes. -/
theorem takeRate_rateBytes (x : Rat) (rest : List Byte) (h : 0 < x.num) :
    takeRate (rateBytes x ++ rest) = some (x, rest) := by
  have hd : x.den - 1 + 1 = x.den := Nat.sub_add_cancel x.den_pos
  have hn : Int.ofNat (x.num.toNat - 1 + 1) = x.num := by
    have h1 : x.num.toNat - 1 + 1 = x.num.toNat := by omega
    rw [h1]
    exact Int.toNat_of_nonneg (le_of_lt h)
  unfold takeRate rateBytes
  rw [List.append_assoc, takeNat_natBytes]
  simp only
  rw [takeNat_natBytes]
  simp only [hd, hn, lowestTerms_self, Option.map_some]

/-- A byte array comes back from its bytes. -/
theorem takeArray_arrayBytes (v rest : List Byte) : takeArray (arrayBytes v ++ rest) = some (v, rest) := by
  unfold takeArray arrayBytes
  rw [List.append_assoc, takeNat_natBytes]
  simp [takeBytes]

theorem wireBytes_length (w : WireWord) : (wireBytes w).length = 13 := by simp [wireBytes]

/-- A wire word comes back from its thirteen bytes. -/
theorem bytesNat_wireBytes (w : WireWord) : bytesNat (wireBytes w) = w.toNat := by
  have h : ∀ i, (slice w (8 * i) 8).toNat = w.toNat / 2 ^ (8 * i) % 256 := by
    intro i
    simp [slice, BitVec.extractLsb'_toNat, Nat.shiftRight_eq_div_pow]
  have e : ∀ n i : Nat, w.toNat < 2 ^ (8 * (i + n)) →
      bytesNat ((List.range' i n).map fun i => slice w (8 * i) 8) = w.toNat / 2 ^ (8 * i) := by
    intro n
    induction n with
    | zero =>
      intro i hi
      simp only [List.range'_zero, List.map_nil, bytesNat]
      exact (Nat.div_eq_of_lt (by simpa using hi)).symm
    | succ n ih =>
      intro i hi
      rw [List.range'_succ, List.map_cons, bytesNat, ih (i + 1) (by rw [show i + 1 + n = i + (n + 1) by omega]; exact hi),
        h, show 8 * (i + 1) = 8 * i + 8 by ring, Nat.pow_add, ← Nat.div_div_eq_div_mul, Nat.mod_add_div]
  have h13 := e 13 0 (lt_of_lt_of_le w.isLt (Nat.pow_le_pow_right (by decide) (by decide)))
  simpa [wireBytes, List.range_eq_range'] using h13

/-- A frame record comes back from the bytes of its wire word. -/
theorem takeFrame_wireBytes (f : Frame) (rest : List Byte) (h : f.canonical = true) :
    takeFrame (wireBytes (encodeWire f) ++ rest) = some (f, rest) := by
  have h13 := wireBytes_length (encodeWire f)
  have e : takeBytes 13 (wireBytes (encodeWire f) ++ rest) = some (wireBytes (encodeWire f), rest) := by
    unfold takeBytes
    rw [if_neg (by simp [h13]), ← h13, List.take_left, List.drop_left]
  have hlt : (encodeWire f).toNat < 2 ^ 99 := (encodeWire f).isLt
  unfold takeFrame
  rw [e]
  simp only [bytesNat_wireBytes, hlt, if_true]
  simp [wireRecord_encodeWire f h]

end Sys2Proof
end

