-- ==== Sys2Proof/Laws/PerInstr.lean ====
section
/-! SUPPORT. Facts about the operations as syntax, one lemma for each constructor: an operation's encoding has the format
the operation map gives it, and the dispatch fields of a received-frame operation are those of a frame's word and
classify back to it. -/

namespace Sys2Proof.Laws.FormatKept

/-- The encoding has the operation's format (R110, R111, R112). -/
def Statement (i : Instr) : Prop := (encode i).format = i.format

theorem obdShort (dlc : Nat) (d0 : Byte) (d1 : Byte) : Statement (.obdShort dlc d0 d1) := rfl
theorem obdM1Pid00 (dlc : Nat) (d0 : Byte) : Statement (.obdM1Pid00 dlc d0) := rfl
theorem obdM1Pid05 (dlc : Nat) (d0 : Byte) : Statement (.obdM1Pid05 dlc d0) := rfl
theorem obdM1Pid0C (dlc : Nat) (d0 : Byte) : Statement (.obdM1Pid0C dlc d0) := rfl
theorem obdM1Pid0D (dlc : Nat) (d0 : Byte) : Statement (.obdM1Pid0D dlc d0) := rfl
theorem obdM1Pid11 (dlc : Nat) (d0 : Byte) : Statement (.obdM1Pid11 dlc d0) := rfl
theorem obdM1Pid2F (dlc : Nat) (d0 : Byte) : Statement (.obdM1Pid2F dlc d0) := rfl
theorem obdM1Unsup (dlc : Nat) (d0 : Byte) (pid : Byte) : Statement (.obdM1Unsup dlc d0 pid) := rfl
theorem obdM9Pid00 (dlc : Nat) (d0 : Byte) : Statement (.obdM9Pid00 dlc d0) := rfl
theorem obdM9Pid02 (dlc : Nat) (d0 : Byte) : Statement (.obdM9Pid02 dlc d0) := rfl
theorem obdM9Unsup (dlc : Nat) (d0 : Byte) (pid : Byte) : Statement (.obdM9Unsup dlc d0 pid) := rfl
theorem obdModeUnsup (dlc : Nat) (d0 : Byte) (mode : Byte) (pid : Byte) : Statement (.obdModeUnsup dlc d0 mode pid) := rfl
theorem fcCont (dlc : Nat) (d1 : Byte) (d2 : Byte) : Statement (.fcCont dlc d1 d2) := rfl
theorem fcOther (dlc : Nat) (d0 : Byte) (d1 : Byte) (d2 : Byte) : Statement (.fcOther dlc d0 d1 d2) := rfl
theorem rxIgnore (x : DispatchFields) : Statement (.rxIgnore x) := rfl
theorem configureStart (bitRate : Rat) (txPin : Nat) (rxPin : Nat) : Statement (.configureStart bitRate txPin rxPin) := rfl
theorem send (f : Frame) (timeout : Nat) : Statement (.send f timeout) := rfl
theorem pollReceive (timeout : Nat) : Statement (.pollReceive timeout) := rfl
theorem pollAlerts : Statement (.pollAlerts) := rfl
theorem stop : Statement (.stop) := rfl
theorem getStatus : Statement (.getStatus) := rfl
theorem vsWrite (u : VsUpdate) : Statement (.vsWrite u) := rfl
theorem diagReport : Statement (.diagReport) := rfl
theorem alertBusOff (a : AlertWord) : Statement (.alertBusOff a) := rfl
theorem alertBusRecovered (a : AlertWord) : Statement (.alertBusRecovered a) := rfl

end Sys2Proof.Laws.FormatKept

namespace Sys2Proof.Laws

/-- Zeros past the DLC, as equations. -/
theorem pastDlcZero_iff (dlc : Nat) (d0 d1 d2 : Byte) :
    pastDlcZero dlc d0 d1 d2 = true ↔
      (¬1 ≤ dlc → d0 = 0) ∧ (¬2 ≤ dlc → d1 = 0) ∧ (¬3 ≤ dlc → d2 = 0) := by
  simp only [pastDlcZero, Bool.and_eq_true, Bool.or_eq_true, decide_eq_true_eq, beq_iff_eq]
  constructor
  · rintro ⟨⟨h0, h1⟩, h2⟩
    exact ⟨fun h => h0.resolve_left h, fun h => h1.resolve_left h, fun h => h2.resolve_left h⟩
  · rintro ⟨h0, h1, h2⟩
    exact ⟨⟨or_iff_not_imp_left.mpr h0, or_iff_not_imp_left.mpr h1⟩, or_iff_not_imp_left.mpr h2⟩

/-- Bytes past the DLC that are zero are what the decoder reads there. -/
theorem validBytes_eq {x : DispatchFields} (h : pastDlcZero x.dlc x.d0 x.d1 x.d2 = true) : x.validBytes = x := by
  obtain ⟨h0, h1, h2⟩ := (pastDlcZero_iff _ _ _ _).mp h
  have e0 : (if 1 ≤ x.dlc then x.d0 else 0) = x.d0 := by split <;> simp_all
  have e1 : (if 2 ≤ x.dlc then x.d1 else 0) = x.d1 := by split <;> simp_all
  have e2 : (if 3 ≤ x.dlc then x.d2 else 0) = x.d2 := by split <;> simp_all
  unfold DispatchFields.validBytes
  rw [e0, e1, e2]

/-- A request is long enough for its three bytes to be valid, and too long for `OBD.SHORT`. -/
theorem request {dlc : Nat} (h : requestDlc dlc = true) (d0 d1 d2 : Byte) :
    dlc ≤ 8 ∧ ¬dlc < 3 ∧ pastDlcZero dlc d0 d1 d2 = true := by
  simp only [requestDlc, Bool.and_eq_true, decide_eq_true_eq] at h
  refine ⟨h.2, by omega, (pastDlcZero_iff _ _ _ _).mpr ⟨?_, ?_, ?_⟩⟩ <;> intro _ <;> omega

end Sys2Proof.Laws

namespace Sys2Proof.Laws.FieldsClassify

/-- The dispatch fields of a well-formed received-frame operation have a DLC of at most eight, hold zeros past it, and
select that operation (R105, R170). -/
def Statement (i : Instr) : Prop :=
  i.wf = true → ∀ x, i.dispatchFields = some x → x.dlc ≤ 8 ∧ x.validBytes = x ∧ classify x = i

theorem obdShort (dlc : Nat) (d0 : Byte) (d1 : Byte) : Statement (.obdShort dlc d0 d1) := by
  intro h x hx
  cases hx
  simp only [Instr.wf, Bool.and_eq_true, decide_eq_true_eq] at h
  exact ⟨by simp only; omega, validBytes_eq h.2, by simp [classify, show dlc < 3 by omega]⟩

theorem obdM1Pid00 (dlc : Nat) (d0 : Byte) : Statement (.obdM1Pid00 dlc d0) := by
  intro h x hx
  cases hx
  obtain ⟨h8, h3, hz⟩ := request h d0 1 0
  exact ⟨h8, validBytes_eq hz, by simp [classify, classifyM1, h3]⟩

theorem obdM1Pid05 (dlc : Nat) (d0 : Byte) : Statement (.obdM1Pid05 dlc d0) := by
  intro h x hx
  cases hx
  obtain ⟨h8, h3, hz⟩ := request h d0 1 5
  exact ⟨h8, validBytes_eq hz, by simp [classify, classifyM1, h3]⟩

theorem obdM1Pid0C (dlc : Nat) (d0 : Byte) : Statement (.obdM1Pid0C dlc d0) := by
  intro h x hx
  cases hx
  obtain ⟨h8, h3, hz⟩ := request h d0 1 12
  exact ⟨h8, validBytes_eq hz, by simp [classify, classifyM1, h3]⟩

theorem obdM1Pid0D (dlc : Nat) (d0 : Byte) : Statement (.obdM1Pid0D dlc d0) := by
  intro h x hx
  cases hx
  obtain ⟨h8, h3, hz⟩ := request h d0 1 13
  exact ⟨h8, validBytes_eq hz, by simp [classify, classifyM1, h3]⟩

theorem obdM1Pid11 (dlc : Nat) (d0 : Byte) : Statement (.obdM1Pid11 dlc d0) := by
  intro h x hx
  cases hx
  obtain ⟨h8, h3, hz⟩ := request h d0 1 17
  exact ⟨h8, validBytes_eq hz, by simp [classify, classifyM1, h3]⟩

theorem obdM1Pid2F (dlc : Nat) (d0 : Byte) : Statement (.obdM1Pid2F dlc d0) := by
  intro h x hx
  cases hx
  obtain ⟨h8, h3, hz⟩ := request h d0 1 47
  exact ⟨h8, validBytes_eq hz, by simp [classify, classifyM1, h3]⟩

theorem obdM1Unsup (dlc : Nat) (d0 : Byte) (pid : Byte) : Statement (.obdM1Unsup dlc d0 pid) := by
  intro h x hx
  cases hx
  simp only [Instr.wf, Bool.and_eq_true] at h
  obtain ⟨h8, h3, hz⟩ := request h.1 d0 1 pid
  have hp := h.2
  simp [m1Pids] at hp
  exact ⟨h8, validBytes_eq hz, by simp [classify, classifyM1, h3, hp]⟩

theorem obdM9Pid00 (dlc : Nat) (d0 : Byte) : Statement (.obdM9Pid00 dlc d0) := by
  intro h x hx
  cases hx
  obtain ⟨h8, h3, hz⟩ := request h d0 9 0
  exact ⟨h8, validBytes_eq hz, by simp [classify, classifyM9, h3]⟩

theorem obdM9Pid02 (dlc : Nat) (d0 : Byte) : Statement (.obdM9Pid02 dlc d0) := by
  intro h x hx
  cases hx
  obtain ⟨h8, h3, hz⟩ := request h d0 9 2
  exact ⟨h8, validBytes_eq hz, by simp [classify, classifyM9, h3]⟩

theorem obdM9Unsup (dlc : Nat) (d0 : Byte) (pid : Byte) : Statement (.obdM9Unsup dlc d0 pid) := by
  intro h x hx
  cases hx
  simp only [Instr.wf, Bool.and_eq_true] at h
  obtain ⟨h8, h3, hz⟩ := request h.1 d0 9 pid
  have hp := h.2
  simp [m9Pids] at hp
  exact ⟨h8, validBytes_eq hz, by simp [classify, classifyM9, h3, hp]⟩

theorem obdModeUnsup (dlc : Nat) (d0 : Byte) (mode : Byte) (pid : Byte) : Statement (.obdModeUnsup dlc d0 mode pid) := by
  intro h x hx
  cases hx
  simp only [Instr.wf, Bool.and_eq_true, bne_iff_ne] at h
  obtain ⟨h8, h3, hz⟩ := request h.1.1 d0 mode pid
  have h1 : mode ≠ 1#8 := h.1.2
  have h9 : mode ≠ 9#8 := h.2
  exact ⟨h8, validBytes_eq hz, by simp [classify, h3, h1, h9]⟩

theorem fcCont (dlc : Nat) (d1 : Byte) (d2 : Byte) : Statement (.fcCont dlc d1 d2) := by
  intro h x hx
  cases hx
  simp only [Instr.wf, Bool.and_eq_true, decide_eq_true_eq] at h
  have hne : idPhysReq ≠ idFuncReq := by decide
  exact ⟨h.1.2, validBytes_eq h.2, by simp [classify, hne, h.1.1]⟩

theorem fcOther (dlc : Nat) (d0 : Byte) (d1 : Byte) (d2 : Byte) : Statement (.fcOther dlc d0 d1 d2) := by
  intro h x hx
  cases hx
  simp only [Instr.wf, Bool.and_eq_true, decide_eq_true_eq, bne_iff_ne] at h
  have hne : idPhysReq ≠ idFuncReq := by decide
  exact ⟨h.1.1, validBytes_eq h.1.2, by simp [classify, hne, h.2]⟩

theorem rxIgnore (x : DispatchFields) : Statement (.rxIgnore x) := by
  intro h y hy
  cases hy
  simp only [Instr.wf, Bool.and_eq_true, decide_eq_true_eq] at h
  refine ⟨h.1.1, validBytes_eq h.1.2, ?_⟩
  have hx := h.2
  unfold classify
  by_cases he : (x.extd || x.rtr) = true
  · simp [he]
  · simp [he] at hx
    simp [he, hx.1, hx.2]

theorem configureStart (bitRate : Rat) (txPin : Nat) (rxPin : Nat) : Statement (.configureStart bitRate txPin rxPin) := by
  intro _ x hx
  cases hx

theorem send (f : Frame) (timeout : Nat) : Statement (.send f timeout) := by
  intro _ x hx
  cases hx

theorem pollReceive (timeout : Nat) : Statement (.pollReceive timeout) := by
  intro _ x hx
  cases hx

theorem pollAlerts : Statement (.pollAlerts) := by
  intro _ x hx
  cases hx

theorem stop : Statement (.stop) := by
  intro _ x hx
  cases hx

theorem getStatus : Statement (.getStatus) := by
  intro _ x hx
  cases hx

theorem vsWrite (u : VsUpdate) : Statement (.vsWrite u) := by
  intro _ x hx
  cases hx

theorem diagReport : Statement (.diagReport) := by
  intro _ x hx
  cases hx

theorem alertBusOff (a : AlertWord) : Statement (.alertBusOff a) := by
  intro _ x hx
  cases hx

theorem alertBusRecovered (a : AlertWord) : Statement (.alertBusRecovered a) := by
  intro _ x hx
  cases hx

end Sys2Proof.Laws.FieldsClassify
end

