-- ==== Sys2Proof/Laws/Segmenter.lean ====
section
/-! SUPPORT. The frame builders build valid frames, the pending queue keeps its size, and what a release can do. -/

namespace Sys2Proof.Machine

@[simp] theorem responseFrame_valid (data : List Byte) : (responseFrame data).valid = true := by
  have h : slice idResp 11 18 = 0#18 := by decide
  simp [Frame.valid, responseFrame, h]

@[simp] theorem slotFrame_valid (sl : Slot) : (slotFrame sl).valid = true := responseFrame_valid _
@[simp] theorem sfBuild_valid (mode pid : Byte) (data : List Byte) : (sfBuild mode pid data).valid = true :=
  responseFrame_valid _
@[simp] theorem ffBuild_valid (p : List Byte) (len : Nat) : (ffBuild p len).valid = true := responseFrame_valid _

@[simp] theorem populated_zeroSlot : populated zeroSlot = false := by decide

@[simp] theorem clearSlots_eq (q : List Slot) : clearSlots q = List.replicate q.length zeroSlot := by
  induction q with
  | nil => rfl
  | cons _ _ ih => simp [clearSlots, List.replicate_succ]

theorem clearSlots_length (q : List Slot) : (clearSlots q).length = q.length := by simp

theorem populate_length (p : List Byte) (len n : Nat) (q : List Slot) (h : n ≤ q.length) :
    (populate p len n q).length = q.length := by
  simp [populate]
  omega

@[simp] theorem vinPayload_length (layout : VinFfLayout) (vin : Vector Byte 17) :
    (vinPayload layout vin).length = vinTotalLen := by
  cases layout <;> simp [vinPayload, memRead, vinTotalLen]

@[simp] theorem nCf_vin : nCf vinTotalLen = 2 := by decide

/-- A Consecutive Frame's slot is populated: its PCI byte is never zero (R103). -/
theorem populated_cfBuild (k : Nat) (bytes : List Byte) : populated (cfBuild k bytes) = true := by
  have h : ∀ j < 16, ((0x20#8 ||| BitVec.ofNat 8 j) != 0) = true := by decide
  exact h (k % 16) (Nat.mod_lt _ (by decide))

/-- What the transmissions of a release can do: frames of populated slots, in order, enter `tx_log` and the controller's
transmit queue; none while not `Running`; nothing else but the draws changes (R229, R230, R232). -/
theorem releaseSlots_state (slots : List Slot) (s : State) :
    ∃ d l,
      releaseSlots slots s =
        { s with
          draws := d
          link := { s.link with txFifo := s.link.txFifo ++ l.map encodeWire }
          ghost := { s.ghost with txLog := s.ghost.txLog ++ l } } ∧
      l.Sublist ((slots.filter populated).map slotFrame) ∧ (s.block.busState ≠ .running → l = [] ∧ d = s.draws) := by
  induction slots generalizing s with
  | nil => exact ⟨s.draws, [], by simp [releaseSlots], by simp, by simp⟩
  | cons sl rest ih =>
    simp only [releaseSlots, releaseSlot]
    by_cases hp : populated sl = true
    · simp only [hp, if_true]
      rcases respond_cases (slotFrame sl) s with h | h | ⟨_, hr, h⟩
      · obtain ⟨d, l, e, hl, hn⟩ := ih s
        exact ⟨d, l, by rw [h, e], by simp [hp, hl.trans (List.sublist_cons_self _ _)], hn⟩
      · by_cases hr : s.block.busState = .running
        · obtain ⟨d, l, e, hl, hn⟩ := ih (respond (slotFrame sl) s)
          refine ⟨d, l, by rw [e, h], by simp [hp, hl.trans (List.sublist_cons_self _ _)], fun hh => absurd hr hh⟩
        · obtain ⟨d, l, e, hl, hn⟩ := ih s
          have hs : respond (slotFrame sl) s = s := by
            rw [respond_eq _ _ (slotFrame_valid sl)]
            have : (s.block.busState == .running) = false := by simpa using hr
            simp [afterReply, accepted, hr, this]
          exact ⟨d, l, by rw [hs, e], by simp [hp, hl.trans (List.sublist_cons_self _ _)], hn⟩
      · obtain ⟨d, l, e, hl, hn⟩ := ih (respond (slotFrame sl) s)
        refine ⟨d, slotFrame sl :: l, ?_, by simpa [hp] using hl, fun hh => absurd hr hh⟩
        rw [e, h]
        simp [acceptFrame]
    · obtain ⟨d, l, e, hl, hn⟩ := ih s
      exact ⟨d, l, by simp [hp, e], by simpa [hp] using hl, hn⟩

@[simp] theorem releaseSlots_block (slots : List Slot) (s : State) : (releaseSlots slots s).block = s.block := by
  obtain ⟨d, l, e, _⟩ := releaseSlots_state slots s
  rw [e]

/-- The search of a scheduling point finds the first populated slot. -/
theorem nextPopulated_some {slots : List Slot} {i j : Nat} {sl : Slot} (h : nextPopulated slots i = some (sl, j)) :
    ∃ pre rest, slots = pre ++ sl :: rest ∧ (∀ x ∈ pre, populated x = false) ∧ populated sl = true ∧
      j = i + pre.length + 1 := by
  induction slots generalizing i with
  | nil => simp [nextPopulated] at h
  | cons x xs ih =>
    unfold nextPopulated at h
    split at h
    · next hx =>
      cases h
      exact ⟨[], xs, rfl, by simp, hx, rfl⟩
    · next hx =>
      obtain ⟨pre, rest, e, hp, hs, hj⟩ := ih h
      refine ⟨x :: pre, rest, by simp [e], ?_, hs, by simp [hj]; omega⟩
      intro y hy
      rcases List.mem_cons.mp hy with rfl | hy
      · simpa using hx
      · exact hp y hy

theorem nextPopulated_none {slots : List Slot} {i : Nat} (h : nextPopulated slots i = none) :
    ∀ sl ∈ slots, populated sl = false := by
  induction slots generalizing i with
  | nil => simp
  | cons x xs ih =>
    unfold nextPopulated at h
    split at h
    · cases h
    · next hx =>
      intro sl hsl
      rcases List.mem_cons.mp hsl with rfl | hsl
      · simpa using hx
      · exact ih h sl hsl

/-- Unpopulated slots are passed over. -/
theorem releaseSlots_skip {pre : List Slot} (rest : List Slot) (s : State) (h : ∀ x ∈ pre, populated x = false) :
    releaseSlots (pre ++ rest) s = releaseSlots rest s := by
  induction pre with
  | nil => rfl
  | cons x xs ih =>
    simp only [List.cons_append, releaseSlots, releaseSlot, h x (by simp)]
    exact ih fun y hy => h y (by simp [hy])

end Sys2Proof.Machine
end

