-- ==== Sys2Proof/Laws/Queue.lean ====
section
/-! SUPPORT. The byte buffers and the receive queue: read after write, what an enqueue and an iteration of the receive
loop can do, and that the queue operations keep the bounds of the queues. -/

namespace Sys2Proof.Machine

/-- A write keeps the length of the buffer (R11). -/
theorem memWrite_length (buf : List Byte) (i : Nat) (v : List Byte) (h : i + v.length ≤ buf.length) :
    (memWrite buf i v).length = buf.length := by
  simp [memWrite]
  omega

/-- A read of what was written gives what was written (R11). -/
theorem memRead_memWrite (buf : List Byte) (i : Nat) (v : List Byte) (h : i + v.length ≤ buf.length) :
    memRead (memWrite buf i v) i v.length = v := by
  have hi : i ≤ buf.length := by omega
  have ht : (buf.take i).length = i := by simp [hi]
  have e : (buf.take i ++ v ++ buf.drop (i + v.length)).take buf.length = buf.take i ++ (v ++ buf.drop (i + v.length)) := by
    rw [List.take_of_length_le (by simp only [List.length_append, ht, List.length_drop]; omega), List.append_assoc]
  unfold memRead memWrite
  rw [e, List.drop_left' ht]
  simp

/-- What an enqueue can do (R30). -/
theorem enqueue_cases (f : Frame) (s : State) :
    (s.block.rxq.length < rxqCap ∧ enqueue f s = setRxq (s.block.rxq ++ [f]) s) ∨
      (¬s.block.rxq.length < rxqCap ∧
        enqueue f s = { s with ghost := { s.ghost with rxDropped := s.ghost.rxDropped + 1 } }) := by
  unfold enqueue setRxq
  split
  · next h => exact .inl ⟨h, rfl⟩
  · next h => exact .inr ⟨h, rfl⟩

/-- An enqueue keeps the receive queue within its capacity (R30). -/
theorem enqueue_bound (f : Frame) (s : State) (h : s.block.rxq.length ≤ rxqCap) :
    (enqueue f s).block.rxq.length ≤ rxqCap := by
  rcases enqueue_cases f s with ⟨hl, e⟩ | ⟨_, e⟩ <;> rw [e]
  · simpa using hl
  · exact h

/-- A poll of the alerts takes the pending set and leaves none (R134). -/
theorem pollAlerts_eq (s : State) :
    pollAlerts s =
      if s.block.ctrlInstalled then (s.link.alertsPending, { s with link := { s.link with alertsPending := 0 } })
      else (0, s) := by
  unfold pollAlerts
  cases s.block.ctrlInstalled <;> rfl

end Sys2Proof.Machine
end

