-- ==== Sys2Proof/Laws/Responses.lean ====
section
/-! SUPPORT. Every frame the responder builds is a response (R182). -/

namespace Sys2Proof.Machine

theorem IsResponse.valid {f : Frame} (h : IsResponse f) : f.valid = true := by
  obtain ⟨_, _, _, _, _, _, _, _, rfl, _⟩ := h
  exact responseFrame_valid _

theorem slot_toList (v : Slot) : v.toList = [v[0], v[1], v[2], v[3], v[4], v[5], v[6], v[7]] := by
  apply List.ext_getElem (by simp)
  intro i h1 h2
  simp at h2
  interval_cases i <;> simp

theorem mask_toList (v : Vector Byte 4) : v.toList = [v[0], v[1], v[2], v[3]] := by
  apply List.ext_getElem (by simp)
  intro i h1 h2
  simp at h2
  interval_cases i <;> simp

theorem vin_toList (v : Vector Byte 17) :
    v.toList =
      [v[0], v[1], v[2], v[3], v[4], v[5], v[6], v[7], v[8], v[9], v[10], v[11], v[12], v[13], v[14], v[15], v[16]] := by
  apply List.ext_getElem (by simp)
  intro i h1 h2
  simp at h2
  interval_cases i <;> simp

/-- The frame of a slot, byte by byte (R103). -/
theorem slotFrame_bytes (sl : Slot) : slotFrame sl = frame7E8 sl[0] sl[1] sl[2] sl[3] sl[4] sl[5] sl[6] sl[7] := by
  simp only [slotFrame, slot_toList]
  rfl

/-- What a release transmits are Consecutive Frames (R233). -/
theorem slotFrame_isResponse {q : List Slot} (h : PendingShape q) {sl : Slot} (hs : sl ∈ q) (hp : populated sl = true) :
    IsResponse (slotFrame sl) := by
  have h0 : sl[0] = 0x21 ∨ sl[0] = 0x22 := by
    rcases h with h | ⟨a, b, rest, rfl, ha, hb, hr⟩
    · rw [h sl hs] at hp
      cases hp
    · simp only [List.mem_cons] at hs
      rcases hs with rfl | rfl | hs
      · exact .inl ha
      · exact .inr hb
      · rw [hr sl hs] at hp
        cases hp
  rw [slotFrame_bytes]
  exact ⟨_, _, _, _, _, _, _, _, rfl, .inr (.inr h0)⟩

theorem m1Pid00Reply_isResponse (s : State) : IsResponse (m1Pid00Reply s) := by
  rw [m1Pid00Reply, mask_toList]
  exact ⟨_, _, _, _, _, _, _, _, rfl, .inl ⟨.inr (.inr rfl), .inl rfl⟩⟩

theorem m1Pid05Reply_isResponse (s : State) : IsResponse (m1Pid05Reply s) :=
  ⟨_, _, _, _, _, _, _, _, rfl, .inl ⟨.inl rfl, .inl rfl⟩⟩

theorem m1Pid0CReply_isResponse (s : State) : IsResponse (m1Pid0CReply s) :=
  ⟨_, _, _, _, _, _, _, _, rfl, .inl ⟨.inr (.inl rfl), .inl rfl⟩⟩

theorem m1Pid0DReply_isResponse (s : State) : IsResponse (m1Pid0DReply s) :=
  ⟨_, _, _, _, _, _, _, _, rfl, .inl ⟨.inl rfl, .inl rfl⟩⟩

theorem m1Pid11Reply_isResponse (s : State) : IsResponse (m1Pid11Reply s) :=
  ⟨_, _, _, _, _, _, _, _, rfl, .inl ⟨.inl rfl, .inl rfl⟩⟩

theorem m1Pid2FReply_isResponse (s : State) : IsResponse (m1Pid2FReply s) :=
  ⟨_, _, _, _, _, _, _, _, rfl, .inl ⟨.inl rfl, .inl rfl⟩⟩

theorem m9Pid00Reply_isResponse (s : State) : IsResponse (m9Pid00Reply s) := by
  rw [m9Pid00Reply, mask_toList]
  exact ⟨_, _, _, _, _, _, _, _, rfl, .inl ⟨.inr (.inr rfl), .inr rfl⟩⟩

/-- The First Frame of the VIN reply, in both layouts (R220, R221). -/
theorem vinFirstFrame_isResponse (s : State) : IsResponse (ffBuild (m9Pid02Payload s) vinTotalLen) := by
  unfold m9Pid02Payload
  cases s.params.vinFfLayout <;> simp only [vinPayload, vin_toList] <;>
    exact ⟨_, _, _, _, _, _, _, _, rfl, .inr (.inl rfl)⟩

end Sys2Proof.Machine
end

