-- ==== Sys2Proof/Laws/Agents.lean ====
section
/-! SUPPORT. What a received frame decodes to, everything a received-frame operation can do, and what the steps of the
agents can do, each said once. -/

namespace Sys2Proof

theorem valid_iff (f : Frame) :
    f.valid = true ↔ f.dlc ≤ 8 ∧ (f.extd = true ∨ slice f.id 11 18 = 0) := by
  simp [Frame.valid]

theorem encode_rxf (i : Instr) (h : i.format = .rxf) : encode i = encodeRxf i := by
  cases i <;> first | rfl | (simp [Instr.format] at h)

/-- The dispatcher's choice on fields with zeros past the DLC: a well-formed received-frame operation with those
fields (R170). -/
theorem classify_fields (x : DispatchFields) (h : x.dlc ≤ 8) (hv : x.validBytes = x) :
    (classify x).dispatchFields = some x ∧ (classify x).wf = true ∧ (classify x).format = .rxf := by
  obtain ⟨e, r, id, dlc, d0, d1, d2⟩ := x
  simp only [DispatchFields.validBytes, DispatchFields.mk.injEq, true_and] at hv h
  have hp : pastDlcZero dlc d0 d1 d2 = true := by
    rw [Laws.pastDlcZero_iff]
    obtain ⟨a, b, c⟩ := hv
    refine ⟨fun h => ?_, fun h => ?_, fun h => ?_⟩
    · rw [if_neg h] at a
      exact a.symm
    · rw [if_neg h] at b
      exact b.symm
    · rw [if_neg h] at c
      exact c.symm
  have hp0 := (Laws.pastDlcZero_iff _ _ _ _).mp hp
  unfold classify
  simp only
  by_cases h1 : (e || r) = true
  · rw [if_pos h1]
    exact ⟨rfl, by simp only [Instr.wf, hp, h1, h]; simp, rfl⟩
  rw [if_neg h1]
  simp only [Bool.or_eq_true, not_or, Bool.not_eq_true] at h1
  obtain ⟨rfl, rfl⟩ := h1
  by_cases hf : id = idFuncReq
  · subst hf
    rw [if_pos rfl]
    by_cases hs : dlc < 3
    · rw [if_pos hs]
      have hd2 : d2 = 0 := hp0.2.2 (by omega)
      subst hd2
      exact ⟨rfl, by simp only [Instr.wf, hp]; simp; omega, rfl⟩
    rw [if_neg hs]
    have hq : requestDlc dlc = true := by
      simp [requestDlc]
      omega
    split
    · next hm =>
      subst hm
      unfold classifyM1
      repeat' split
      all_goals first | (subst_vars; exact ⟨rfl, hq, rfl⟩) | skip
      refine ⟨rfl, ?_, rfl⟩
      simp [Instr.wf, hq, m1Pids]
      exact ⟨‹_›, ‹_›, ‹_›, ‹_›, ‹_›, ‹_›⟩
    split
    · next hm =>
      subst hm
      unfold classifyM9
      repeat' split
      all_goals first | (subst_vars; exact ⟨rfl, hq, rfl⟩) | skip
      refine ⟨rfl, ?_, rfl⟩
      simp [Instr.wf, hq, m9Pids]
      exact ⟨‹_›, ‹_›⟩
    · next h1 h9 =>
      refine ⟨rfl, ?_, rfl⟩
      simp only [Instr.wf, hq, bne, beq_false_of_ne h1, beq_false_of_ne h9]
      rfl
  rw [if_neg hf]
  by_cases hph : id = idPhysReq
  · subst hph
    rw [if_pos rfl]
    split
    · next hc =>
      obtain ⟨hc, rfl⟩ := hc
      exact ⟨rfl, by simp only [Instr.wf, hp, h, hc]; simp, rfl⟩
    · next hc =>
      refine ⟨rfl, ?_, rfl⟩
      have hne : d0 ≠ fcContinue := by
        rintro rfl
        by_cases h1 : 1 ≤ dlc
        · exact hc ⟨h1, rfl⟩
        · have h0 := hp0.1 h1
          revert h0
          decide
      simp [Instr.wf, hp, h, hne]
  · rw [if_neg hph]
    exact ⟨rfl, by simp [Instr.wf, hp, h, hf, hph], rfl⟩

end Sys2Proof

namespace Sys2Proof.Machine

/-- The dispatch word of a frame holds its fields, with zeros past the DLC (R105). -/
theorem unpackDispatch_dispatchWord (f : Frame) (h : isFrame f = true) :
    unpackDispatch (dispatchWord f) = dispatchFields f ∧ (dispatchFields f).dlc ≤ 8 ∧
      (dispatchFields f).validBytes = dispatchFields f := by
  have h8 : f.dlc ≤ 8 := by
    simp [isFrame, Frame.valid] at h
    omega
  refine ⟨unpackDispatch_packDispatch _ (by simp [dispatchFields]; omega), h8, ?_⟩
  simp only [DispatchFields.validBytes, dispatchFields, DispatchFields.mk.injEq, true_and, Frame.byte]
  refine ⟨?_, ?_, ?_⟩
  · by_cases h : 1 ≤ f.dlc
    · simp [h]
    · simp [h]
      omega
  · by_cases h : 2 ≤ f.dlc
    · simp [h]
    · simp [h]
      omega
  · by_cases h : 3 ≤ f.dlc
    · simp [h]
    · simp [h]
      omega

/-- Every Frame decodes (R113, R170). -/
theorem decodeFrame_eq (f : Frame) (h : isFrame f = true) : decodeFrame f = .ok (classify (dispatchFields f)) := by
  obtain ⟨h1, h2, h3⟩ := unpackDispatch_dispatchWord f h
  simp only [decodeFrame, decode, decodeRxf, h1]
  rw [if_neg (by omega), h3]

/-- What decodes from a dispatch word is a received-frame operation. -/
theorem decodeRxf_format {w : DispatchWord} {i : Instr} (h : decodeRxf w = .ok i) : i.format = .rxf := by
  unfold decodeRxf at h
  split at h
  · cases h
  · next hd =>
    cases h
    refine (classify_fields _ (by simp only [DispatchFields.validBytes]; omega) ?_).2.2
    generalize unpackDispatch w = x
    unfold DispatchFields.validBytes
    simp only [DispatchFields.mk.injEq, true_and]
    refine ⟨?_, ?_, ?_⟩ <;> split <;> rfl

/-! ## The received-frame operations -/

/-- The pending queue after a VIN request has the shape R233 gives it. -/
theorem populate_vin_shape (layout : VinFfLayout) (vin : Vector Byte 17) (q : List Slot) :
    PendingShape (populate (vinPayload layout vin) vinTotalLen 2 (clearSlots q)) := by
  right
  rw [clearSlots_eq]
  simp only [populate, List.drop_replicate]
  refine ⟨_, _, _, rfl, rfl, rfl, ?_⟩
  intro sl hsl
  have hsl' : sl ∈ List.replicate (q.length - 2) zeroSlot := hsl
  rw [List.mem_replicate] at hsl'
  rw [hsl'.2]
  exact populated_zeroSlot

theorem pendingShape_clear (q : List Slot) : PendingShape (clearSlots q) := by
  left
  intro sl hsl
  rw [clearSlots_eq, List.mem_replicate] at hsl
  rw [hsl.2]
  exact populated_zeroSlot

/-- Everything a received-frame operation can do (R113, R193, R227, R229): it ends in a next state in which only the
pending queue, the place in a release, `tx_log`, the controller's transmit queue and the draws can differ; with the
pending queue in its shape, what goes out are responses (R182). -/
def RxfOutcome (i : Instr) (s : State) : Prop :=
  ∃ m r d l,
    exec i s =
      .next
        { s with
          block := { s.block with mfq := m, release := r }
          draws := d
          link := { s.link with txFifo := s.link.txFifo ++ l.map encodeWire }
          ghost := { s.ghost with txLog := s.ghost.txLog ++ l } } ∧
    m.length = s.block.mfq.length ∧ (PendingShape s.block.mfq → PendingShape m) ∧
    (r = s.block.release ∨ r = none) ∧ (PendingShape s.block.mfq → ∀ f ∈ l, IsResponse f) ∧
    (s.block.busState ≠ .running → l = [] ∧ d = s.draws) ∧
    ((∀ dlc d0, i ≠ .obdM9Pid02 dlc d0) → (∀ dlc d1 d2, i ≠ .fcCont dlc d1 d2) →
      m = s.block.mfq ∧ r = s.block.release)

/-- The begin of the VIN reply: refused whole by a queue of fewer than two slots, or the queue written (R226, R227). -/
theorem beginMft_vin (s : State) :
    (s.block.mfq.length < 2 ∧ beginMft (m9Pid02Payload s) vinTotalLen s = (false, s)) ∨
      ∃ q, q.length = s.block.mfq.length ∧ PendingShape q ∧
        beginMft (m9Pid02Payload s) vinTotalLen s = (true, setSlots q s) := by
  by_cases h : s.block.mfq.length < 2
  · exact .inl ⟨h, by simp [beginMft, h]⟩
  · refine .inr ⟨populate (m9Pid02Payload s) vinTotalLen 2 (clearSlots s.block.mfq), ?_, populate_vin_shape _ _ _, ?_⟩
    · rw [populate_length _ _ _ _ (by rw [clearSlots_length]; omega), clearSlots_length]
    · rw [beginMft, nCf_vin, if_neg h]

theorem exec_rxf (i : Instr) (s : State) (hi : i.format = .rxf) : RxfOutcome i s := by
  have reply : ∀ f : Frame, IsResponse f → exec i s = .next (respond f s) → RxfOutcome i s := fun f hf he => by
    obtain ⟨d, l, e, hl, hn⟩ := respond_state f s
    refine ⟨s.block.mfq, s.block.release, d, l, by rw [he, e], rfl, id, .inl rfl, fun _ => ?_, hn, fun _ _ => ⟨rfl, rfl⟩⟩
    rcases hl with rfl | ⟨rfl, _⟩
    · simp
    · simpa using hf
  have nothing : exec i s = .next s → RxfOutcome i s := fun he =>
    ⟨s.block.mfq, s.block.release, s.draws, [], by rw [he]; simp, rfl, id, .inl rfl, by simp, by simp,
      fun _ _ => ⟨rfl, rfl⟩⟩
  cases i with
  | obdShort dlc d0 d1 => exact nothing rfl
  | obdM1Pid00 dlc d0 => exact reply _ (m1Pid00Reply_isResponse s) rfl
  | obdM1Pid05 dlc d0 => exact reply _ (m1Pid05Reply_isResponse s) rfl
  | obdM1Pid0C dlc d0 => exact reply _ (m1Pid0CReply_isResponse s) rfl
  | obdM1Pid0D dlc d0 => exact reply _ (m1Pid0DReply_isResponse s) rfl
  | obdM1Pid11 dlc d0 => exact reply _ (m1Pid11Reply_isResponse s) rfl
  | obdM1Pid2F dlc d0 => exact reply _ (m1Pid2FReply_isResponse s) rfl
  | obdM1Unsup dlc d0 pid => exact nothing rfl
  | obdM9Pid00 dlc d0 => exact reply _ (m9Pid00Reply_isResponse s) rfl
  | obdM9Pid02 dlc d0 =>
    rcases beginMft_vin s with ⟨_, hb⟩ | ⟨q, hq, hs, hb⟩
    · exact nothing (by simp only [exec, execObdM9Pid02, vinReply, hb])
    · obtain ⟨d, l, e, hl, hn⟩ := respond_state (ffBuild (m9Pid02Payload s) vinTotalLen) (setSlots q s)
      refine ⟨q, s.block.release, d, l, ?_, hq, fun _ => hs, .inl rfl, fun _ => ?_, hn, fun hne => absurd rfl (hne dlc d0)⟩
      · simp only [exec, execObdM9Pid02, vinReply, hb, e]
        rfl
      · rcases hl with rfl | ⟨rfl, _⟩
        · simp
        · simpa using vinFirstFrame_isResponse s
  | obdM9Unsup dlc d0 pid => exact nothing rfl
  | obdModeUnsup dlc d0 mode pid => exact nothing rfl
  | fcCont dlc d1 d2 =>
    obtain ⟨d, l, e, hl, hn⟩ := releaseSlots_state s.block.mfq s
    refine ⟨clearSlots s.block.mfq, none, d, l, ?_, clearSlots_length _, fun _ => pendingShape_clear _, .inr rfl, ?_, hn,
      fun _ hne => absurd rfl (hne dlc d1 d2)⟩
    · simp only [exec, execFcCont, releaseFrom, List.drop_zero, e, endRelease]
    · intro hs f hf
      have := hl.subset hf
      simp only [List.mem_map, List.mem_filter] at this
      obtain ⟨sl, ⟨hm, hp⟩, rfl⟩ := this
      exact slotFrame_isResponse hs hm hp
  | fcOther dlc d0 d1 d2 => exact nothing rfl
  | rxIgnore x => exact nothing rfl
  | configureStart _ _ _ => cases hi
  | send _ _ => cases hi
  | pollReceive _ => cases hi
  | pollAlerts => cases hi
  | stop => cases hi
  | getStatus => cases hi
  | vsWrite _ => cases hi
  | diagReport => cases hi
  | alertBusOff _ => cases hi
  | alertBusRecovered _ => cases hi

/-- Everything the dispatch of a received-frame operation does when other agents may step before its first `SEND` (R74,
R158): nothing is transmitted yet; the pending queue may be written, a release may stand at slot 0, and a response may
be the next statement. -/
def BeginOutcome (i : Instr) (s : State) : Prop :=
  ∃ m r x,
    beginOperation i s = .next { s with block := { s.block with mfq := m, release := r, sending := x } } ∧
    m.length = s.block.mfq.length ∧ (PendingShape s.block.mfq → PendingShape m) ∧
    (r = s.block.release ∨ r = some 0) ∧ (x = s.block.sending ∨ ∃ f, x = some (.asked f) ∧ IsResponse f)

theorem beginOperation_rxf (i : Instr) (s : State) (hi : i.format = .rxf) : BeginOutcome i s := by
  have reply : ∀ f : Frame, IsResponse f → beginOperation i s = .next (askSend f s) → BeginOutcome i s := fun f hf he =>
    ⟨s.block.mfq, s.block.release, some (.asked f), he, rfl, id, .inl rfl, .inr ⟨f, rfl, hf⟩⟩
  have nothing : beginOperation i s = .next s → BeginOutcome i s := fun he =>
    ⟨s.block.mfq, s.block.release, s.block.sending, he, rfl, id, .inl rfl, .inl rfl⟩
  cases i with
  | obdShort dlc d0 d1 => exact nothing rfl
  | obdM1Pid00 dlc d0 => exact reply _ (m1Pid00Reply_isResponse s) rfl
  | obdM1Pid05 dlc d0 => exact reply _ (m1Pid05Reply_isResponse s) rfl
  | obdM1Pid0C dlc d0 => exact reply _ (m1Pid0CReply_isResponse s) rfl
  | obdM1Pid0D dlc d0 => exact reply _ (m1Pid0DReply_isResponse s) rfl
  | obdM1Pid11 dlc d0 => exact reply _ (m1Pid11Reply_isResponse s) rfl
  | obdM1Pid2F dlc d0 => exact reply _ (m1Pid2FReply_isResponse s) rfl
  | obdM1Unsup dlc d0 pid => exact nothing rfl
  | obdM9Pid00 dlc d0 => exact reply _ (m9Pid00Reply_isResponse s) rfl
  | obdM9Pid02 dlc d0 =>
    rcases beginMft_vin s with ⟨_, hb⟩ | ⟨q, hq, hs, hb⟩
    · exact nothing (by simp only [beginOperation, beginVinReply, hb])
    · refine ⟨q, s.block.release, some (.asked (ffBuild (m9Pid02Payload s) vinTotalLen)), ?_, hq, fun _ => hs, .inl rfl,
        .inr ⟨_, rfl, vinFirstFrame_isResponse s⟩⟩
      simp only [beginOperation, beginVinReply, hb]
      rfl
  | obdM9Unsup dlc d0 pid => exact nothing rfl
  | obdModeUnsup dlc d0 mode pid => exact nothing rfl
  | fcCont dlc d1 d2 => exact ⟨s.block.mfq, some 0, s.block.sending, rfl, rfl, id, .inr rfl, .inl rfl⟩
  | fcOther dlc d0 d1 d2 => exact nothing rfl
  | rxIgnore x => exact nothing rfl
  | configureStart _ _ _ => cases hi
  | send _ _ => cases hi
  | pollReceive _ => cases hi
  | pollAlerts => cases hi
  | stop => cases hi
  | getStatus => cases hi
  | vsWrite _ => cases hi
  | diagReport => cases hi
  | alertBusOff _ => cases hi
  | alertBusRecovered _ => cases hi

/-! ## The next event -/

theorem nextEvent_state (s : State) :
    ∃ script turn, (nextEvent s).2 = { s with script := script, turn := turn } := by
  unfold nextEvent
  split
  · exact ⟨_, s.turn, rfl⟩
  · exact ⟨s.script, _, rfl⟩

@[simp] theorem nextEvent_block (s : State) : (nextEvent s).2.block = s.block := by
  obtain ⟨_, _, e⟩ := nextEvent_state s
  rw [e]
@[simp] theorem nextEvent_link (s : State) : (nextEvent s).2.link = s.link := by
  obtain ⟨_, _, e⟩ := nextEvent_state s
  rw [e]
@[simp] theorem nextEvent_draws (s : State) : (nextEvent s).2.draws = s.draws := by
  obtain ⟨_, _, e⟩ := nextEvent_state s
  rw [e]
@[simp] theorem nextEvent_ghost (s : State) : (nextEvent s).2.ghost = s.ghost := by
  obtain ⟨_, _, e⟩ := nextEvent_state s
  rw [e]
@[simp] theorem nextEvent_params (s : State) : (nextEvent s).2.params = s.params := by
  obtain ⟨_, _, e⟩ := nextEvent_state s
  rw [e]

/-! ## The steps of the agents -/

/-- What a scheduling point of a release can do (R74, R229): the next populated slot is the next response, or the queue is
cleared; nothing is transmitted yet. -/
theorem releasePart_state (i : Nat) (s : State) :
    ∃ m r x,
      releasePart i s = { s with block := { s.block with mfq := m, release := r, sending := x } } ∧
      m.length = s.block.mfq.length ∧ (PendingShape s.block.mfq → PendingShape m) ∧
      (∀ j, r = some j → j ≤ s.block.mfq.length) ∧
      (x = s.block.sending ∨ ∃ sl ∈ s.block.mfq, populated sl = true ∧ x = some (.asked (slotFrame sl))) := by
  unfold releasePart
  split
  · exact ⟨clearSlots s.block.mfq, none, s.block.sending, rfl, clearSlots_length _, fun _ => pendingShape_clear _, by simp,
      .inl rfl⟩
  · next sl j hsl =>
    obtain ⟨pre, rest, e, _, hp, hj⟩ := nextPopulated_some hsl
    refine ⟨s.block.mfq, some j, some (.asked (slotFrame sl)), rfl, rfl, id, ?_, .inr ⟨sl, ?_, hp, rfl⟩⟩
    · rintro k ⟨⟩
      have := congrArg List.length e
      simp at this
      omega
    · exact List.mem_of_mem_drop (i := i) (by rw [e]; simp)

/-- What a release from slot `i` can do. -/
theorem releaseFrom_state (i : Nat) (s : State) :
    ∃ d l,
      releaseFrom i s =
        { s with
          block := { s.block with mfq := clearSlots s.block.mfq, release := none }
          draws := d
          link := { s.link with txFifo := s.link.txFifo ++ l.map encodeWire }
          ghost := { s.ghost with txLog := s.ghost.txLog ++ l } } ∧
      l.Sublist (((s.block.mfq.drop i).filter populated).map slotFrame) ∧
      (s.block.busState ≠ .running → l = [] ∧ d = s.draws) := by
  obtain ⟨d, l, e, hl, hn⟩ := releaseSlots_state (s.block.mfq.drop i) s
  exact ⟨d, l, by simp only [releaseFrom, e, endRelease], hl, hn⟩

/-- What the alert phase of an iteration can do: at most one transition, judged against the state before it (R153,
R157). -/
theorem alertPhase_eq (s : State) :
    ∃ a, (a = s.link.alertsPending ∨ a = 0) ∧ (s.block.ctrlInstalled = true → a = s.link.alertsPending) ∧
      alertPhase s =
        .next
          (handleAlerts a
            (if s.block.ctrlInstalled then { s with link := { s.link with alertsPending := 0 } } else s)) := by
  rw [alertPhase, handlerStep_eq]
  unfold pollAlerts
  cases h : s.block.ctrlInstalled
  · exact ⟨0, .inr rfl, by simp, rfl⟩
  · exact ⟨_, .inl rfl, fun _ => rfl, rfl⟩

/-- What decodes from the bytes of a host command is a host command. -/
theorem decodeCmd_format {bytes : List Byte} {i : Instr} (h : decodeCmd bytes = .ok i) : i.format = .cmd := by
  unfold decodeCmd at h
  split at h
  · cases h
  split at h
  · cases h
  split at h
  · cases h
  · next j rest ht =>
    split at h
    · cases h
      unfold takeCommand at ht
      split at ht
      · unfold takeConfigureStart at ht
        repeat' split at ht
        all_goals first | cases ht | skip
        simp only [Option.map_eq_some_iff, Prod.mk.injEq] at ht
        obtain ⟨_, _, rfl, _⟩ := ht
        rfl
      · unfold takeSend at ht
        split at ht
        · cases ht
        simp only [Option.map_eq_some_iff, Prod.mk.injEq] at ht
        obtain ⟨_, _, rfl, _⟩ := ht
        rfl
      · simp only [Option.map_eq_some_iff, Prod.mk.injEq] at ht
        obtain ⟨_, _, rfl, _⟩ := ht
        rfl
      · cases ht
        rfl
      · cases ht
        rfl
      · cases ht
        rfl
      · simp only [Option.map_eq_some_iff, Prod.mk.injEq] at ht
        obtain ⟨_, _, rfl, _⟩ := ht
        rfl
      · cases ht
        rfl
      · cases ht
    · cases h

/-- Everything that finishing an iteration under way can do (R158, R229). -/
theorem finishIteration_state (s : State) :
    ∃ m r d l,
      finishIteration s =
        { s with
          block := { s.block with mfq := m, release := r, sending := none }
          draws := d
          link := { s.link with txFifo := s.link.txFifo ++ l.map encodeWire }
          ghost := { s.ghost with txLog := s.ghost.txLog ++ l } } ∧
      m.length = s.block.mfq.length ∧ (PendingShape s.block.mfq → PendingShape m) ∧ r = none ∧
      (PendingShape s.block.mfq → (∀ x, s.block.sending = some x → IsResponse x.frame) → ∀ f ∈ l, IsResponse f) ∧
      (s.block.busState ≠ .running → OnlyBlockedSends s d l) := by
  obtain ⟨d, l, e, hl, hn⟩ := finishSending_state s
  have resp : (∀ x, s.block.sending = some x → IsResponse x.frame) → ∀ f ∈ l, IsResponse f := fun hx f hf => by
    obtain ⟨x, hs, rfl⟩ := hl f hf
    exact hx x hs
  unfold finishIteration
  split
  · next h => exact ⟨s.block.mfq, none, d, l, by rw [e, ← h], rfl, id, rfl, fun _ => resp, hn⟩
  · next i h =>
    obtain ⟨d2, l2, e2, hl2, hn2⟩ := releaseFrom_state i (finishSending s)
    rw [e] at hl2 hn2
    refine ⟨clearSlots s.block.mfq, none, d2, l ++ l2, ?_, clearSlots_length _, fun _ => pendingShape_clear _, rfl, ?_, ?_⟩
    · rw [e2, e]
      simp
    · intro hs hx f hf
      rcases List.mem_append.mp hf with hf | hf
      · exact resp hx f hf
      · have := hl2.subset hf
        simp only [List.mem_map, List.mem_filter] at this
        obtain ⟨sl, ⟨hm, hp⟩, rfl⟩ := this
        exact slotFrame_isResponse hs (List.mem_of_mem_drop hm) hp
    · intro hr
      obtain ⟨rfl, rfl⟩ := hn2 hr
      simpa using hn hr

/-- Everything a step of the responder can do, whole iteration or part (R71, R74, R158). What it transmits are responses
when the pending queue and the response on its way out are as the invariant has them (R182); while the block is not
`Running` no `SEND` gets past its tests, and only one that was blocked already can end in success (R264, R265). -/
def ResponderOutcome (s t : State) : Prop :=
  ∃ q m r x d l,
    t =
      { s with
        block := { s.block with rxq := q, mfq := m, release := r, sending := x }
        draws := d
        link := { s.link with txFifo := s.link.txFifo ++ l.map encodeWire }
        ghost := { s.ghost with txLog := s.ghost.txLog ++ l } } ∧
    (q = s.block.rxq ∨ ∃ f, s.block.rxq = f :: q) ∧ m.length = s.block.mfq.length ∧
    (PendingShape s.block.mfq → PendingShape m) ∧ (∀ j, r = some j → r = s.block.release ∨ j ≤ s.block.mfq.length) ∧
    (PendingShape s.block.mfq → (∀ y, s.block.sending = some y → IsResponse y.frame) →
      (∀ f ∈ l, IsResponse f) ∧ ∀ y, x = some y → IsResponse y.frame) ∧
    (l ≠ [] → x = none) ∧ (∀ f, x = some (.blocked f) → s.block.busState = .running) ∧
    (s.block.busState ≠ .running → OnlyBlockedSends s d l)

theorem responder_state {s t : State} (h : respStep s = .next t ∨ respPart s = .next t) : ResponderOutcome s t := by
  have idle : (∀ f, s.block.sending ≠ some (.blocked f)) → t = s → ResponderOutcome s t := fun hb ht =>
    ⟨s.block.rxq, s.block.mfq, s.block.release, s.block.sending, s.draws, [], by rw [ht]; simp, .inl rfl, rfl, id,
      by simp, fun _ hx => ⟨by simp, hx⟩, by simp, fun f hf => absurd hf (hb f), fun _ => .inl ⟨rfl, rfl⟩⟩
  rcases h with h | h
  · unfold respStep at h
    split at h
    · cases h
      obtain ⟨m, r, d, l, e, hm, hp, rfl, hl, hn⟩ := finishIteration_state s
      exact ⟨s.block.rxq, m, none, none, d, l, e, .inl rfl, hm, hp, by simp, fun h1 h2 => ⟨hl h1 h2, by simp⟩,
        fun _ => rfl, by simp, hn⟩
    · next hmid =>
      simp only [midIteration, Bool.or_eq_true, Option.isSome_iff_ne_none, not_or, ne_eq, not_not] at hmid
      split at h
      · cases h
        exact idle (by simp [hmid.1]) rfl
      · next f rest hq =>
        unfold runDecoded at h
        split at h
        · next i hd =>
          obtain ⟨m, r, d, l, e, hm, hp, hr, hl, hn, _⟩ := exec_rxf i (setRxq rest s) (decodeRxf_format hd)
          rw [e] at h
          cases h
          exact ⟨rest, m, r, s.block.sending, d, l, rfl, .inr ⟨f, hq⟩, hm, hp,
            fun j hj => hr.elim .inl (fun h1 => by rw [h1] at hj; cases hj), fun h1 h2 => ⟨hl h1, h2⟩,
            fun _ => hmid.1, by simp [hmid.1], fun hnr => .inl (hn hnr)⟩
        · cases h
  · unfold respPart at h
    split at h
    · next x hx =>
      cases h
      obtain ⟨d, l, y, e, hl, hy, hn⟩ := sendingPart_state x s hx
      refine ⟨s.block.rxq, s.block.mfq, s.block.release, y, d, l, e, .inl rfl, rfl, id, fun j hj => .inl rfl,
        fun _ h2 => ⟨fun f hf => ?_, fun z hz => ?_⟩, fun hne => ?_, fun f hf => ?_, hn⟩
      · rcases hl with rfl | ⟨rfl, _⟩
        · cases hf
        · rw [List.mem_singleton.mp hf]
          exact h2 x hx
      · rcases hy with rfl | ⟨rfl, _⟩
        · cases hz
        · cases hz
          exact h2 x hx
      · rcases hl with h1 | ⟨_, h1⟩
        · exact absurd h1 hne
        · exact h1
      · rcases hy with rfl | ⟨_, h1⟩
        · cases hf
        · exact h1
    · next hs =>
      split at h
      · next i hi =>
        cases h
        obtain ⟨m, r, x, e, hm, hp, hr, hx⟩ := releasePart_state i s
        refine ⟨s.block.rxq, m, r, x, s.draws, [], by simp [e], .inl rfl, hm, hp, fun j hj => .inr (hr j hj),
          fun h1 h2 => ⟨by simp, fun y hy => ?_⟩, by simp, fun f hf => ?_, fun _ => .inl ⟨rfl, rfl⟩⟩
        · rcases hx with rfl | ⟨sl, hm, hp, rfl⟩
          · exact h2 y hy
          · cases hy
            exact slotFrame_isResponse h1 hm hp
        · rcases hx with rfl | ⟨sl, _, _, rfl⟩
          · rw [hs] at hf
            cases hf
          · cases hf
      split at h
      · cases h
        exact idle (by simp [hs]) rfl
      · next f rest hq =>
        split at h
        · next i hd =>
          obtain ⟨m, r, x, e, hm, hp, hr, hx⟩ := beginOperation_rxf i (setRxq rest s) (decodeRxf_format hd)
          rw [e] at h
          cases h
          refine ⟨rest, m, r, x, s.draws, [], by simp, .inr ⟨f, hq⟩, hm, hp, fun j hj => ?_,
            fun h1 h2 => ⟨by simp, fun y hy => ?_⟩, by simp, fun g hg => ?_, fun _ => .inl ⟨rfl, rfl⟩⟩
          · rcases hr with h1 | h1
            · exact .inl h1
            · rw [h1] at hj
              cases hj
              exact .inr (Nat.zero_le _)
          · rcases hx with rfl | ⟨g, rfl, hg⟩
            · exact h2 y hy
            · cases hy
              exact hg
          · rcases hx with rfl | ⟨_, rfl, _⟩
            · simp [hs] at hg
            · cases hg
        · cases h

/-- What one iteration of the active receive loop does to what it may write (R157): the frame taken in, the loss counted, and
the one transition of the alert word `a` it polled. -/
def RxloopMoves (s : State) (a : AlertWord) (rx : List Frame) (drop : Nat) (b : BusState) (l : List CtrlCall) (m n : Nat) : Prop :=
  ((rx = [] ∧ drop = 0) ∨ (∃ f, rx = [f] ∧ drop = 0 ∧ isFrame f = true ∧ s.block.rxq.length < rxqCap) ∨
      (rx = [] ∧ drop = 1 ∧ rxqCap ≤ s.block.rxq.length)) ∧
    ((busOffBit a = true ∧ s.block.busState = .running ∧ b = .busOff ∧ l = [.initiateRecovery] ∧
        m = 1 ∧ n = 0) ∨
      (busRecoveredBit a = true ∧ s.block.busState = .busOff ∧ (b = .running ∨ b = .recovering) ∧
        l = [.start] ∧ m = 0 ∧ n = 1) ∨
      (¬(busOffBit a = true ∧ s.block.busState = .running) ∧
        ¬(busRecoveredBit a = true ∧ s.block.busState = .busOff) ∧ b = s.block.busState ∧ l = [] ∧
        m = 0 ∧ n = 0))

/-- Everything an iteration of the active receive loop can do (R157); without a controller its polls return nothing (R133,
R134). -/
def RxloopOutcome (s t : State) : Prop :=
  ∃ d q rx drop b l m n,
    t =
      { s with
        block := { s.block with busState := b, polledState := s.block.busState, rxq := s.block.rxq ++ rx }
        draws := d
        link :=
          { s.link with
            rxFifo := q, alertsPending := if s.block.ctrlInstalled then 0 else s.link.alertsPending }
        ghost :=
          { s.ghost with
            rxDropped := s.ghost.rxDropped + drop
            ctrlLog := s.ghost.ctrlLog ++ l
            recoveryCalls := s.ghost.recoveryCalls + m
            restartCalls := s.ghost.restartCalls + n } } ∧
    RxloopMoves s (if s.block.ctrlInstalled then s.link.alertsPending else 0) rx drop b l m n

/-- An active receive loop always completes its iteration (R157, R254). -/
theorem rxloopStep_active {s : State} (ha : s.block.rxloopActive = true) :
    ∃ t, rxloopStep s = .next t ∧ RxloopOutcome s t := by
  obtain ⟨d, q, rx, drop, e, hrx⟩ := receivePhase_state s
  rw [rxloopStep, if_pos ha, alertPhase, handlerStep_eq, e]
  refine ⟨_, rfl, ?_⟩
  unfold pollAlerts RxloopOutcome
  have key := fun a k =>
    handleAlerts_state a
      { s with
        block := { s.block with rxq := s.block.rxq ++ rx }
        draws := d
        link := { s.link with rxFifo := q, alertsPending := k }
        ghost := { s.ghost with rxDropped := s.ghost.rxDropped + drop } }
  cases hi : s.block.ctrlInstalled
  · obtain ⟨b, d2, l, m, n, e3, h3⟩ := key 0 s.link.alertsPending
    refine ⟨d2, q, rx, drop, b, l, m, n, ?_, hrx, ?_⟩
    · simpa [hi] using e3
    · rcases h3 with h | h | ⟨h1, h2, h4, _, h5⟩
      · exact .inl h
      · exact .inr (.inl h)
      · exact .inr (.inr ⟨h1, h2, h4, h5⟩)
  · obtain ⟨b, d2, l, m, n, e3, h3⟩ := key s.link.alertsPending 0
    refine ⟨d2, q, rx, drop, b, l, m, n, ?_, hrx, ?_⟩
    · simpa [hi] using e3
    · rcases h3 with h | h | ⟨h1, h2, h4, _, h5⟩
      · exact .inl h
      · exact .inr (.inl h)
      · exact .inr (.inr ⟨h1, h2, h4, h5⟩)

/-- Everything a step of the receive loop can do: nothing while the loop is not active (R26), or one iteration. -/
theorem rxloopStep_cases {s t : State} (h : rxloopStep s = .next t) :
    (s.block.rxloopActive = false ∧ t = s) ∨ (s.block.rxloopActive = true ∧ RxloopOutcome s t) := by
  cases ha : s.block.rxloopActive
  · rw [rxloopStep, if_neg (by simp [ha])] at h
    cases h
    exact .inl ⟨rfl, rfl⟩
  · obtain ⟨u, e, hu⟩ := rxloopStep_active ha
    rw [e] at h
    cases h
    exact .inr ⟨rfl, hu⟩

end Sys2Proof.Machine
end

