-- ==== Sys2Proof/Laws/Codec.lean ====
section
/-! SUPPORT. The codec's integer arithmetic computes the rounding and truncation of R12, and its clamps hold a value in
the range of its bytes. -/

namespace Sys2Proof.Machine

/-- `roundDiv` is `round` (R12). -/
theorem roundDiv_isRound (n : Int) (d : Nat) (hd : 0 < d) : IsRound ((n : Rat) / d) (roundDiv n d) := by
  have hdq : (0 : Rat) < d := by exact_mod_cast hd
  have hd2 : (0 : Int) < 2 * d := by omega
  have key : ∀ m : Int, 0 ≤ m → ∃ q : Int, q = (2 * m + d) / (2 * d) ∧ 0 ≤ q ∧ 2 * d * q ≤ 2 * m + d ∧
      2 * m + d < 2 * d * q + 2 * d := by
    intro m hm
    refine ⟨_, rfl, Int.ediv_nonneg (by omega) (by omega), ?_, ?_⟩
    · have := Int.mul_ediv_self_le (x := 2 * m + d) (k := 2 * d) (by omega)
      linarith
    · have := Int.lt_mul_ediv_self_add (x := 2 * m + d) (k := 2 * d) hd2
      linarith
  have pos : ∀ m q : Int, 0 ≤ m → 0 ≤ q → 2 * d * q ≤ 2 * m + d → 2 * m + d < 2 * d * q + 2 * d →
      IsRound ((m : Rat) / d) q := by
    intro m q hm hq h1 h2
    have h1q : (2 * d * q : Rat) ≤ 2 * m + d := by exact_mod_cast h1
    have h2q : (2 * m + d : Rat) < 2 * d * q + 2 * d := by exact_mod_cast h2
    have hx : (0 : Rat) ≤ (m : Rat) / d := by positivity
    have a1 : (q : Rat) - 1 / 2 ≤ m / d := by
      rw [le_div_iff₀ hdq]
      linarith
    have a2 : (m : Rat) / d < q + 1 / 2 := by
      rw [div_lt_iff₀ hdq]
      linarith
    rcases lt_or_eq_of_le a1 with h | h
    · left
      rw [abs_lt]
      constructor <;> linarith
    · right
      have e : (m : Rat) / d - q = -(1 / 2) := by linarith
      have hq' : (0 : Rat) ≤ q := by exact_mod_cast hq
      refine ⟨by rw [e]; norm_num, ?_⟩
      rw [abs_of_nonneg hx, abs_of_nonneg hq']
      linarith
  unfold roundDiv
  split
  · next hn =>
    obtain ⟨q, e, h0, h1, h2⟩ := key n hn
    rw [← e]
    exact pos n q hn h0 h1 h2
  · next hn =>
    obtain ⟨q, e, h0, h1, h2⟩ := key (-n) (by omega)
    have e' : (-2 * n + d) / (2 * (d : Int)) = q := by rw [e]; congr 1; ring
    rw [e']
    have hp := pos (-n) q (by omega) h0 h1 h2
    have s1 : ((-n : Int) : Rat) / d = -((n : Rat) / d) := by push_cast; ring
    rw [s1] at hp
    have s2 : |(n : Rat) / d - ((-q : Int) : Rat)| = |-((n : Rat) / d) - q| := by
      rw [← abs_neg]
      congr 1
      push_cast
      ring
    have s3 : |(((-q : Int)) : Rat)| = |(q : Rat)| := by push_cast; rw [abs_neg]
    unfold IsRound at hp ⊢
    rw [s2, s3, ← abs_neg ((n : Rat) / d)]
    exact hp

/-- A scaled signal, rounded. -/
theorem scaleRound_isRound (x : Signal) (k : Int) (m : Nat) (hm : 0 < m) :
    IsRound (x * k / m) (scaleRound x k m) := by
  have h := roundDiv_isRound (x.num * k) (x.den * m) (Nat.mul_pos x.den_pos hm)
  have e : ((x.num * k : Int) : Rat) / ((x.den * m : Nat) : Rat) = x * k / m := by
    conv_rhs => rw [← Rat.num_div_den x]
    push_cast
    have hd : (x.den : Rat) ≠ 0 := by exact_mod_cast x.den_nz
    have hm' : (m : Rat) ≠ 0 := by exact_mod_cast hm.ne'
    field_simp
  rw [e] at h
  exact h

/-- `truncDiv` is `trunc` (R12). -/
theorem truncDiv_isTrunc (x : Signal) : IsTrunc x (truncDiv x.num x.den) := by
  have hd : (0 : Int) < x.den := by exact_mod_cast x.den_pos
  have hdq : (0 : Rat) < x.den := by exact_mod_cast x.den_pos
  have ex : (x.num : Rat) / x.den = x := Rat.num_div_den x
  have key : ∀ m : Int, ∃ q : Int, q = m / (x.den : Int) ∧ (q : Rat) ≤ m / x.den ∧ (m : Rat) / x.den < q + 1 := by
    intro m
    refine ⟨_, rfl, ?_, ?_⟩
    · rw [le_div_iff₀ hdq]
      have := Int.ediv_mul_le m (ne_of_gt hd)
      exact_mod_cast this
    · rw [div_lt_iff₀ hdq]
      have := Int.lt_ediv_add_one_mul_self m hd
      exact_mod_cast this
  unfold truncDiv
  split
  · next hn =>
    obtain ⟨q, e, h1, h2⟩ := key x.num
    rw [← e]
    rw [ex] at h1 h2
    exact .inl ⟨Rat.num_nonneg.mp hn, h1, h2⟩
  · next hn =>
    obtain ⟨q, e, h1, h2⟩ := key (-x.num)
    rw [← e]
    have s : ((-x.num : Int) : Rat) / x.den = -x := by push_cast; rw [neg_div, ex]
    rw [s] at h1 h2
    refine .inr ⟨Rat.num_neg.mp (by omega), ?_, ?_⟩ <;> push_cast <;> linarith

/-- A clamp to a byte (R194). -/
theorem ofInt_clamp_byte (z : Int) : BitVec.ofInt 8 (clamp z 0 255) = BitVec.ofNat 8 (heldIn 255 z) := by
  have h : clamp z 0 255 = ((heldIn 255 z : Nat) : Int) := by
    unfold clamp heldIn
    split
    · omega
    · split <;> omega
  rw [h]
  rfl

/-- A clamp to two bytes (R194). -/
theorem ofInt_clamp_word (z : Int) : BitVec.ofInt 16 (clamp z 0 65535) = BitVec.ofNat 16 (heldIn 65535 z) := by
  have h : clamp z 0 65535 = ((heldIn 65535 z : Nat) : Int) := by
    unfold clamp heldIn
    split
    · omega
    · split <;> omega
  rw [h]
  rfl

theorem heldIn_le (hi : Nat) (z : Int) : heldIn hi z ≤ hi := by
  unfold heldIn
  omega

end Sys2Proof.Machine
end

