-- ==== Sys2Proof/Laws/Step.lean ====
section
/-! SUPPORT. Everything a host command can do and everything a step can do, each said once. -/

namespace Sys2Proof.Machine

/-- Everything a host command can do (R130 to R135, R149, R277): only `VS_WRITE` moves the Vehicle State, only `STOP` and
`CONFIGURE_START` move the bus state, counters move only under a fresh install, the logs grow, nothing is transmitted
unless `Running`, and the queues of the block and the responder's response on its way out are left alone. -/
def CommandOutcome (i : Instr) (s t : State) : Prop :=
  t.script = s.script ∧ t.turn = s.turn ∧ t.params = s.params ∧ t.block.rxq = s.block.rxq ∧
    t.block.mfq = s.block.mfq ∧ t.block.release = s.block.release ∧ t.block.sending = s.block.sending ∧
    (t.block.vs = s.block.vs ∨ ∃ u, i = .vsWrite u) ∧
    ((t.block.busState = s.block.busState ∧ t.block.ctrlInstalled = s.block.ctrlInstalled) ∨
      (t.block.busState = .stopped ∧ i = .stop ∧ t.block.ctrlInstalled = false) ∨
      (t.block.busState = .running ∧ (∃ rate tx rx, i = .configureStart rate tx rx) ∧
        s.block.ctrlInstalled = false)) ∧
    (t.link.counters = s.link.counters ∨ s.block.ctrlInstalled = false) ∧
    (∃ l, t.ghost.txLog = s.ghost.txLog ++ l ∧
      (s.block.busState ≠ .running → l = [] ∧ t.link.txFifo = s.link.txFifo)) ∧
    (∃ l, t.ghost.ctrlLog = s.ghost.ctrlLog ++ l) ∧ t.ghost.recoveryCalls = s.ghost.recoveryCalls ∧
    t.ghost.restartCalls = s.ghost.restartCalls ∧ t.ghost.rxDropped = s.ghost.rxDropped

theorem exec_command {s t : State} (i : Instr) (hi : i.format = .cmd) (e : exec i s = .next t) :
    CommandOutcome i s t := by
  unfold CommandOutcome
  cases i with
  | configureStart rate tx rx =>
    cases e
    rcases configureStart_cases rate tx rx s with ⟨_, e⟩ | ⟨_, _, e⟩ | ⟨_, _, _, e⟩ | ⟨h0, _, _, e⟩ <;> rw [e] <;>
      simp_all [raise, returns]
  | stop =>
    cases e
    rw [stopController_eq]
    simp [returns]
    split <;> simp
  | send f timeout =>
    cases e
    have h : ∀ r, CommandOutcome (.send f timeout) s { (send f timeout s).2 with result := r } := by
      intro r
      rcases send_state_cases f timeout s with e | e | ⟨_, hr, e⟩ <;> rw [e] <;> simp [CommandOutcome, acceptFrame]
      exact hr
    unfold sendResult
    split <;> exact h _
  | pollReceive timeout =>
    cases e
    obtain ⟨d, q, e, _⟩ := pollReceive_cases timeout s
    rw [e]
    simp [returns]
  | pollAlerts =>
    cases e
    unfold pollAlerts
    split <;> simp [returns]
  | getStatus =>
    cases e
    simp [returns]
  | diagReport =>
    cases e
    simp [returns]
  | vsWrite u =>
    cases e
    simp [returns]
  | obdShort _ _ _ => cases hi
  | obdM1Pid00 _ _ => cases hi
  | obdM1Pid05 _ _ => cases hi
  | obdM1Pid0C _ _ => cases hi
  | obdM1Pid0D _ _ => cases hi
  | obdM1Pid11 _ _ => cases hi
  | obdM1Pid2F _ _ => cases hi
  | obdM1Unsup _ _ _ => cases hi
  | obdM9Pid00 _ _ => cases hi
  | obdM9Pid02 _ _ => cases hi
  | obdM9Unsup _ _ _ => cases hi
  | obdModeUnsup _ _ _ _ => cases hi
  | fcCont _ _ _ => cases hi
  | fcOther _ _ _ _ => cases hi
  | rxIgnore _ => cases hi
  | alertBusOff _ => cases hi
  | alertBusRecovered _ => cases hi

/-- A step of the host runs the command its bytes spell, which is not one of the three calls of R306 while the loops
run. -/
theorem hostStep_next {bytes : List Byte} {s t : State} (h : hostStep bytes s = .next t) :
    ∃ i, decode (.cmd bytes) = .ok i ∧ (isLoopCall i = true → s.block.rxloopActive = false) ∧ exec i s = .next t := by
  unfold hostStep at h
  split at h
  · next i hd =>
    split at h
    · cases h
    · next hl => exact ⟨i, hd, by simpa using hl, h⟩
  · cases h

/-- What a step of the Link can do to the block and to what is said of it (R14, R28, R32, R33, R73). -/
def LinkOutcome (s t : State) : Prop :=
  t.block = s.block ∧ t.ghost = s.ghost ∧ t.params = s.params ∧
    (t.link.counters = s.link.counters ∨
      ∃ c, fitsCounters s.params c = true ∧ t.link.counters = advanceCounters s.link.counters c) ∧
    ∀ w ∈ t.link.txFifo, w ∈ s.link.txFifo

/-- Everything the step of the event `e` can do, from the state `s` in which the event is taken. -/
def StepOutcome (e : Event) (s t : State) : Prop :=
  ((e = .resp ∨ e = .respPart) ∧ ResponderOutcome s t) ∨
    (e = .rxloop ∧ ((s.block.rxloopActive = false ∧ t = s) ∨ (s.block.rxloopActive = true ∧ RxloopOutcome s t))) ∨
    (∃ i, isCommand e i ∧ CommandOutcome i s t) ∨
    (∃ key value, e = .hostKey key value ∧ (t = s ∨ ∃ u, CommandOutcome (.vsWrite u) s t)) ∨
    LinkOutcome s t

theorem step_outcome {s t : State} (h : step s = .next t) : StepOutcome (nextEvent s).1 (nextEvent s).2 t := by
  unfold step at h
  unfold StepOutcome
  generalize (nextEvent s).2 = s' at h
  generalize (nextEvent s).1 = ev at h
  cases ev with
  | resp => exact .inl ⟨.inl rfl, responder_state (.inl h)⟩
  | respPart => exact .inl ⟨.inr rfl, responder_state (.inr h)⟩
  | rxloop => exact .inr (.inl ⟨rfl, rxloopStep_cases h⟩)
  | host bytes =>
    obtain ⟨i, hd, _, he⟩ := hostStep_next h
    exact .inr (.inr (.inl ⟨i, ⟨bytes, rfl, hd⟩, exec_command i (decodeCmd_format hd) he⟩))
  | hostKey key value =>
    change hostKeyStep key value s' = _ at h
    unfold hostKeyStep at h
    split at h
    · cases h
      exact .inr (.inr (.inr (.inl ⟨key, value, rfl, .inl rfl⟩)))
    · exact .inr (.inr (.inr (.inl ⟨key, value, rfl, .inr ⟨_, exec_command _ rfl h⟩⟩)))
  | rx w =>
    cases h
    unfold linkReceives
    split <;> simp [LinkOutcome]
  | alert a =>
    cases h
    unfold linkRaises
    split <;> simp [LinkOutcome]
  | linkSend o =>
    cases h
    simp [LinkOutcome]
  | linkCtrl o =>
    cases h
    simp [LinkOutcome]
  | linkRecv o =>
    cases h
    simp [LinkOutcome]
  | linkCounters c =>
    cases h
    rcases linkReports_cases c s' with ⟨hc, e⟩ | ⟨_, e⟩ <;> rw [e]
    · exact .inr (.inr (.inr (.inr ⟨rfl, rfl, rfl, .inr ⟨c, hc, rfl⟩, fun _ => id⟩)))
    · exact .inr (.inr (.inr (.inr ⟨rfl, rfl, rfl, .inl rfl, fun _ => id⟩)))
  | linkHidden rxFifo opState =>
    cases h
    simp [linkMoves, LinkOutcome]
  | linkTxDone =>
    cases h
    exact .inr (.inr (.inr (.inr ⟨rfl, rfl, rfl, .inl rfl, fun w => List.mem_of_mem_drop⟩)))

end Sys2Proof.Machine
end

