-- ==== Sys2Proof/Laws/Table.lean ====
section
/-! SUPPORT. What the masks and matches of the operation map (R110) test, in terms of the fields of the dispatch word
(R105). -/

namespace Sys2Proof

theorem slice_getLsbD {w : Nat} (v : BitVec w) (lo n i : Nat) :
    (slice v lo n).getLsbD i = (decide (i < n) && v.getLsbD (lo + i)) := by
  simp [slice, BitVec.getLsbD_extractLsb']

theorem or_and_distrib (x y z : DispatchWord) : (x ||| y) &&& z = (x &&& z) ||| (y &&& z) := by
  ext i
  simp
  grind

theorem and_or_distrib (x y z : DispatchWord) : x &&& (y ||| z) = (x &&& y) ||| (x &&& z) := by
  ext i
  simp
  grind

/-- The flags and the identifier: bits 28 to 40, a standard data frame. -/
theorem mask_header (w : DispatchWord) (id : BitVec 11) :
    (w &&& 0x1FFF0000000 == place 41 28 id) = (!w.getLsbD 40 && !w.getLsbD 39 && slice w 28 11 == id) := by
  rw [Bool.eq_iff_iff]
  simp only [beq_iff_eq, Bool.and_eq_true, Bool.not_eq_true']
  constructor
  · intro h
    have hb : ∀ i, (w &&& 0x1FFF0000000).getLsbD i = (place 41 28 id).getLsbD i := fun i => by rw [h]
    simp only [BitVec.getLsbD_and, place_getLsbD] at hb
    refine ⟨⟨by simpa using hb 40, by simpa using hb 39⟩, ?_⟩
    apply BitVec.eq_of_getLsbD_eq
    intro i hi
    have := hb (28 + i)
    rw [slice_getLsbD]
    interval_cases i <;> simpa using this
  · rintro ⟨⟨h40, h39⟩, hid⟩
    have hb : ∀ i, (slice w 28 11).getLsbD i = id.getLsbD i := fun i => by rw [hid]
    simp only [slice_getLsbD] at hb
    apply BitVec.eq_of_getLsbD_eq
    intro i hi
    simp only [BitVec.getLsbD_and, place_getLsbD]
    have := hb (i - 28)
    interval_cases i <;> simp_all

/-- One byte field. -/
theorem mask_byte (w : DispatchWord) (k : Nat) (hk : k < 3) (b : Byte) :
    (w &&& place 41 (8 * k) (0xFF#8) == place 41 (8 * k) b) = (slice w (8 * k) 8 == b) := by
  rw [Bool.eq_iff_iff]
  simp only [beq_iff_eq]
  constructor
  · intro h
    have hb : ∀ i, (w &&& place 41 (8 * k) (0xFF#8)).getLsbD i = (place 41 (8 * k) b).getLsbD i := fun i => by rw [h]
    simp only [BitVec.getLsbD_and, place_getLsbD] at hb
    apply BitVec.eq_of_getLsbD_eq
    intro i hi
    have := hb (8 * k + i)
    rw [slice_getLsbD]
    interval_cases k <;> interval_cases i <;> simpa using this
  · rintro rfl
    apply BitVec.eq_of_getLsbD_eq
    intro i hi
    simp only [BitVec.getLsbD_and, place_getLsbD, slice_getLsbD]
    interval_cases k <;> interval_cases i <;> simp

/-- A test of two disjoint fields is a test of each. -/
theorem mask_or (w a b p q : DispatchWord) (hpb : p &&& b = 0) (hqa : q &&& a = 0) (hpa : p &&& a = p)
    (hqb : q &&& b = q) : (w &&& (a ||| b) == p ||| q) = (w &&& a == p && w &&& b == q) := by
  rw [Bool.eq_iff_iff]
  simp only [beq_iff_eq, Bool.and_eq_true]
  constructor
  · intro h
    have absorb : ∀ c, c = a ∨ c = b → w &&& (a ||| b) &&& c = w &&& c := by
      rintro c (rfl | rfl) <;> ext i <;> simp <;> grind
    constructor
    · rw [← absorb a (.inl rfl), h, or_and_distrib, hpa, hqa]
      simp
    · rw [← absorb b (.inr rfl), h, or_and_distrib, hpb, hqb]
      simp
  · rintro ⟨rfl, rfl⟩
    rw [and_or_distrib]

/-- The byte fields do not meet each other nor the header. -/
theorem byte_fields_disjoint : ∀ b : Byte,
    place 41 8 b &&& 0x1FFF0000000 = 0 ∧ place 41 8 b &&& place 41 8 0xFF#8 = place 41 8 b ∧
      place 41 8 b &&& place 41 0 0xFF#8 = 0 ∧ place 41 0 b &&& 0x1FFF0000000 = 0 ∧
      place 41 0 b &&& place 41 0 0xFF#8 = place 41 0 b ∧ place 41 0 b &&& place 41 8 0xFF#8 = 0 := by
  decide

/-- The word is of a standard data frame with identifier `0x7DF`. -/
def isFunctional (w : DispatchWord) : Bool := !w.getLsbD 40 && !w.getLsbD 39 && slice w 28 11 == idFuncReq

/-- The word is of a standard data frame with identifier `0x7E0`. -/
def isPhysical (w : DispatchWord) : Bool := !w.getLsbD 40 && !w.getLsbD 39 && slice w 28 11 == idPhysReq

/-- Rows 1 and 12. -/
theorem selects_header (w : DispatchWord) (m : String) (lo hi : Nat) :
    (RxfRow.mk m 0x1FFF0000000 0x07DF0000000 lo hi).selects w =
      (isFunctional w && decide (lo ≤ (slice w 24 4).toNat) && decide ((slice w 24 4).toNat ≤ hi)) := by
  have h := mask_header w idFuncReq
  rw [show place 41 28 idFuncReq = 0x07DF0000000 by decide] at h
  simp only [RxfRow.selects, h, isFunctional]

/-- Rows 8 and 11. -/
theorem selects_mode (w : DispatchWord) (m : String) (lo hi : Nat) (mode : Byte) (p : DispatchWord)
    (hp : p = 0x07DF0000000 ||| place 41 8 mode) :
    (RxfRow.mk m 0x1FFF000FF00 p lo hi).selects w =
      (isFunctional w && slice w 8 8 == mode && decide (lo ≤ (slice w 24 4).toNat) &&
        decide ((slice w 24 4).toNat ≤ hi)) := by
  obtain ⟨m1, m2, _⟩ := byte_fields_disjoint mode
  have h := mask_header w idFuncReq
  rw [show place 41 28 idFuncReq = 0x07DF0000000 by decide] at h
  have h1 := mask_byte w 1 (by decide) mode
  have e := mask_or w 0x1FFF0000000 (place 41 8 0xFF#8) 0x07DF0000000 (place 41 8 mode) (by decide) m1 (by decide) m2
  rw [h, h1, ← hp, show (0x1FFF0000000 ||| place 41 8 0xFF#8) = 0x1FFF000FF00 by decide] at e
  simp only [RxfRow.selects, e, isFunctional]

/-- Rows 2 to 7, 9 and 10. -/
theorem selects_pid (w : DispatchWord) (m : String) (lo hi : Nat) (mode pid : Byte) (p : DispatchWord)
    (hp : p = 0x07DF0000000 ||| place 41 8 mode ||| place 41 0 pid) :
    (RxfRow.mk m 0x1FFF000FFFF p lo hi).selects w =
      (isFunctional w && slice w 8 8 == mode && slice w 0 8 == pid && decide (lo ≤ (slice w 24 4).toNat) &&
        decide ((slice w 24 4).toNat ≤ hi)) := by
  obtain ⟨m1, m2, m3, _⟩ := byte_fields_disjoint mode
  obtain ⟨_, _, _, p4, p5, p6⟩ := byte_fields_disjoint pid
  have h := mask_header w idFuncReq
  rw [show place 41 28 idFuncReq = 0x07DF0000000 by decide] at h
  have h1 := mask_byte w 1 (by decide) mode
  have h0 := mask_byte w 0 (by decide) pid
  have e := mask_or w 0x1FFF0000000 (place 41 8 0xFF#8) 0x07DF0000000 (place 41 8 mode) (by decide) m1 (by decide) m2
  rw [h, h1] at e
  have hz : (0x07DF0000000 : DispatchWord) &&& place 41 0 0xFF#8 = 0 := by decide
  have hk : (0x07DF0000000 : DispatchWord) &&& (0x1FFF0000000 ||| place 41 8 0xFF#8) = 0x07DF0000000 := by decide
  have e2 := mask_or w (0x1FFF0000000 ||| place 41 8 0xFF#8) (place 41 0 0xFF#8) (0x07DF0000000 ||| place 41 8 mode)
    (place 41 0 pid) (by rw [or_and_distrib, hz, m3]; rfl) (by rw [and_or_distrib, p4, p6]; rfl)
    (by rw [or_and_distrib, hk, and_or_distrib, m1, m2]; simp) p5
  rw [e, h0, ← hp,
    show (0x1FFF0000000 ||| place 41 8 0xFF#8 ||| place 41 0 0xFF#8) = 0x1FFF000FFFF by decide] at e2
  simp only [RxfRow.selects, e2, isFunctional]

/-- Row 13. -/
theorem selects_continue (w : DispatchWord) (m : String) (lo hi : Nat) :
    (RxfRow.mk m 0x1FFF0FF0000 0x07E00300000 lo hi).selects w =
      (isPhysical w && slice w 16 8 == fcContinue && decide (lo ≤ (slice w 24 4).toNat) &&
        decide ((slice w 24 4).toNat ≤ hi)) := by
  have h := mask_header w idPhysReq
  rw [show place 41 28 idPhysReq = 0x07E00000000 by decide] at h
  have h1 := mask_byte w 2 (by decide) fcContinue
  have e := mask_or w 0x1FFF0000000 (place 41 (8 * 2) 0xFF#8) 0x07E00000000 (place 41 (8 * 2) fcContinue) (by decide)
    (by decide) (by decide) (by decide)
  rw [h, h1, show (0x1FFF0000000 ||| place 41 (8 * 2) 0xFF#8) = 0x1FFF0FF0000 by decide,
    show (0x07E00000000 ||| place 41 (8 * 2) fcContinue) = 0x07E00300000 by decide] at e
  simp only [RxfRow.selects, e, isPhysical]

/-- Row 14. -/
theorem selects_physical (w : DispatchWord) (m : String) (lo hi : Nat) :
    (RxfRow.mk m 0x1FFF0000000 0x07E00000000 lo hi).selects w =
      (isPhysical w && decide (lo ≤ (slice w 24 4).toNat) && decide ((slice w 24 4).toNat ≤ hi)) := by
  have h := mask_header w idPhysReq
  rw [show place 41 28 idPhysReq = 0x07E00000000 by decide] at h
  simp only [RxfRow.selects, h, isPhysical]

/-- Row 15. -/
theorem selects_any (w : DispatchWord) (m : String) (lo hi : Nat) :
    (RxfRow.mk m 0 0 lo hi).selects w =
      (decide (lo ≤ (slice w 24 4).toNat) && decide ((slice w 24 4).toNat ≤ hi)) := by
  simp [RxfRow.selects]

end Sys2Proof
end

