-- ==== Sys2Proof/Tests/Slice0.lean ====
section
/-! SUPPORT. Small tests, each on fixed values: the smoke test of the well-formedness checks, words written out from the
spec's encodings, the spec's vectors (`spec/95_test_vectors.md`), and for every obligation with hypotheses a witness
that meets them. -/

namespace Sys2Proof.Tests

open Sys2Proof Sys2Proof.Machine

/-! ## Well-formedness: one ill-formed term for each check -/

theorem test_wf_short_dlc : (Instr.obdShort 3 0 0).wf = false := by decide
theorem test_wf_short_past_dlc : (Instr.obdShort 1 0x02 0x01).wf = false := by decide
theorem test_wf_m1pid00_dlc : (Instr.obdM1Pid00 2 0).wf = false := by decide
theorem test_wf_m1pid05_dlc : (Instr.obdM1Pid05 9 0).wf = false := by decide
theorem test_wf_m1pid0C_dlc : (Instr.obdM1Pid0C 2 0).wf = false := by decide
theorem test_wf_m1pid0D_dlc : (Instr.obdM1Pid0D 9 0).wf = false := by decide
theorem test_wf_m1pid11_dlc : (Instr.obdM1Pid11 2 0).wf = false := by decide
theorem test_wf_m1pid2F_dlc : (Instr.obdM1Pid2F 9 0).wf = false := by decide
theorem test_wf_m1unsup_pid : (Instr.obdM1Unsup 8 0 0x2F).wf = false := by decide
theorem test_wf_m1unsup_dlc : (Instr.obdM1Unsup 2 0 0x99).wf = false := by decide
theorem test_wf_m9pid00_dlc : (Instr.obdM9Pid00 2 0).wf = false := by decide
theorem test_wf_m9pid02_dlc : (Instr.obdM9Pid02 9 0).wf = false := by decide
theorem test_wf_m9unsup_pid : (Instr.obdM9Unsup 8 0 0x02).wf = false := by decide
theorem test_wf_mode_unsup : (Instr.obdModeUnsup 8 0 0x09 0).wf = false := by decide
theorem test_wf_mode_unsup_m1 : (Instr.obdModeUnsup 8 0 0x01 0).wf = false := by decide
theorem test_wf_fccont_dlc : (Instr.fcCont 0 0 0).wf = false := by decide
theorem test_wf_fccont_past_dlc : (Instr.fcCont 2 0x01 0x01).wf = false := by decide
theorem test_wf_fcother_continue : (Instr.fcOther 8 0x30 0 0).wf = false := by decide
theorem test_wf_fcother_dlc : (Instr.fcOther 9 0x31 0 0).wf = false := by decide
theorem test_wf_ignore_request : (Instr.rxIgnore ⟨false, false, 0x7DF, 8, 0, 0, 0⟩).wf = false := by decide
theorem test_wf_ignore_dlc : (Instr.rxIgnore ⟨true, false, 0x7DF, 9, 0, 0, 0⟩).wf = false := by decide
theorem test_wf_rate_positive : (Instr.configureStart 0 5 4).wf = false := by decide
theorem test_wf_send_bytes : (Instr.send ⟨false, false, 0x7E8, 2, [0x01]⟩ 0).wf = false := by decide
theorem test_wf_send_dlc : (Instr.send ⟨false, false, 0x7E8, 16, []⟩ 0).wf = false := by decide
theorem test_wf_busoff_bit : (Instr.alertBusOff 0x2).wf = false := by decide
theorem test_wf_busrecovered_bit : (Instr.alertBusRecovered 0x1).wf = false := by decide

/-! ## Decoding: the words of the spec

`test_decode_bits_*` spell a word field by field, in the order of R105: `extd`, `rtr`, `id`, `dlc`, `d0`, `d1`, `d2`. -/

theorem test_decode_bits_pid0C :
    decode (.rxf 0b0_0_11111011111_1000_00000010_00000001_00001100#41) = .ok (.obdM1Pid0C 8 0x02) := by decide
theorem test_decode_bits_vin :
    decode (.rxf 0b0_0_11111011111_1000_00000010_00001001_00000010#41) = .ok (.obdM9Pid02 8 0x02) := by decide
theorem test_decode_bits_fccont :
    decode (.rxf 0b0_0_11111100000_0001_00110000_00000000_00000000#41) = .ok (.fcCont 1 0 0) := by decide
theorem test_decode_bits_remote :
    decode (.rxf 0b0_1_11111011111_1000_00000000_00000000_00000000#41) =
      .ok (.rxIgnore ⟨false, true, 0x7DF, 8, 0, 0, 0⟩) := by decide

/-- V12, V15 to V18, V20, V24 to V26. -/
theorem test_decode_vectors :
    decode (.rxf 0x07DF2020100) = .ok (.obdShort 2 0x02 0x01) ∧
      decode (.rxf 0x07DF8020199) = .ok (.obdM1Unsup 8 0x02 0x99) ∧
      decode (.rxf 0x07DF802090A) = .ok (.obdM9Unsup 8 0x02 0x0A) ∧
      decode (.rxf 0x07DF8010300) = .ok (.obdModeUnsup 8 0x01 0x03 0x00) ∧
      decode (.rxf 0x07E00000000) = .ok (.fcOther 0 0 0 0) ∧
      decode (.rxf 0x07DF8100801) = .ok (.obdModeUnsup 8 0x10 0x08 0x01) ∧
      decode (.rxf 0x07E18300000) = .ok (.rxIgnore ⟨false, false, 0x7E1, 8, 0x30, 0, 0⟩) := by decide

/-- The rows of R110 not met above, each with a DLC its condition admits. -/
theorem test_decode_rows :
    decode (.rxf 0x07DF8020100) = .ok (.obdM1Pid00 8 0x02) ∧
      decode (.rxf 0x07DF3020105) = .ok (.obdM1Pid05 3 0x02) ∧
      decode (.rxf 0x07DF3FF010D) = .ok (.obdM1Pid0D 3 0xFF) ∧
      decode (.rxf 0x07DF8020111) = .ok (.obdM1Pid11 8 0x02) ∧
      decode (.rxf 0x07DF802012F) = .ok (.obdM1Pid2F 8 0x02) ∧
      decode (.rxf 0x07DF8020900) = .ok (.obdM9Pid00 8 0x02) ∧
      decode (.rxf 0x07E08310000) = .ok (.fcOther 8 0x31 0 0) := by decide

/-- R94, R105: no Frame has a DLC field of 9, and bytes past the DLC are not interpreted. -/
theorem test_decode_dlc :
    decode (.rxf 0x07DF9020100) = .reject .noFrame ∧ decode (.rxf 0x07DF202010C) = .ok (.obdShort 2 0x02 0x01) := by
  decide

/-- R101: the eight command codes, with operands in the encoding of notes/assumptions/6.md. -/
theorem test_decode_commands :
    decode (.cmd [0x02, 0x05]) = .ok (.pollReceive 5) ∧ decode (.cmd [0x03]) = .ok .pollAlerts ∧
      decode (.cmd [0x04]) = .ok .stop ∧ decode (.cmd [0x05]) = .ok .getStatus ∧
      decode (.cmd [0x06, 0x05, 0x01, 0x41]) = .ok (.vsWrite (.vin [0x41])) ∧ decode (.cmd [0x07]) = .ok .diagReport := by
  decide
theorem test_decode_configure_start :
    decode (.cmd [0x00, 0xF3, 0x03, 0x00, 0x05, 0x04]) = .ok (.configureStart 500 5 4) := by decide
theorem test_decode_send :
    decode (.cmd [0x01, 0x00, 0x00, 0x00, 0x00, 0x00, 0x00, 0x00, 0xAB, 0x81, 0x7E, 0x00, 0x00, 0x00, 0x07]) =
      .ok (.send ⟨false, false, 0x7E8, 1, [0xAB]⟩ 7) := by decide
theorem test_decode_reserved_command :
    decode (.cmd [0x08]) = .reject (.reservedCommand 0x08) ∧ decode (.cmd [0xFF]) = .reject (.reservedCommand 0xFF) := by
  decide
theorem test_decode_bad_commands :
    decode (.cmd []) = .reject .noCommand ∧ decode (.cmd [0x02]) = .reject (.badOperands 0x02) ∧
      decode (.cmd [0x04, 0x01]) = .reject (.trailingBytes 0x04) := by decide

/-- R112: an alert word may select both handlers, or none. -/
theorem test_decode_alerts :
    selected (.alert 0x3) = [.alertBusOff 0x3, .alertBusRecovered 0x3] ∧ decode (.alert 0x1) = .ok (.alertBusOff 0x1) ∧
      decode (.alert 0x2) = .ok (.alertBusRecovered 0x2) ∧ decode (.alert 0x4) = .reject .noHandler := by decide

/-- V10 and V14: the dispatch words of two frames. -/
theorem test_dispatch_word :
    dispatchWord ⟨false, false, 0x7DF, 8, [0x02, 0x01, 0x0C, 0, 0, 0, 0, 0]⟩ = 0x07DF802010C ∧
      dispatchWord ⟨false, true, 0x7DF, 8, [0, 0, 0, 0, 0, 0, 0, 0]⟩ = 0x0FDF8000000 := by decide

/-! ## The wire representation (V1 to V8) -/

theorem test_wire_encode :
    encodeWire (frame7E8 0x04 0x41 0x0C 0x32 0x00 0x00 0x00 0x00) = 0x7E8804410C3200000000#99 ∧
      encodeWire ⟨false, false, 0x7DF, 3, [0x02, 0x01, 0x0D]⟩ = 0x7DF302010D0000000000#99 ∧
      encodeWire ⟨true, false, 0x18DAF110, 2, [0xAB, 0xCD]⟩ = 0x58DAF1102ABCD000000000000#99 := by decide
theorem test_wire_encode_flags :
    encodeWire ⟨false, true, 0x7DF, 0, []⟩ = 0x200007DF00000000000000000#99 ∧ encodeWire ⟨false, false, 0, 0, []⟩ = 0 ∧
      encodeWire ⟨true, true, 0x1FFFFFFF, 8, [0xFF, 0xFF, 0xFF, 0xFF, 0xFF, 0xFF, 0xFF, 0xFF]⟩ =
        0x7FFFFFFF8FFFFFFFFFFFFFFFF#99 := by decide
theorem test_wire_decode :
    decodeWire 0x7E8804410C3200000000#99 = some (frame7E8 0x04 0x41 0x0C 0x32 0x00 0x00 0x00 0x00) ∧
      decodeWire 0x58DAF1102ABCD000000000000#99 = some ⟨true, false, 0x18DAF110, 2, [0xAB, 0xCD]⟩ := by decide
theorem test_wire_no_frame :
    decodeWire 0x12390000000000000000#99 = none ∧ decodeWire 0x80010000000000000000#99 = none := by decide

/-! ## The codec (V30 to V58) -/

/-- The rational `n / d`. -/
def ratio (n : Int) (d : Nat) (h : d ≠ 0 := by decide) (c : n.natAbs.Coprime d := by decide) : Rat := ⟨n, d, h, c⟩

theorem test_codec_rpm :
    refEnc0C (ratio 3200 1) = 0x3200 ∧ refEnc0C (ratio 1 8) = 0x0001 ∧ refEnc0C (ratio 1 10) = 0x0000 ∧
      refEnc0C (ratio 3201 4) = 0x0C81 ∧ refEnc0C (ratio 7999 10) = 0x0C80 := by decide
theorem test_codec_rpm_ends :
    refEnc0C (ratio 65535 4) = 0xFFFF ∧ refEnc0C (ratio 131071 8) = 0xFFFF ∧ refEnc0C (ratio 20000 1) = 0xFFFF ∧
      refEnc0C (ratio (-1) 8) = 0x0000 ∧ refEnc0C (ratio (-5) 1) = 0x0000 := by decide
theorem test_codec_speed :
    refEnc0D (ratio 859 10) = 0x55 ∧ refEnc0D (ratio 2559 10) = 0xFF ∧ refEnc0D (ratio 300 1) = 0xFF ∧
      refEnc0D (ratio (-9) 10) = 0x00 ∧ refEnc0D (ratio (-3) 1) = 0x00 := by decide
theorem test_codec_coolant :
    refEnc05 (ratio 90 1) = 0x82 ∧ refEnc05 (ratio 179 2) = 0x82 ∧ refEnc05 (ratio (-1) 2) = 0x27 ∧
      refEnc05 (ratio 2 5) = 0x28 ∧ refEnc05 (ratio (-81) 2) = 0x00 ∧ refEnc05 (ratio 429 2) = 0xFF := by decide
theorem test_codec_throttle :
    refEnc11 (ratio 50 1) = 0x80 ∧ refEnc11 (ratio 10 1) = 0x1A ∧ refEnc11 (ratio 333 10) = 0x55 ∧
      refEnc11 (ratio 19 100) = 0x00 ∧ refEnc11 (ratio 1 5) = 0x01 ∧ refEnc11 (ratio 150 1) = 0xFF := by decide
theorem test_codec_fuel :
    refEnc2F (ratio 75 1) = 0xBF ∧ refEnc2F (ratio 20 1) = 0x33 ∧ refEnc2F (ratio (-1) 1) = 0x00 := by decide
theorem test_codec_decoders :
    dec0C 0x32 0x00 = 3200 ∧ dec0C 0xFF 0xFF = 65535 / 4 ∧ dec0D 0x55 = 85 ∧ dec05 0x82 = 90 ∧ dec05 0x00 = -40 ∧
      dec11 0xFF = 100 ∧ dec2F 0xBF = 19100 / 255 := by
  simp [dec0C, dec0D, dec05, dec11, dec2F]
  norm_num

/-! ## The segmenter (V70 to V78) -/

/-- `ESP32OBD2EMULATOR`. -/
def vinEsp : Vector Byte 17 :=
  #v[0x45, 0x53, 0x50, 0x33, 0x32, 0x4F, 0x42, 0x44, 0x32, 0x45, 0x4D, 0x55, 0x4C, 0x41, 0x54, 0x4F, 0x52]

theorem test_n_cf : [8, 13, 14, 20, 21, 111, 4095].map nCf = [1, 1, 2, 2, 3, 15, 585] := by decide
theorem test_seq :
    ([1, 2, 15, 16, 17, 31, 32].map fun k => (cfBuild k [])[0]) = [0x21, 0x22, 0x2F, 0x20, 0x21, 0x2F, 0x20] := by decide
theorem test_ff_length :
    ([20, 256, 4095].map fun l => (ffBuild [] l).data) = [[0x10, 0x14], [0x11, 0x00], [0x1F, 0xFF]] := by decide
theorem test_vin_payload :
    vinPayload .literal vinEsp =
        [0x49, 0x02, 0x45, 0x53, 0x50, 0x00, 0x33, 0x32, 0x4F, 0x42, 0x44, 0x32, 0x45, 0x4D, 0x55, 0x4C, 0x41, 0x54, 0x4F,
          0x52] ∧
      vinPayload .itemCount vinEsp =
        [0x49, 0x02, 0x01, 0x45, 0x53, 0x50, 0x33, 0x32, 0x4F, 0x42, 0x44, 0x32, 0x45, 0x4D, 0x55, 0x4C, 0x41, 0x54, 0x4F,
          0x52] := by decide
theorem test_short_last_frame :
    (ffBuild [1, 2, 3, 4, 5, 6, 7, 8, 9] 9).data = [0x10, 0x09, 1, 2, 3, 4, 5, 6] ∧
      populate [1, 2, 3, 4, 5, 6, 7, 8, 9] 9 1 [zeroSlot] = [#v[0x21, 7, 8, 9, 0, 0, 0, 0]] := by decide

/-! ## A small machine for the one-step tests -/

/-- The two Consecutive Frames of W5. -/
def espSlots : List Slot :=
  [#v[0x21, 0x33, 0x32, 0x4F, 0x42, 0x44, 0x32, 0x45], #v[0x22, 0x4D, 0x55, 0x4C, 0x41, 0x54, 0x4F, 0x52]]

/-- The block in a bus state, with the signals of the worked examples. -/
def blockIn (b : BusState) : Block :=
  { busState := b
    ctrlInstalled := b != .stopped
    rxloopActive := b != .stopped
    cfg := { bitRate := ratio 500 1, txPin := 5, rxPin := 4 }
    vs :=
      { speed := ratio 85 1
        rpm := ratio 3200 1
        throttle := ratio 50 1
        coolant := ratio 90 1
        fuel := ratio 75 1
        vin := vinEsp }
    rxq := []
    mfq := [zeroSlot, zeroSlot]
    polledState := b
    release := none
    sending := none }

/-- The machine in a bus state, with the spec's suggested parameters and every draw fixed. -/
def machineIn (b : BusState) : State :=
  { block := blockIn b
    link := { alertsPending := 0, counters := perCounter 0, rxFifo := [], txFifo := [], opState := 0 }
    draws := { send := [.ok, .ok, .ok], ctrl := [.ok, .ok, .ok], recv := [.deliver], count := 0 }
    ghost := Ghost.reset
    result := .nothing
    script := []
    turn := 0
    params := { vsKeys := [("speed", .speed), ("rpm", .rpm), ("throttle", .throttle), ("coolant", .coolant), ("fuel", .fuel),
      ("vin", .vin)] } }

/-- The same machine about to take these events. -/
def machineWith (b : BusState) (events : List Event) : State := { machineIn b with script := events }

/-- Something of the next state. -/
def after {α : Type} (o : Host.Outcome State Fault Refusal) (view : State → α) : Option α :=
  match o with
  | .next t => some (view t)
  | .fault _ => none
  | .refused _ => none

/-- What an operation transmits from the running machine. -/
def sentBy (i : Instr) : Option (List Frame) := after (exec i (machineIn .running)) (·.ghost.txLog)

theorem test_exec_m1pid00 : sentBy (.obdM1Pid00 8 2) = some [frame7E8 0x06 0x41 0x00 0x08 0x18 0x80 0x00 0x00] := by
  decide
theorem test_exec_m1pid05 : sentBy (.obdM1Pid05 8 2) = some [frame7E8 0x03 0x41 0x05 0x82 0x00 0x00 0x00 0x00] := by
  decide
theorem test_exec_m1pid0C : sentBy (.obdM1Pid0C 8 2) = some [frame7E8 0x04 0x41 0x0C 0x32 0x00 0x00 0x00 0x00] := by
  decide
theorem test_exec_m1pid0D : sentBy (.obdM1Pid0D 8 2) = some [frame7E8 0x03 0x41 0x0D 0x55 0x00 0x00 0x00 0x00] := by
  decide
theorem test_exec_m1pid11 : sentBy (.obdM1Pid11 8 2) = some [frame7E8 0x03 0x41 0x11 0x80 0x00 0x00 0x00 0x00] := by
  decide
theorem test_exec_m1pid2F : sentBy (.obdM1Pid2F 8 2) = some [frame7E8 0x03 0x41 0x2F 0xBF 0x00 0x00 0x00 0x00] := by
  decide
theorem test_exec_m9pid00 : sentBy (.obdM9Pid00 8 2) = some [frame7E8 0x06 0x49 0x00 0x40 0x00 0x00 0x00 0x00] := by
  decide
/-- W5. -/
theorem test_exec_vin :
    after (exec (.obdM9Pid02 8 2) (machineIn .running)) (fun t => (t.ghost.txLog, t.block.mfq)) =
      some ([frame7E8 0x10 0x14 0x49 0x02 0x45 0x53 0x50 0x00], espSlots) := by decide
/-- W6. -/
theorem test_exec_fccont :
    after (exec (.fcCont 8 0 0) { machineIn .running with block := { blockIn .running with mfq := espSlots } })
        (fun t => (t.ghost.txLog, t.block.mfq)) =
      some ([frame7E8 0x21 0x33 0x32 0x4F 0x42 0x44 0x32 0x45, frame7E8 0x22 0x4D 0x55 0x4C 0x41 0x54 0x4F 0x52],
        [zeroSlot, zeroSlot]) := by decide
/-- V78: the scan does not stop at an unpopulated slot. -/
theorem test_exec_fccont_skip :
    after (exec (.fcCont 8 0 0)
        { machineIn .running with block := { blockIn .running with mfq := zeroSlot :: espSlots.drop 1 } }) (·.ghost.txLog) =
      some [frame7E8 0x22 0x4D 0x55 0x4C 0x41 0x54 0x4F 0x52] := by decide
/-- V77. -/
theorem test_begin_refused :
    (beginMft (List.replicate 21 0x55) 21 (machineIn .running)).1 = false := by decide
/-- W8 and V19: nothing is sent and the pending queue is kept. -/
theorem test_exec_ignored :
    sentBy (.obdM1Unsup 8 2 0x99) = some [] ∧ sentBy (.obdM9Unsup 8 2 0x0A) = some [] ∧
      sentBy (.obdModeUnsup 8 2 0x22 0xF1) = some [] ∧ sentBy (.obdShort 2 2 1) = some [] ∧
      sentBy (.fcOther 8 0x31 0 0) = some [] ∧ sentBy (.rxIgnore ⟨false, false, 0x123, 4, 0xDE, 0xAD, 0xBE⟩) = some [] := by
  decide

/-- V82. -/
theorem test_exec_configure_start_again :
    after (exec (.configureStart (ratio 250 1) 5 4) (machineIn .running)) (fun t => (t.result, t.ghost.ctrlLog)) =
      some (.error .controllerInstallFailed, []) := by decide
/-- V81. -/
theorem test_exec_configure_start_fails :
    after (exec (.configureStart (ratio 500 1) 5 4)
        { machineIn .stopped with draws := { send := [], ctrl := [.ok, .fail, .ok], recv := [], count := 0 } })
        (fun t => (t.result, t.ghost.ctrlLog.drop 1, t.block.ctrlInstalled)) =
      some (.error .controllerStartFailed, [.start, .uninstall], false) := by decide
/-- V83. -/
theorem test_exec_stop :
    after (exec .stop (machineIn .running)) (fun t => (t.block.busState, t.block.ctrlInstalled, t.ghost.ctrlLog)) =
      some (.stopped, false, [.stop, .uninstall]) := by decide
/-- V84. -/
theorem test_exec_send_stopped :
    after (exec (.send ⟨false, false, 0x7E8, 1, [0x00]⟩ 0) (machineIn .stopped)) (·.result) =
      some (.error .transmitFailed) := by decide
/-- V85. -/
theorem test_exec_send_timeout :
    after (exec (.send (frame7E8 0x03 0x41 0x05 0x82 0 0 0 0) 0)
        { machineIn .running with draws := { send := [.timeout], ctrl := [], recv := [], count := 0 } })
        (fun t => (t.result, t.ghost.txLog)) =
      some (.error .transmitTimeout, []) := by decide
/-- V99. -/
theorem test_exec_poll_receive :
    after (exec (.pollReceive 0)
        { machineIn .running with link := { (machineIn .running).link with rxFifo := [0x7E8804410C3200000000#99] } })
        (fun t => (t.result, t.link.rxFifo)) =
      some (.frame (some (frame7E8 0x04 0x41 0x0C 0x32 0 0 0 0)), []) := by decide
/-- V97. -/
theorem test_exec_poll_alerts :
    after (exec .pollAlerts { machineIn .running with link := { (machineIn .running).link with alertsPending := 1 } })
        (fun t => (t.result, t.link.alertsPending, t.block.busState)) =
      some (.alerts 1, 0, .running) := by decide
/-- V94. -/
theorem test_exec_get_status :
    after (exec .getStatus { machineIn .stopped with link := { (machineIn .stopped).link with counters := perCounter 7 } })
        (·.result) =
      some (.status { state := .stopped, counters := perCounter 0 }) := by decide
/-- V95. -/
theorem test_exec_vs_write_short_vin :
    after (exec (.vsWrite (.vin [0x53, 0x48, 0x4F, 0x52, 0x54])) (machineIn .running)) (·.block.vs.vin) =
      some vinEsp := by decide
theorem test_exec_vs_write_rpm :
    after (exec (.vsWrite (.rpm (ratio (-5) 1))) (machineIn .running)) (fun t => (t.block.vs.rpm.num, t.block.vs.speed.num)) =
      some (-5, 85) := by decide
/-- V93 and V96. -/
theorem test_exec_diag_report :
    after (exec .diagReport
        { machineIn .busOff with
          link := { (machineIn .busOff).link with
            counters := { perCounter 0 with txErrorCounter := 128, busErrorCount := 40, rxMissedCount := 96 } } })
        (·.result) =
      some (.report
        { state := .busOff
          counters := { perCounter 0 with txErrorCounter := 128, busErrorCount := 40, rxMissedCount := 96 }
          classes :=
            { perCounter Machine.Class.ok with
              txErrorCounter := .critical, busErrorCount := .warning, rxMissedCount := .warning }
          busOffCallout := true }) := by decide
theorem test_exec_alert_busoff :
    after (exec (.alertBusOff 0x1) (machineIn .running)) (fun t => (t.block.busState, t.ghost.recoveryCalls)) =
      some (.busOff, 1) := by decide
/-- V89: a failed restart leaves `Recovering`. -/
theorem test_exec_alert_busrecovered :
    after (exec (.alertBusRecovered 0x2)
        { machineIn .busOff with draws := { send := [], ctrl := [.fail], recv := [], count := 0 } })
        (fun t => (t.block.busState, t.ghost.restartCalls, t.ghost.ctrlLog)) =
      some (.recovering, 1, [.start]) := by decide

/-! ## One step of the machine -/

/-- `7DF#02010C0000000000`. -/
def rpmRequest : Frame := ⟨false, false, 0x7DF, 8, [0x02, 0x01, 0x0C, 0, 0, 0, 0, 0]⟩

/-- The running machine with that request at the head of its receive queue. -/
def requested : State :=
  { machineWith .running [.resp] with block := { blockIn .running with rxq := [rpmRequest] } }

/-- The reply to it. -/
def rpmReply : Frame := frame7E8 0x04 0x41 0x0C 0x32 0x00 0x00 0x00 0x00

/-- The machine in a bus state with a response on its way out, about to run its responder. -/
def sendingIn (b : BusState) (x : Sending) : State :=
  { machineWith b [.respPart] with block := { blockIn b with sending := some x } }

/-- W3. -/
theorem test_step_responder :
    after (step requested) (fun t => (t.block.rxq, t.ghost.txLog)) =
      some ([], [frame7E8 0x04 0x41 0x0C 0x32 0x00 0x00 0x00 0x00]) := by decide
/-- W9: a frame that meets a full queue is lost. -/
theorem test_step_rxloop_full :
    after (step
        { machineWith .running [.rxloop] with
          block := { blockIn .running with rxq := List.replicate 10 rpmRequest }
          link := { (machineIn .running).link with rxFifo := [encodeWire rpmRequest] } })
        (fun t => (t.block.rxq.length, t.ghost.rxDropped, t.link.rxFifo)) =
      some (10, 1, []) := by decide
/-- V86: both bits set act as `BUS_OFF` in `Running`. -/
theorem test_step_both_alerts :
    after (step
        { machineWith .running [.rxloop] with link := { (machineIn .running).link with alertsPending := 3 } })
        (fun t => (t.block.busState, t.ghost.recoveryCalls, t.ghost.restartCalls)) =
      some (.busOff, 1, 0) := by decide
/-- R74: a scheduling point of a release holds its place and makes the next slot's frame the next response. -/
theorem test_step_release_part :
    after (step
        { machineWith .running [.respPart] with block := { blockIn .running with mfq := espSlots, release := some 0 } })
        (fun t => (t.ghost.txLog.length, t.block.release, t.block.mfq, t.block.sending)) =
      some (0, some 1, espSlots, some (.asked (frame7E8 0x21 0x33 0x32 0x4F 0x42 0x44 0x32 0x45))) := by decide
/-- R74, R158: the dequeue and the dispatch are one step, and the reply has not been transmitted yet. -/
theorem test_step_dispatch_part :
    after (step { requested with script := [.respPart] }) (fun t => (t.block.rxq, t.ghost.txLog, t.block.sending)) =
      some ([], [], some (.asked (frame7E8 0x04 0x41 0x0C 0x32 0x00 0x00 0x00 0x00))) := by decide
/-- R131, R265: a `SEND` that was blocked when the block left `Running` ends as the Link draws, here in success. -/
theorem test_step_blocked_send :
    after (step (sendingIn .busOff (.blocked rpmReply))) (fun t => (t.block.sending, t.ghost.txLog)) =
      some (none, [rpmReply]) := by decide
/-- R264: a `SEND` that begins outside `Running` fails without asking the Link. -/
theorem test_step_asked_send :
    after (step (sendingIn .busOff (.asked rpmReply))) (fun t => (t.block.sending, t.ghost.txLog, t.draws.send.length)) =
      some (none, [], 3) := by decide
/-- R306, U19: the host's `POLL_ALERTS` is no move while the loops run, and is one while they do not. -/
theorem test_step_loop_call :
    step (machineWith .running [.host [0x03]]) = .refused .hostCallWhileLoopsRun ∧
      after (step (machineWith .stopped [.host [0x03]])) (·.result) = some (.alerts 0) := ⟨rfl, by decide⟩
/-- R8, R27: with counters of four bits a report of 15 is taken and one of 16 is no report. -/
theorem test_step_counter_width :
    after (step { machineWith .running [.linkCounters (perCounter 15)] with params := { ctrW := some 4 } })
        (·.link.counters) = some (perCounter 15) ∧
      after (step { machineWith .running [.linkCounters (perCounter 16)] with params := { ctrW := some 4 } })
        (·.link.counters) = some (perCounter 0) := by decide
theorem test_step_stored_loop_call :
    after (step ((machineIn .running).withFetchWord 8 0x03)) (·.result) = some (.alerts 0) := by decide
/-- The stopped machine with a program loaded (R121). -/
def loaded (events : List Event) : State :=
  loadProgram events { machineIn .stopped with draws := { send := [], ctrl := [], recv := [], count := 0 } }
/-- P1, its `HOST CONFIGURE_START 500 5 4`: no `LINK` event fixes the two `Ctrl` outcomes, and both are `ok`. -/
theorem test_step_program_start :
    after (step (loaded [.host [0x00, 0xF3, 0x03, 0x00, 0x05, 0x04]]))
        (fun t => (t.block.busState, t.ghost.ctrlLog.drop 1, t.draws.unfixed)) =
      some (.running, [.start], .ok) := by decide
/-- V80: `LINK ctrl=fail` fixes the outcome of the install, and no more. -/
theorem test_step_program_fixed :
    after (step { loaded [.host [0x00, 0xF3, 0x03, 0x00, 0x05, 0x04]] with
          draws := { (loaded []).draws with ctrl := [.fail] } })
        (fun t => (t.result, t.block.busState, t.ghost.ctrlLog.length, t.draws.ctrl)) =
      some (.error .controllerInstallFailed, .stopped, 1, []) := by decide
/-- P1, its first `RESP`: the unfixed outcome of the reply's `SEND` is `ok`. -/
theorem test_step_program_reply :
    after (step (loadProgram [.resp] { requested with draws := { send := [], ctrl := [], recv := [], count := 0 } }))
        (·.ghost.txLog) = some [rpmReply] := by decide
theorem test_step_stored_command :
    after (step ((machineIn .running).withFetchWord 8 0x04)) (·.block.busState) = some .stopped := by decide
theorem test_step_stored_frame :
    after (step ((machineIn .running).withFetchWord 41 0x07DF802010C)) (·.ghost.txLog.length) = some 1 := by decide
theorem test_step_stored_alert :
    after (step ((machineIn .running).withFetchWord 2 0x1)) (·.block.busState) = some .busOff := by decide
/-- R260: a stored alert word is polled in an iteration of the receive loop, which leaves none pending. -/
theorem test_step_stored_alert_polled :
    ((machineIn .running).withFetchWord 2 0x1).script = [.rxloop] ∧
      after (step ((machineIn .running).withFetchWord 2 0x1)) (·.link.alertsPending) = some 0 := by decide
theorem test_step_stored_after_reset :
    after (step (State.reset.withFetchWord 41 0x07DF802010C)) (fun t => (t.block.busState, t.block.rxq.length)) =
      some (.stopped, 0) := by decide

/-! ## Witnesses: for each obligation with hypotheses, states and operands that meet them together -/

/-- The two pending slots of W5 in a bus state. -/
def pendingIn (b : BusState) : State := { machineIn b with block := { blockIn b with mfq := espSlots } }

theorem test_machine_inv (b : BusState) (events : List Event) : Inv (machineWith b events) := by
  refine ⟨Nat.zero_le _, by simp [machineWith, machineIn, blockIn], rfl, .inl ?_, ?_, ?_, Nat.two_pow_pos _, by
    simp [machineWith, machineIn, blockIn], by simp [machineWith, machineIn, blockIn], fitsCounters_zero _, rfl,
    Nat.zero_le _, by simp [machineWith, machineIn, Ghost.reset]⟩
  · intro sl h
    simp only [machineWith, machineIn, blockIn, List.mem_cons, List.not_mem_nil, or_false, or_self] at h
    rw [h]
    decide
  · cases b <;> simp [machineWith, machineIn, blockIn]
  · cases b <;> simp [machineWith, machineIn, blockIn]

theorem test_requested_inv : Inv requested := by
  have h := test_machine_inv .running [.resp]
  refine ⟨by decide, ?_, rfl, h.mfqShape, h.stoppedIff, h.loopInstalled, h.alertsFit, h.releaseBound,
    h.sendingResponse, h.countersFit, h.recoveryCount, h.restartCount, h.txLogFrames⟩
  intro f hf
  simp only [requested, List.mem_cons, List.not_mem_nil, or_false] at hf
  rw [hf]
  decide

theorem test_sending_inv (b : BusState) (x : Sending) (h : x.frame = rpmReply) : Inv (sendingIn b x) := by
  have i := test_machine_inv b [.respPart]
  refine ⟨i.rxqBound, i.rxqFrames, i.mfqSize, i.mfqShape, i.stoppedIff, i.loopInstalled, i.alertsFit, i.releaseBound, ?_,
    i.countersFit, i.recoveryCount, i.restartCount, i.txLogFrames⟩
  intro y hy
  cases hy
  rw [h]
  exact ⟨_, _, _, _, _, _, _, _, rfl, .inl ⟨.inr (.inl rfl), .inl rfl⟩⟩

theorem test_witness_DispatchIsTheTablesFirstRow :
    (unpackDispatch 0x07DF8020100).dlc ≤ 8 ∧ (unpackDispatch 0x07E00000000).dlc ≤ 8 := by decide
theorem test_witness_DecodeInvertsEncode :
    (Instr.obdShort 2 2 1).wf = true ∧ (Instr.obdShort 2 2 1).format ≠ .alert ∧
      (Instr.configureStart (ratio 500 1) 5 4).wf = true ∧ (Instr.configureStart (ratio 500 1) 5 4).format ≠ .alert ∧
      (Instr.alertBusOff 1).wf = true := by decide
theorem test_witness_EncodeInvertsFrameDecode :
    isFrame rpmRequest = true ∧ isFrame ⟨false, false, 0x7E0, 0, []⟩ = true := by decide
theorem test_witness_WireWordFields :
    rpmRequest.valid = true ∧ (⟨true, true, 0x1FFFFFFF, 0, []⟩ : Frame).valid = true := by decide
theorem test_witness_WireDecodeIsTotal :
    8 < ((0x12390000000000000000#99).extractLsb' 64 4).toNat ∧
      ((0x80010000000000000000#99).getLsbD 98 = false ∧
        ((0x80010000000000000000#99).extractLsb' 68 29).extractLsb' 11 18 ≠ 0) ∧
      ((0x58DAF1102ABCD000000000000#99).extractLsb' 64 4).toNat ≤ 8 ∧
      (0x58DAF1102ABCD000000000000#99).getLsbD 98 = true ∧
      ((0x7DF802010C0000000000#99).extractLsb' 64 4).toNat ≤ 8 ∧
      ((0x7DF802010C0000000000#99).extractLsb' 68 29).extractLsb' 11 18 = 0 := by decide
theorem test_witness_WireRoundTrip :
    rpmRequest.valid = true ∧ decodeWire 0x7E8804410C3200000000#99 = some (frame7E8 0x04 0x41 0x0C 0x32 0 0 0 0) := by
  decide
theorem test_witness_StepRunsDecodedOperation :
    (requested.script = .resp :: [] ∧ requested.block.release = none ∧ requested.block.sending = none ∧
        requested.block.rxq = rpmRequest :: [] ∧ decodeFrame rpmRequest = .ok (.obdM1Pid0C 8 2)) ∧
      ((machineWith .running [.host [0x04]]).script = .host [0x04] :: [] ∧ decode (.cmd [0x04]) = .ok .stop ∧
        isLoopCall .stop = false) ∧
      ((machineWith .stopped [.host [0x03]]).script = .host [0x03] :: [] ∧ decode (.cmd [0x03]) = .ok .pollAlerts ∧
        (machineWith .stopped [.host [0x03]]).block.rxloopActive = false) ∧
      ((machineWith .running [.rxloop]).script = .rxloop :: [] ∧ (machineWith .running [.rxloop]).block.rxloopActive = true) :=
  ⟨⟨rfl, rfl, rfl, rfl, by decide⟩, ⟨rfl, by decide, rfl⟩, ⟨rfl, by decide, rfl⟩, rfl, rfl⟩
theorem test_witness_StepRunsFetchedTableWord :
    decodeTableWord 41 0x07DF802010C = some (.obdM1Pid0C 8 2) ∧ decodeTableWord 48 0x07DF802010C = some (.obdM1Pid0C 8 2) ∧
      decodeTableWord 8 0x04 = some .stop ∧ decodeTableWord 8 0x03 = some .pollAlerts ∧
      ((2 ≠ 8 ∧ ¬(41 ≤ 2 ∧ 2 ≤ 48)) ∧ ¬((0x1).testBit 0 = true ∧ (0x1).testBit 1 = true) ∧
        decodeTableWord 2 0x1 = some (.alertBusOff 1)) := by decide

theorem test_witness_RoundAndTruncAreFunctions : 0 < 1 ∧ 0 < 100 := by decide
/-- 89.5 rounds to 90, a tie; 12799.5 to 12800; 127.5 to 128; 191.25 to 191. -/
theorem test_witness_Rounds :
    IsRound (179 / 2) 90 ∧ IsRound (3199875 / 1000 * 4) 12800 ∧ IsRound (50 * 255 / 100) 128 ∧
      IsRound (75 * 255 / 100) 191 := by
  refine ⟨.inr ?_, .inr ?_, .inr ?_, .inl ?_⟩ <;> norm_num [abs_of_nonneg, abs_lt, abs_of_nonpos]
theorem test_witness_Truncs : IsTrunc (859 / 10) 85 ∧ IsTrunc (-9 / 10) 0 := by
  refine ⟨.inl ?_, .inr ?_⟩ <;> norm_num
theorem test_witness_replies :
    (machineIn .running).params.numerics = .reference ∧
      ({ machineIn .running with params := { numerics := .implementation } } : State).params.numerics = .implementation ∧
      IsRound (machineIn .running).block.vs.coolant 90 ∧ IsRound ((machineIn .running).block.vs.rpm * 4) 12800 ∧
      IsTrunc (machineIn .running).block.vs.speed 85 ∧ IsRound ((machineIn .running).block.vs.throttle * 255 / 100) 128 ∧
      IsRound ((machineIn .running).block.vs.fuel * 255 / 100) 191 := by
  have h : ∀ n : Int, ∀ (d) (c), (⟨n, 1, d, c⟩ : Rat) = (n : Rat) := fun n d c => rfl
  refine ⟨rfl, rfl, .inl ?_, .inl ?_, .inl ?_, .inr ?_, .inl ?_⟩ <;>
    norm_num [machineIn, blockIn, ratio, h, abs_of_nonneg, abs_lt]
theorem test_witness_CodecRoundTrips :
    ((-40 : Rat) ≤ -40 ∧ (-40 : Rat) ≤ 215) ∧ ((0 : Rat) ≤ 65535 / 4 ∧ (65535 / 4 : Rat) ≤ 65535 / 4) ∧
      ((0 : Rat) ≤ 2559 / 10 ∧ (2559 / 10 : Rat) < 256) ∧ ((0 : Rat) ≤ 100 ∧ (100 : Rat) ≤ 100) := by norm_num
theorem test_witness_EncodersNeverWrap : (255 : Rat) ≤ 300 := by norm_num

theorem test_witness_FirstFrameLayout :
    (8 ≤ 4095 ∧ 4095 ≤ 4095 ∧ (List.replicate 4095 (0x55 : Byte)).length = 4095) ∧
      (8 ≤ 8 ∧ 8 ≤ 4095 ∧ (List.replicate 8 (0x55 : Byte)).length = 8) :=
  ⟨⟨by omega, le_refl _, List.length_replicate⟩, le_refl _, by omega, rfl⟩
theorem test_witness_BeginTransmissionReplacesQueue :
    (8 ≤ 20 ∧ 20 ≤ 4095 ∧ (List.replicate 20 (0x55 : Byte)).length = 20 ∧ 20 - 6 ≤ 7 * 2 ∧ 7 * 2 < 20 - 6 + 7 ∧
        2 ≤ (machineIn .running).block.mfq.length) ∧
      (8 ≤ 21 ∧ 21 ≤ 4095 ∧ (List.replicate 21 (0x55 : Byte)).length = 21 ∧ 21 - 6 ≤ 7 * 3 ∧ 7 * 3 < 21 - 6 + 7 ∧
        (machineIn .running).block.mfq.length < 3) := by decide
theorem test_witness_SegmentationCarriesPayload :
    8 ≤ 20 ∧ 20 ≤ 4095 ∧ (List.replicate 20 (0x55 : Byte)).length = 20 ∧
      ∃ t, beginMft (List.replicate 20 0x55) 20 (machineIn .running) = (true, t) :=
  ⟨by decide, by decide, by decide, _, rfl⟩
theorem test_witness_VinRequest :
    (machineIn .running).block.vs.vin = vinEsp ∧ 2 ≤ (machineIn .running).block.mfq.length ∧
      ({ machineIn .running with block := { blockIn .running with mfq := [zeroSlot] } } : State).block.mfq.length < 2 := by
  decide
theorem test_witness_ReleaseTransmitsPendingInOrder :
    (pendingIn .running).block.busState = .running ∧ (pendingIn .running).draws.send = [.ok, .ok] ++ [.ok] ∧
      [SendOutcome.ok, SendOutcome.ok].length = ((pendingIn .running).block.mfq.filter fun sl => sl[0] != 0).length := by
  decide
theorem test_witness_ReleaseAlwaysEndsAndClears : (pendingIn .busOff).block.busState ≠ .running := by decide
theorem test_witness_SecondReleaseIsEmpty : ∃ t, exec (.fcCont 8 0 0) (pendingIn .running) = .next t := ⟨_, rfl⟩
theorem test_witness_IterationByPartsIsWholeIteration : 3 * (pendingIn .running).block.mfq.length + 3 ≤ 9 := by
  decide
theorem test_witness_IgnoredClassesDoNothing : isFrame ⟨false, false, 0x123, 4, [0xDE, 0xAD, 0xBE, 0xEF]⟩ = true := by
  decide
theorem test_witness_ResponderTransmitsOnlyResponses :
    (Inv requested ∧ (∃ t, respStep requested = .next t) ∧ ∃ t, respPart requested = .next t) ∧
      Inv (sendingIn .running (.asked rpmReply)) ∧
      after (respPart (sendingIn .running (.asked rpmReply))) (·.block.sending) = some (some (.blocked rpmReply)) :=
  ⟨⟨test_requested_inv, ⟨_, rfl⟩, ⟨_, rfl⟩⟩, test_sending_inv _ _ rfl, by decide⟩
theorem test_witness_ReceivedFrameOperationsFrame :
    ((Instr.obdM1Pid05 8 2).format = .rxf ∧ ∃ t, exec (.obdM1Pid05 8 2) (machineIn .running) = .next t) ∧
      (∀ dlc d0, Instr.obdM1Pid05 8 2 ≠ .obdM9Pid02 dlc d0) ∧ ∀ dlc d1 d2, Instr.obdM1Pid05 8 2 ≠ .fcCont dlc d1 d2 :=
  ⟨⟨rfl, _, rfl⟩, ⟨fun _ _ h => Instr.noConfusion h, fun _ _ _ h => Instr.noConfusion h⟩⟩

/-- The stopped machine whose next control calls are answered so. -/
def stoppedWith (outcomes : List CtrlOutcome) : State :=
  { machineIn .stopped with draws := { send := [], ctrl := outcomes, recv := [], count := 0 } }

theorem test_witness_ConfigureStart :
    ((stoppedWith [.ok, .ok]).block.ctrlInstalled = false ∧ ctrlDraw 0 (stoppedWith [.ok, .ok]) = .ok ∧
        ctrlDraw 1 (stoppedWith [.ok, .ok]) = .ok) ∧
      (machineIn .running).block.ctrlInstalled = true ∧ ctrlDraw 0 (stoppedWith [.fail]) = .fail ∧
      (ctrlDraw 0 (stoppedWith [.ok, .fail]) = .ok ∧ ctrlDraw 1 (stoppedWith [.ok, .fail]) = .fail) := by decide
theorem test_witness_StopHaltsAndIsIdempotent :
    (machineIn .recovering).block.ctrlInstalled = true ∧ (machineIn .stopped).block.ctrlInstalled = false ∧
      ∃ t, exec .stop (machineIn .running) = .next t := ⟨rfl, rfl, _, rfl⟩
theorem test_witness_SendOutcomes :
    (⟨false, false, 0x800, 0, []⟩ : Frame).valid = false ∧ (machineIn .busOff).block.busState ≠ .running ∧
      (rpmRequest.valid = true ∧ (machineIn .running).block.busState = .running) ∧ sendDraw 0 (machineIn .running) = .ok ∧
      sendDraw 0 { machineIn .running with draws := { send := [.timeout], ctrl := [], recv := [], count := 0 } } = .timeout ∧
      sendDraw 0 { machineIn .running with draws := { send := [.failed], ctrl := [], recv := [], count := 0 } } = .failed := by
  decide

/-- The running machine with one word in the controller's receive queue and this fate of it. -/
def receiving (o : RecvOutcome) : State :=
  { machineWith .running [.rxloop] with
    link := { (machineIn .running).link with rxFifo := [encodeWire rpmRequest] }
    draws := { send := [], ctrl := [], recv := [o], count := 0 } }

theorem test_witness_PollReceiveOutcomes :
    (machineIn .stopped).block.ctrlInstalled = false ∧ (machineIn .running).link.rxFifo = [] ∧
      (∀ o, (receiving o).block.ctrlInstalled = true ∧ (receiving o).link.rxFifo = encodeWire rpmRequest :: [] ∧
        (drawRecv 0 (receiving o)).1 = o) := ⟨rfl, rfl, fun _ => ⟨rfl, rfl, rfl⟩⟩
theorem test_witness_PollAlertsReadsAndClears :
    (machineIn .running).block.ctrlInstalled = true ∧ (machineIn .stopped).block.ctrlInstalled = false ∧
      ∃ t, exec .pollAlerts (machineIn .running) = .next t := ⟨rfl, rfl, _, rfl⟩
theorem test_witness_GetStatusReads :
    (machineIn .stopped).block.ctrlInstalled = false ∧ (machineIn .busOff).block.ctrlInstalled = true := ⟨rfl, rfl⟩
theorem test_witness_DiagReportClassifies :
    classifyCount 0 = .ok ∧ (∀ c, 1 ≤ c → c ≤ 96 → classifyCount c = .warning) ∧ ∀ c, 96 < c → classifyCount c = .critical := by
  refine ⟨rfl, fun c h1 h2 => ?_, fun c h => ?_⟩
  · rw [classifyCount, if_neg (by omega), if_pos (by simpa [errThreshold] using h2)]
  · rw [classifyCount, if_neg (by omega), if_neg (by simpa [errThreshold] using h)]
theorem test_witness_VsWriteReplacesOneField :
    ([0x53] : List Byte).length ≠ 17 ∧ lookupKey "gear" (machineIn .running).params.vsKeys = none ∧
      (["speed", "rpm", "throttle", "coolant", "fuel", "vin"].map fun k => lookupKey k (machineIn .running).params.vsKeys) =
        [some .speed, some .rpm, some .throttle, some .coolant, some .fuel, some .vin] := by decide

theorem test_witness_BusOffEntry :
    ((0x1).testBit 0 = true ∧ (machineIn .running).block.polledState = .running) ∧ (0x2).testBit 0 = false ∧
      (machineIn .recovering).block.polledState ≠ .running := by decide
theorem test_witness_BusRecoveredRestart :
    ((0x2).testBit 1 = true ∧ (machineIn .busOff).block.polledState = .busOff) ∧ (0x1).testBit 1 = false ∧
      (machineIn .running).block.polledState ≠ .busOff := by decide
theorem test_witness_OneAlertWordOneTransition :
    ((0x3).testBit 0 = true ∧ (machineIn .running).block.busState = .running) ∧
      ((0x3).testBit 1 = true ∧ (machineIn .busOff).block.busState = .busOff) ∧
      (¬((0x3).testBit 0 = true ∧ (machineIn .recovering).block.busState = .running) ∧
        ¬((0x3).testBit 1 = true ∧ (machineIn .recovering).block.busState = .busOff)) := by decide
theorem test_witness_ReceiveLoopEnqueuesOrDrops :
    ((receiving .deliver).block.rxloopActive = true ∧ (receiving .deliver).block.ctrlInstalled = true ∧
        (receiving .deliver).link.rxFifo = encodeWire rpmRequest :: [] ∧
        decodeWire (encodeWire rpmRequest) = some rpmRequest ∧ (receiving .deliver).draws.recv = .deliver :: []) ∧
      (List.replicate 9 rpmRequest).length < 10 ∧ 10 ≤ (List.replicate 10 rpmRequest).length := by decide

/-- The machine in a bus state with alerts pending, about to run its receive loop. -/
def alerted (b : BusState) (a : AlertWord) : State :=
  { machineWith b [.rxloop] with link := { (machineIn b).link with alertsPending := a } }

theorem test_alerted_inv (b : BusState) (a : AlertWord) (h : a < 4) : Inv (alerted b a) := by
  have i := test_machine_inv b [.rxloop]
  exact ⟨i.rxqBound, i.rxqFrames, i.mfqSize, i.mfqShape, i.stoppedIff, i.loopInstalled, h, i.releaseBound,
    i.sendingResponse, i.countersFit, i.recoveryCount, i.restartCount, i.txLogFrames⟩

theorem test_witness_ReceiveLoopAlwaysPollsAlerts :
    ((alerted .running 3).block.rxloopActive = true ∧ (alerted .running 3).block.ctrlInstalled = true ∧
        (alerted .running 3).link.alertsPending.testBit 0 = true ∧ (alerted .running 3).block.busState = .running) ∧
      ((alerted .busOff 3).link.alertsPending.testBit 1 = true ∧ (alerted .busOff 3).block.busState = .busOff) ∧
      (¬((alerted .recovering 3).link.alertsPending.testBit 0 = true ∧ (alerted .recovering 3).block.busState = .running) ∧
        ¬((alerted .recovering 3).link.alertsPending.testBit 1 = true ∧
          (alerted .recovering 3).block.busState = .busOff)) := by decide
theorem test_witness_StepKeepsInvariant : Inv requested ∧ ∃ t, step requested = .next t :=
  ⟨test_requested_inv, _, rfl⟩

/-- One step that takes each of the transitions of R150. -/
theorem test_witness_BusStateTransitionsAreComplete :
    (Inv (machineWith .stopped [.host [0x00, 0xF3, 0x03, 0x00, 0x05, 0x04]]) ∧
        after (step (machineWith .stopped [.host [0x00, 0xF3, 0x03, 0x00, 0x05, 0x04]])) (·.block.busState) =
          some .running) ∧
      (Inv (alerted .running 1) ∧
        after (step (alerted .running 1)) (fun t => (t.block.busState, t.ghost.recoveryCalls)) = some (.busOff, 1)) ∧
      (Inv (alerted .busOff 2) ∧ after (step (alerted .busOff 2)) (·.block.busState) = some .running) ∧
      (Inv (machineWith .busOff [.host [0x04]]) ∧
        after (step (machineWith .busOff [.host [0x04]])) (·.block.busState) = some .stopped) :=
  ⟨⟨test_machine_inv _ _, by decide⟩, ⟨test_alerted_inv _ _ (by decide), by decide⟩,
    ⟨test_alerted_inv _ _ (by decide), by decide⟩, ⟨test_machine_inv _ _, by decide⟩⟩
theorem test_witness_RecoveringIsLeftOnlyByStop :
    (Inv (alerted .recovering 2) ∧ (alerted .recovering 2).block.busState = .recovering ∧
        ∃ t, step (alerted .recovering 2) = .next t) ∧
      (Inv (sendingIn .recovering (.blocked rpmReply)) ∧
        after (step (sendingIn .recovering (.blocked rpmReply))) (·.ghost.txLog) = some [rpmReply]) :=
  ⟨⟨test_alerted_inv _ _ (by decide), rfl, _, rfl⟩, test_sending_inv _ _ rfl, by decide⟩
theorem test_witness_NoSendBeginsUnlessRunning :
    ((alerted .busOff 0).block.busState ≠ .running ∧ ∃ t, step (alerted .busOff 0) = .next t) ∧
      ((sendingIn .stopped (.blocked rpmReply)).block.busState ≠ .running ∧
        after (step (sendingIn .stopped (.blocked rpmReply))) (·.ghost.txLog) = some [rpmReply]) :=
  ⟨⟨by decide, _, rfl⟩, by decide, by decide⟩

/-- `HOST VS_WRITE speed 3`. -/
def writing : State := machineWith .running [.host [0x06, 0x00, 0x06, 0x00]]

theorem test_witness_OnlyVsWriteChangesVehicleState :
    ∃ t, step writing = .next t ∧ t.block.vs ≠ writing.block.vs := by
  refine ⟨_, rfl, fun h => ?_⟩
  exact absurd (congrArg (fun v : VehicleState => v.speed.num) h) (by decide)
theorem test_witness_OnlyResponderTouchesPendingQueue :
    ∃ t, step { pendingIn .running with script := [.resp], block := { (pendingIn .running).block with release := some 0 } } =
        .next t ∧ t.block.mfq ≠ espSlots := by
  refine ⟨_, rfl, fun h => ?_⟩
  exact absurd (congrArg (List.map fun sl : Slot => sl[0]) h) (by decide)
theorem test_witness_ReceiveQueueIsFirstInFirstOut :
    (∃ t, step requested = .next t) ∧ ∃ t, step (receiving .deliver) = .next t := ⟨⟨_, rfl⟩, ⟨_, rfl⟩⟩
theorem test_witness_EveryAgentCanAlwaysStep :
    Inv (machineWith .running [.host [0x04]]) ∧
      ∀ bytes, (nextEvent (machineWith .running [.host [0x04]])).1 = .host bytes →
        ∃ i, decode (.cmd bytes) = .ok i ∧
          (isLoopCall i = true → (machineWith .running [.host [0x04]]).block.rxloopActive = false) := by
  refine ⟨test_machine_inv _ _, fun bytes h => ⟨.stop, ?_, fun h => by cases h⟩⟩
  cases h
  decide
theorem test_witness_ReservedCommandsAreRefused : 8 ≤ (0x08 : Byte).toNat ∧ 8 ≤ (0xFF : Byte).toNat := by decide
theorem test_witness_LogsGrowAndParametersStay : ∃ t, step (alerted .running 1) = .next t := ⟨_, rfl⟩
theorem test_witness_EventCountersNeverFall :
    (∃ t, step (machineWith .running [.linkCounters (perCounter 7)]) = .next t ∧
        (machineWith .running [.linkCounters (perCounter 7)]).block.ctrlInstalled = true ∧ t.block.ctrlInstalled = true) ∧
      (machineIn .running).params.ctrW = none ∧
      ∀ w, ({ ctrW := some 4 } : Params).ctrW = some w →
        (perCounter 15).txErrorCounter < 2 ^ w ∧ (perCounter 15).rxErrorCounter < 2 ^ w ∧
          (perCounter 15).txQueueDepth < 2 ^ w ∧ (perCounter 15).rxQueueDepth < 2 ^ w ∧
          (perCounter 15).txFailedCount < 2 ^ w ∧ (perCounter 15).rxMissedCount < 2 ^ w ∧
          (perCounter 15).rxOverrunCount < 2 ^ w ∧ (perCounter 15).arbLostCount < 2 ^ w ∧
          (perCounter 15).busErrorCount < 2 ^ w := by
  refine ⟨⟨_, rfl, rfl, rfl⟩, rfl, fun w h => ?_⟩
  cases h
  decide
theorem test_witness_QuiescentLoopsChangeNothing :
    Quiescent (machineIn .running) ∧ (machineIn .running).link.rxFifo = [] ∧
      (machineIn .running).block.rxloopActive = true ∧ Quiescent (machineIn .stopped) ∧
      (machineIn .stopped).block.rxloopActive = false :=
  ⟨⟨rfl, rfl, rfl, rfl⟩, rfl, rfl, ⟨rfl, rfl, rfl, rfl⟩, rfl⟩
theorem test_witness_LoopCallsAreRefusedWhileLoopsRun :
    decode (.cmd [0x03]) = .ok .pollAlerts ∧ decode (.cmd [0x02, 0x05]) = .ok (.pollReceive 5) ∧
      decode (.cmd [0x04]) = .ok .stop ∧ (machineIn .running).block.rxloopActive = true ∧
      (machineIn .stopped).block.rxloopActive = false ∧
      (Instr.stop ≠ .pollAlerts ∧ (∀ timeout, Instr.stop ≠ .pollReceive timeout) ∧ ∀ f timeout, Instr.stop ≠ .send f timeout) :=
  ⟨by decide, by decide, by decide, rfl, rfl, fun h => Instr.noConfusion h, fun _ h => Instr.noConfusion h,
    fun _ _ h => Instr.noConfusion h⟩
theorem test_witness_BlockedSendEndsAsDrawn :
    (∃ t, step (sendingIn .busOff (.blocked rpmReply)) = .next t ∧
        t.block.sending ≠ (sendingIn .busOff (.blocked rpmReply)).block.sending) ∧
      ((sendingIn .running (.asked rpmReply)).block.sending = some (.asked rpmReply) ∧ rpmReply.valid = true ∧
        (sendingIn .running (.asked rpmReply)).block.busState = .running) ∧
      (sendingIn .busOff (.asked rpmReply)).block.busState ≠ .running ∧
      ((sendingIn .busOff (.blocked rpmReply)).block.sending = some (.blocked rpmReply) ∧
        (sendingIn .busOff (.blocked rpmReply)).block.release = none ∧
        sendDraw 1000 (sendingIn .busOff (.blocked rpmReply)) = .ok) ∧
      sendDraw 1000
          { sendingIn .busOff (.blocked rpmReply) with draws := { send := [.timeout], ctrl := [], recv := [], count := 0 } } ≠
        .ok :=
  ⟨⟨_, rfl, by decide⟩, ⟨rfl, by decide, rfl⟩, by decide, ⟨rfl, rfl, by decide⟩, by decide⟩

end Sys2Proof.Tests
end

section
/-! PROOFS. Rounding and truncation as relations (R12) have at most one result, so the codec's arithmetic, which
satisfies them, computes it. -/

namespace Sys2Proof.Machine

/-! ## Rounding -/

/-- A rounded value lies within a half. -/
theorem IsRound.abs_sub_le_half {x : Rat} {r : Int} (h : IsRound x r) : |x - r| ≤ 1 / 2 :=
  h.elim le_of_lt fun ⟨tie, _⟩ => tie.le

/-- At a half, rounding goes away from zero. -/
theorem IsRound.abs_lt_of_tie {x : Rat} {r : Int} (h : IsRound x r) (tie : |x - r| = 1 / 2) : |x| < |(r : Rat)| :=
  h.elim (fun lt => absurd tie lt.ne) And.right

/-- No result of rounding exceeds another: if `q < r`, then `x` is the midpoint of `q` and `r = q + 1`, and the tie puts
`q` below zero and `q + 1` above it. -/
theorem IsRound.le {x : Rat} {q r : Int} (hq : IsRound x q) (hr : IsRound x r) : r ≤ q := by
  by_contra! lt
  have succ_le : (q : Rat) + 1 ≤ r := by exact_mod_cast lt
  have below := (abs_le.mp hq.abs_sub_le_half).2
  have above := (abs_le.mp hr.abs_sub_le_half).1
  have mid : x - q = 1 / 2 := by linarith
  have mid' : x - r = -(1 / 2) := by linarith
  have outerq := sq_lt_sq.mpr (hq.abs_lt_of_tie (by rw [mid]; norm_num))
  have outerr := sq_lt_sq.mpr (hr.abs_lt_of_tie (by rw [mid']; norm_num))
  rw [show x = q + 1 / 2 by linarith] at outerq
  rw [show x = r - 1 / 2 by linarith] at outerr
  have qneg : (q : Rat) < 0 := by linarith
  have rpos : (0 : Rat) < r := by linarith
  have rle : (r : Rat) ≤ q + 1 := by linarith
  norm_cast at qneg rpos rle
  omega

/-- `round` has one result (R12). -/
theorem IsRound.unique {x : Rat} {q r : Int} (hq : IsRound x q) (hr : IsRound x r) : q = r :=
  le_antisymm (hr.le hq) (hq.le hr)

/-! ## Truncation -/

/-- From zero up, `trunc` is the floor. -/
theorem isTrunc_iff_floor {x : Rat} {r : Int} (hx : 0 ≤ x) : IsTrunc x r ↔ ⌊x⌋ = r := by
  simp [IsTrunc, hx, hx.not_gt, Int.floor_eq_iff]

/-- Below zero, `trunc` is the ceiling. -/
theorem isTrunc_iff_ceil {x : Rat} {r : Int} (hx : x < 0) : IsTrunc x r ↔ ⌈x⌉ = r := by
  simp [IsTrunc, hx, hx.not_ge, Int.ceil_eq_iff, sub_lt_iff_lt_add, and_comm]

/-- `trunc` has one result (R12). -/
theorem IsTrunc.unique {x : Rat} {q r : Int} (hq : IsTrunc x q) (hr : IsTrunc x r) : q = r := by
  rcases le_or_gt 0 x with hx | hx
  · exact ((isTrunc_iff_floor hx).mp hq).symm.trans ((isTrunc_iff_floor hx).mp hr)
  · exact ((isTrunc_iff_ceil hx).mp hq).symm.trans ((isTrunc_iff_ceil hx).mp hr)

/-! ## The obligation -/

/-- Settles O10: the model's arithmetic gives a result of each relation, and a relation has one result. -/
theorem roundAndTruncAreFunctions : Obligations.RoundAndTruncAreFunctions := by
  unfold Obligations.RoundAndTruncAreFunctions
  constructor
  · intro x k m r hm
    have computed := scaleRound_isRound x k m hm
    exact ⟨fun h => h.unique computed, fun e => e ▸ computed⟩
  · intro x r
    have computed := truncDiv_isTrunc x
    exact ⟨fun h => h.unique computed, fun e => e ▸ computed⟩

end Sys2Proof.Machine
end

section
/-! PROOFS. The invariant of the machine (R26, R27, R30, R31, R182, R233) holds after reset, and every step keeps it: one
lemma for each of the agents, and for each host command that moves a field the invariant speaks of. -/

namespace Sys2Proof.Machine

/-! ## Reset and the fetch -/

/-- Settles O46: field by field, on the values reset gives. -/
theorem resetMeetsInvariant : Obligations.ResetMeetsInvariant where
  rxqBound := Nat.zero_le _
  rxqFrames := by simp [State.reset, Block.reset]
  mfqSize := List.length_replicate
  mfqShape := .inl fun sl hsl => by rw [List.eq_of_mem_replicate hsl, populated_zeroSlot]
  stoppedIff := ⟨fun _ => rfl, fun _ => rfl⟩
  loopInstalled := Iff.rfl
  alertsFit := Nat.two_pow_pos _
  releaseBound := by simp [State.reset, Block.reset]
  sendingResponse := by simp [State.reset, Block.reset]
  countersFit := fitsCounters_zero _
  recoveryCount := rfl
  restartCount := le_rfl
  txLogFrames := by simp [State.reset, Ghost.reset]

/-- Taking the next event moves nothing the invariant speaks of. -/
theorem Inv.of_nextEvent {s : State} (hs : Inv s) : Inv (nextEvent s).2 := by
  obtain ⟨script, turn, e⟩ := nextEvent_state s
  rw [e]
  exact { hs with }

/-! ## The responder and the receive loop -/

/-- The responder takes from the receive queue, keeps the shape of the pending queue, and sends responses (R182, R233). -/
theorem ResponderOutcome.inv {s t : State} (h : ResponderOutcome s t) (hs : Inv s) : Inv t := by
  obtain ⟨q, m, r, x, d, l, rfl, hq, hm, hshape, hr, hresp, -⟩ := h
  obtain ⟨hl, hx⟩ := hresp hs.mfqShape hs.sendingResponse
  have taken : q <:+ s.block.rxq := by
    rcases hq with rfl | ⟨f, e⟩
    · exact List.suffix_rfl
    · exact e ▸ List.suffix_cons f q
  have release : ∀ j, r = some j → j ≤ m.length := fun j hj => by
    rw [hm]
    rcases hr j hj with same | le
    · exact hs.releaseBound j (same ▸ hj)
    · exact le
  exact { hs with
    rxqBound := taken.length_le.trans hs.rxqBound
    rxqFrames := fun f hf => hs.rxqFrames f (taken.subset hf)
    mfqSize := hm.trans hs.mfqSize
    mfqShape := hshape hs.mfqShape
    releaseBound := release
    sendingResponse := hx
    txLogFrames := fun f hf => (List.mem_append.mp hf).elim (hs.txLogFrames f) fun hf => (hl f hf).valid }

section
variable {s : State} {a : AlertWord} {rx : List Frame} {drop : Nat} {b : BusState} {l : List CtrlCall} {m n : Nat}

/-- What an iteration of the receive loop takes in fits the queue (R30). -/
theorem RxloopMoves.rxq_length_le (h : RxloopMoves s a rx drop b l m n) (hs : s.block.rxq.length ≤ rxqCap) :
    (s.block.rxq ++ rx).length ≤ rxqCap := by
  rcases h.1 with ⟨rfl, -⟩ | ⟨f, rfl, -, -, room⟩ | ⟨rfl, -⟩
  · simpa using hs
  · simpa using room
  · simpa using hs

/-- What an iteration of the receive loop takes in are Frames (R94). -/
theorem RxloopMoves.isFrame_of_mem (h : RxloopMoves s a rx drop b l m n) : ∀ f ∈ rx, isFrame f = true := by
  rcases h.1 with ⟨rfl, -⟩ | ⟨f, rfl, -, hf, -⟩ | ⟨rfl, -⟩
  · simp
  · simpa using hf
  · simp

/-- The receive loop neither enters `Stopped` nor leaves it (R150). -/
theorem RxloopMoves.stopped_iff (h : RxloopMoves s a rx drop b l m n) :
    b = .stopped ↔ s.block.busState = .stopped := by
  rcases h.2 with ⟨-, e, rfl, -⟩ | ⟨-, e, rfl | rfl, -⟩ | ⟨-, -, rfl, -⟩
  · simp [e]
  · simp [e]
  · simp [e]
  · exact Iff.rfl

/-- The receive loop counts the recovery requests it makes and its restarts (R34). -/
theorem RxloopMoves.counts (h : RxloopMoves s a rx drop b l m n) :
    m = l.count .initiateRecovery ∧ n = l.count .start := by
  rcases h.2 with ⟨-, -, -, rfl, rfl, rfl⟩ | ⟨-, -, -, rfl, rfl, rfl⟩ | ⟨-, -, -, rfl, rfl, rfl⟩ <;> decide

end

/-- An iteration of the receive loop keeps the invariant (R157). -/
theorem RxloopOutcome.inv {s t : State} (h : RxloopOutcome s t) (hs : Inv s) : Inv t := by
  obtain ⟨d, q, rx, drop, b, l, m, n, rfl, moves⟩ := h
  obtain ⟨hm, hn⟩ := moves.counts
  have alerts : (if s.block.ctrlInstalled then 0 else s.link.alertsPending) < 2 ^ s.params.alertW := by
    split
    · exact Nat.two_pow_pos _
    · exact hs.alertsFit
  exact { hs with
    rxqBound := moves.rxq_length_le hs.rxqBound
    rxqFrames := fun f hf => (List.mem_append.mp hf).elim (hs.rxqFrames f) (moves.isFrame_of_mem f)
    stoppedIff := moves.stopped_iff.trans hs.stoppedIff
    alertsFit := alerts
    recoveryCount := by simp [hs.recoveryCount, hm]
    restartCount := by simp [hs.restartCount, hn] }

/-! ## The host's commands -/

/-- What a command returns is nothing the invariant speaks of. -/
theorem Inv.returns {s : State} (hs : Inv s) (r : Result) : Inv (returns r s) := { hs with }

/-- Control calls that are no recovery request leave the count of those (R34). -/
theorem Inv.recoveryCount_append {s : State} (hs : Inv s) {l : List CtrlCall} (hl : .initiateRecovery ∉ l) :
    s.ghost.recoveryCalls = (s.ghost.ctrlLog ++ l).count .initiateRecovery := by
  rw [List.count_append, List.count_eq_zero_of_not_mem hl, hs.recoveryCount, Nat.add_zero]

/-- Control calls the block does not count as restarts leave that count covered (R34). -/
theorem Inv.restartCount_append {s : State} (hs : Inv s) (l : List CtrlCall) :
    s.ghost.restartCalls ≤ (s.ghost.ctrlLog ++ l).count .start := by
  rw [List.count_append]
  exact hs.restartCount.trans (Nat.le_add_right _ _)

/-- `CONFIGURE_START` leaves the controller installed with the block `Running` and the loop active, or all three as they
were (R26, R130). -/
theorem configureStart_inv {s : State} (rate : Rat) (tx rx : Nat) (hs : Inv s) : Inv (configureStart rate tx rx s) := by
  rcases configureStart_cases rate tx rx s with ⟨-, e⟩ | ⟨-, -, e⟩ | ⟨-, -, -, e⟩ | ⟨-, -, -, e⟩ <;> rw [e]
  · exact hs.returns _
  · exact { hs with
      recoveryCount := hs.recoveryCount_append (by simp)
      restartCount := hs.restartCount_append _ }
  · exact { hs with
      alertsFit := Nat.two_pow_pos _
      countersFit := fitsCounters_zero _
      recoveryCount := hs.recoveryCount_append (by simp)
      restartCount := hs.restartCount_append _ }
  · exact { hs with
      stoppedIff := by simp
      loopInstalled := by simp
      alertsFit := Nat.two_pow_pos _
      countersFit := fitsCounters_zero _
      recoveryCount := hs.recoveryCount_append (by simp)
      restartCount := hs.restartCount_append _ }

/-- `STOP` leaves the block `Stopped` without a controller and the loop inactive (R26, R131). -/
theorem stopController_inv {s : State} (hs : Inv s) : Inv (stopController s) := by
  rw [stopController_eq]
  cases s.block.ctrlInstalled
  · exact { hs with
      stoppedIff := by simp
      loopInstalled := by simp }
  · exact { hs with
      stoppedIff := by simp
      loopInstalled := by simp
      recoveryCount := hs.recoveryCount_append (by simp)
      restartCount := hs.restartCount_append _ }

/-- A `SEND` logs nothing but a Frame (R132). -/
theorem send_inv {s : State} (f : Frame) (timeout : Nat) (hs : Inv s) : Inv (send f timeout s).2 := by
  rcases send_state_cases f timeout s with e | e | ⟨hv, -, e⟩ <;> rw [e]
  · exact hs
  · exact { hs with }
  · exact { hs with
      txLogFrames := fun g hg => (List.mem_append.mp hg).elim (hs.txLogFrames g) fun h => List.mem_singleton.mp h ▸ hv }

/-- A poll of the alerts leaves the pending set or empties it (R134). -/
theorem pollAlerts_inv {s : State} (hs : Inv s) : Inv (pollAlerts s).2 := by
  rw [pollAlerts_eq]
  split
  · exact { hs with alertsFit := Nat.two_pow_pos _ }
  · exact hs

/-- Every host command keeps the invariant. -/
theorem exec_command_inv {s t : State} {i : Instr} (hi : i.format = .cmd) (hs : Inv s) (h : exec i s = .next t) :
    Inv t := by
  cases i with
  | configureStart rate tx rx => cases h; exact configureStart_inv rate tx rx hs
  | stop => cases h; exact (stopController_inv hs).returns _
  | send f timeout =>
    cases h
    unfold sendResult
    split <;> exact (send_inv f timeout hs).returns _
  | pollReceive timeout =>
    cases h
    obtain ⟨d, q, e, -⟩ := pollReceive_cases timeout s
    rw [e]
    exact { hs with }
  | pollAlerts => cases h; exact (pollAlerts_inv hs).returns _
  | getStatus => cases h; exact hs.returns _
  | diagReport => cases h; exact hs.returns _
  | vsWrite u => cases h; exact { hs with }
  | _ => cases hi

/-! ## The Link -/

/-- The Link raises only alerts that the controller has bits for (R102). -/
theorem linkRaises_inv {s : State} (a : AlertWord) (hs : Inv s) : Inv (linkRaises a s) := by
  unfold linkRaises
  split
  · exact { hs with alertsFit := Nat.or_lt_two_pow hs.alertsFit (Nat.mod_lt _ (Nat.two_pow_pos _)) }
  · exact hs

/-- The Link reports only counters that fit (R8, R27). -/
theorem linkReports_inv {s : State} (c : Counters) (hs : Inv s) : Inv (linkReports c s) := by
  rcases linkReports_cases c s with ⟨hc, e⟩ | ⟨-, e⟩ <;> rw [e]
  · exact { hs with countersFit := fitsCounters_advance _ _ _ hs.countersFit hc }
  · exact hs

/-- A word from the bus enters no field the invariant speaks of. -/
theorem linkReceives_inv {s : State} (w : WireWord) (hs : Inv s) : Inv (linkReceives w s) := by
  unfold linkReceives
  split
  · exact { hs with }
  · exact hs

/-! ## The step -/

/-- The step of every event keeps the invariant. -/
theorem runEvent_inv {s t : State} (e : Event) (hs : Inv s) (h : runEvent e s = .next t) : Inv t := by
  cases e with
  | resp => exact (responder_state (.inl h)).inv hs
  | respPart => exact (responder_state (.inr h)).inv hs
  | rxloop =>
    rcases rxloopStep_cases h with ⟨-, rfl⟩ | ⟨-, iteration⟩
    · exact hs
    · exact iteration.inv hs
  | host bytes =>
    obtain ⟨i, hd, -, he⟩ := hostStep_next h
    exact exec_command_inv (decodeCmd_format hd) hs he
  | hostKey key value =>
    change hostKeyStep key value s = .next t at h
    unfold hostKeyStep at h
    split at h
    · cases h; exact hs
    · exact exec_command_inv rfl hs h
  | rx w => cases h; exact linkReceives_inv w hs
  | alert a => cases h; exact linkRaises_inv a hs
  | linkCounters c => cases h; exact linkReports_inv c hs
  | linkSend o => cases h; exact { hs with }
  | linkCtrl o => cases h; exact { hs with }
  | linkRecv o => cases h; exact { hs with }
  | linkHidden rxFifo opState => cases h; exact { hs with }
  | linkTxDone => cases h; exact { hs with }

/-- Settles O47: the event is taken, and its agent's step keeps the invariant. -/
theorem stepKeepsInvariant : Obligations.StepKeepsInvariant :=
  fun _ _ hs h => runEvent_inv _ hs.of_nextEvent h

end Sys2Proof.Machine
end

section
/-! PROOFS. Who may change what: the Vehicle State, the pending queue, the receive queue, the logs and the counters, each
over everything a step can do (`StepOutcome`). -/

namespace Sys2Proof.Machine

/-! ## The fields of a command's outcome -/

section
variable {i : Instr} {s t : State}

/-- Only `VS_WRITE` among the commands moves the Vehicle State (R24). -/
theorem CommandOutcome.vs (h : CommandOutcome i s t) : t.block.vs = s.block.vs ∨ ∃ u, i = .vsWrite u := by
  obtain ⟨-, -, -, -, -, -, -, vs, -⟩ := h
  exact vs

/-- No command moves a queue of the block (R70, R274). -/
theorem CommandOutcome.queues (h : CommandOutcome i s t) :
    t.block.rxq = s.block.rxq ∧ t.block.mfq = s.block.mfq := by
  obtain ⟨-, -, -, rxq, mfq, -⟩ := h
  exact ⟨rxq, mfq⟩

/-- Counters move only under a fresh install (R130). -/
theorem CommandOutcome.counters (h : CommandOutcome i s t) :
    t.link.counters = s.link.counters ∨ s.block.ctrlInstalled = false := by
  obtain ⟨-, -, -, -, -, -, -, -, -, counters, -⟩ := h
  exact counters

end

/-! ## The Vehicle State and the pending queue -/

/-- The Vehicle State moves only under an event that writes it (R24). -/
theorem StepOutcome.vs {e : Event} {s t : State} (h : StepOutcome e s t) :
    t.block.vs = s.block.vs ∨ writesVehicleState e := by
  rcases h with ⟨-, responder⟩ | ⟨-, ⟨-, rfl⟩ | ⟨-, iteration⟩⟩ | ⟨i, command, outcome⟩ | ⟨key, value, rfl, -⟩ | ⟨block, -⟩
  · obtain ⟨q, m, r, x, d, l, rfl, -⟩ := responder
    exact .inl rfl
  · exact .inl rfl
  · obtain ⟨d, q, rx, drop, b, l, m, n, rfl, -⟩ := iteration
    exact .inl rfl
  · rcases outcome.vs with same | ⟨u, rfl⟩
    · exact .inl same
    · exact .inr (.inl ⟨u, command⟩)
  · exact .inr (.inr ⟨key, value, rfl⟩)
  · exact .inl (by rw [block])

/-- Settles O51: everything a step can do moves the Vehicle State only under a `VS_WRITE`. -/
theorem onlyVsWriteChangesVehicleState : Obligations.OnlyVsWriteChangesVehicleState := fun s _ h changed =>
  (step_outcome h).vs.resolve_left (by rwa [nextEvent_block])

/-- The pending queue moves only under a step of the responder (R31, R274). -/
theorem StepOutcome.mfq {e : Event} {s t : State} (h : StepOutcome e s t) :
    t.block.mfq = s.block.mfq ∨ e = .resp ∨ e = .respPart := by
  rcases h with ⟨responder, -⟩ | ⟨-, ⟨-, rfl⟩ | ⟨-, iteration⟩⟩ | ⟨i, -, outcome⟩ | ⟨-, -, -, rfl | ⟨u, outcome⟩⟩ | ⟨block, -⟩
  · exact .inr responder
  · exact .inl rfl
  · obtain ⟨d, q, rx, drop, b, l, m, n, rfl, -⟩ := iteration
    exact .inl rfl
  · exact .inl outcome.queues.2
  · exact .inl rfl
  · exact .inl outcome.queues.2
  · exact .inl (by rw [block])

/-- Settles O52: everything a step can do moves the pending queue only in the responder. -/
theorem onlyResponderTouchesPendingQueue : Obligations.OnlyResponderTouchesPendingQueue := fun s _ h changed =>
  (step_outcome h).mfq.resolve_left (by rwa [nextEvent_block])

/-! ## The receive queue -/

/-- The receive queue is left, or the responder takes its head, or the receive loop adds a Frame at its tail (R30, R70). -/
theorem StepOutcome.rxq {e : Event} {s t : State} (h : StepOutcome e s t) :
    t.block.rxq = s.block.rxq ∨
      ((e = .resp ∨ e = .respPart) ∧ ∃ f, s.block.rxq = f :: t.block.rxq) ∨
      (e = .rxloop ∧ s.block.rxloopActive = true ∧ s.block.rxq.length < rxqCap ∧
        ∃ f, isFrame f = true ∧ t.block.rxq = s.block.rxq ++ [f]) := by
  rcases h with ⟨he, responder⟩ | ⟨he, ⟨-, rfl⟩ | ⟨active, iteration⟩⟩ | ⟨i, -, outcome⟩ |
    ⟨-, -, -, rfl | ⟨u, outcome⟩⟩ | ⟨block, -⟩
  · obtain ⟨q, m, r, x, d, l, rfl, same | taken, -⟩ := responder
    · exact .inl same
    · exact .inr (.inl ⟨he, taken⟩)
  · exact .inl rfl
  · obtain ⟨d, q, rx, drop, b, l, m, n, rfl, ⟨rfl, -⟩ | ⟨f, rfl, -, hf, room⟩ | ⟨rfl, -⟩, -⟩ := iteration
    · exact .inl (List.append_nil _)
    · exact .inr (.inr ⟨he, active, room, f, hf, rfl⟩)
    · exact .inl (List.append_nil _)
  · exact .inl outcome.queues.1
  · exact .inl rfl
  · exact .inl outcome.queues.1
  · exact .inl (by rw [block])

/-- Settles O53: the three things a step can do to the receive queue. -/
theorem receiveQueueIsFirstInFirstOut : Obligations.ReceiveQueueIsFirstInFirstOut := fun s _ h => by
  have key := (step_outcome h).rxq
  rwa [nextEvent_block] at key

/-! ## The logs and the parameters -/

/-- From `s` to `t` the logs grow at their ends and no ghost count falls (R34), and the parameters stay (R40). -/
def LogsGrow (s t : State) : Prop :=
  s.ghost.txLog <+: t.ghost.txLog ∧ s.ghost.ctrlLog <+: t.ghost.ctrlLog ∧
    s.ghost.recoveryCalls ≤ t.ghost.recoveryCalls ∧ s.ghost.restartCalls ≤ t.ghost.restartCalls ∧
    s.ghost.rxDropped ≤ t.ghost.rxDropped ∧ t.params = s.params

theorem LogsGrow.of_eq {s t : State} (hg : t.ghost = s.ghost) (hp : t.params = s.params) : LogsGrow s t := by
  unfold LogsGrow
  rw [hg]
  exact ⟨List.prefix_rfl, List.prefix_rfl, le_rfl, le_rfl, le_rfl, hp⟩

theorem CommandOutcome.logsGrow {i : Instr} {s t : State} (h : CommandOutcome i s t) : LogsGrow s t := by
  obtain ⟨-, -, params, -, -, -, -, -, -, -, ⟨sent, tx, -⟩, ⟨calls, ctrl⟩, recovery, restart, dropped⟩ := h
  exact ⟨⟨sent, tx.symm⟩, ⟨calls, ctrl.symm⟩, recovery.ge, restart.ge, dropped.ge, params⟩

theorem StepOutcome.logsGrow {e : Event} {s t : State} (h : StepOutcome e s t) : LogsGrow s t := by
  rcases h with ⟨-, responder⟩ | ⟨-, ⟨-, rfl⟩ | ⟨-, iteration⟩⟩ | ⟨i, -, outcome⟩ | ⟨-, -, -, rfl | ⟨u, outcome⟩⟩ |
    ⟨-, ghost, params, -⟩
  · obtain ⟨q, m, r, x, d, l, rfl, -⟩ := responder
    exact ⟨List.prefix_append _ _, List.prefix_rfl, le_rfl, le_rfl, le_rfl, rfl⟩
  · exact .of_eq rfl rfl
  · obtain ⟨d, q, rx, drop, b, l, m, n, rfl, -⟩ := iteration
    exact ⟨List.prefix_rfl, List.prefix_append _ _, Nat.le_add_right _ _, Nat.le_add_right _ _, Nat.le_add_right _ _, rfl⟩
  · exact outcome.logsGrow
  · exact .of_eq rfl rfl
  · exact outcome.logsGrow
  · exact .of_eq ghost params

/-- Settles O56: each agent appends to the logs and adds to the counts, or leaves them. -/
theorem logsGrowAndParametersStay : Obligations.LogsGrowAndParametersStay := fun s _ h => by
  have key := (step_outcome h).logsGrow
  rwa [LogsGrow, nextEvent_ghost, nextEvent_params] at key

/-! ## The counters -/

/-- Under an installed controller the counters stay, or the Link advances them (R28). -/
theorem StepOutcome.counters {e : Event} {s t : State} (h : StepOutcome e s t) (installed : s.block.ctrlInstalled = true) :
    t.link.counters = s.link.counters ∨ ∃ c, t.link.counters = advanceCounters s.link.counters c := by
  have command : ∀ i, CommandOutcome i s t → t.link.counters = s.link.counters := fun i outcome =>
    outcome.counters.resolve_right (by simp [installed])
  rcases h with ⟨-, responder⟩ | ⟨-, ⟨-, rfl⟩ | ⟨-, iteration⟩⟩ | ⟨i, -, outcome⟩ | ⟨-, -, -, rfl | ⟨u, outcome⟩⟩ |
    ⟨-, -, -, same | ⟨c, -, advanced⟩, -⟩
  · obtain ⟨q, m, r, x, d, l, rfl, -⟩ := responder
    exact .inl rfl
  · exact .inl rfl
  · obtain ⟨d, q, rx, drop, b, l, m, n, rfl, -⟩ := iteration
    exact .inl rfl
  · exact .inl (command i outcome)
  · exact .inl rfl
  · exact .inl (command _ outcome)
  · exact .inl same
  · exact .inr ⟨c, advanced⟩

/-- A counter can be reported when it is below every width there is (R8, R27). -/
theorem fitsWidth_iff (p : Params) (c : Nat) : fitsWidth p c = true ↔ ∀ w, p.ctrW = some w → c < 2 ^ w := by
  unfold fitsWidth
  cases p.ctrW <;> simp

/-- Settles O57: an advance takes the larger count of the five event counters and the reported one of the four gauges. -/
theorem eventCountersNeverFall : Obligations.EventCountersNeverFall := by
  constructor
  · intro s t h installed _
    have key := (step_outcome h).counters (by rwa [nextEvent_block])
    rw [nextEvent_link] at key
    rcases key with same | ⟨c, advanced⟩
    · rw [same]
      exact ⟨le_rfl, le_rfl, le_rfl, le_rfl, le_rfl⟩
    · rw [advanced]
      exact ⟨le_max_left _ _, le_max_left _ _, le_max_left _ _, le_max_left _ _, le_max_left _ _⟩
  · intro s c bound
    have fits : fitsCounters s.params c = true := by
      simp only [fitsCounters, Bool.and_eq_true, fitsWidth_iff]
      grind
    refine ⟨linkReports c s, rfl, ?_⟩
    rw [linkReports, if_pos fits]
    exact ⟨rfl, rfl, rfl, rfl⟩

end Sys2Proof.Machine
end

section
/-! PROOFS. The receive phase of an iteration delivers a Frame to the queue or drops it (R30, R157), and the alert phase
that follows leaves the reception alone. -/

namespace Sys2Proof.Machine

/-- The state after the controller has delivered a word: the words and the receive outcomes left. -/
def afterDelivery (rest : List WireWord) (more : List RecvOutcome) (s : State) : State :=
  { s with draws := { s.draws with recv := more }, link := { s.link with rxFifo := rest } }

/-- A poll of an installed controller whose next outcome is `deliver` takes the word at the head of its queue (R66, R133). -/
theorem pollReceive_deliver {s : State} {w : WireWord} {rest : List WireWord} {more : List RecvOutcome} (timeout : Nat)
    (installed : s.block.ctrlInstalled = true) (hq : s.link.rxFifo = w :: rest) (hd : s.draws.recv = .deliver :: more) :
    pollReceive timeout s = (decodeWire w, afterDelivery rest more s) := by
  simp [pollReceive, linkReceive, drawRecv, afterDelivery, installed, hq, hd]

/-- From `s` to `t` the receive queue, the count of lost frames, the controller's receive queue and the receive outcomes
fixed in advance are the same. -/
def SameReception (s t : State) : Prop :=
  t.block.rxq = s.block.rxq ∧ t.ghost.rxDropped = s.ghost.rxDropped ∧ t.link.rxFifo = s.link.rxFifo ∧
    t.draws.recv = s.draws.recv

/-- The handling of alerts leaves the reception alone (R153). -/
theorem handleAlerts_keeps_reception (a : AlertWord) (s : State) : SameReception s (handleAlerts a s) := by
  have draws : (drawsAfterCtrl 1 (latchState s)).recv = s.draws.recv := (drawsAfterCtrl_other 1 (latchState s)).2.1
  rcases handleAlerts_cases a s with ⟨-, -, e⟩ | ⟨-, -, e⟩ | ⟨-, -, e⟩ <;> rw [e]
  · rw [enterBusOff_eq]
    exact ⟨rfl, rfl, rfl, draws⟩
  · rw [returnFromBusOff_eq]
    exact ⟨rfl, rfl, rfl, draws⟩
  · exact ⟨rfl, rfl, rfl, rfl⟩

/-- The alert phase ends in a next state with the reception left alone (R157, R261). -/
theorem alertPhase_keeps_reception (s : State) : ∃ t, alertPhase s = .next t ∧ SameReception s t := by
  obtain ⟨a, -, -, e⟩ := alertPhase_eq s
  refine ⟨_, e, ?_⟩
  split
  · exact handleAlerts_keeps_reception a { s with link := { s.link with alertsPending := 0 } }
  · exact handleAlerts_keeps_reception a s

/-- Settles O43: the receive phase enqueues or drops the delivered Frame, and the alert phase leaves that alone. -/
theorem receiveLoopEnqueuesOrDrops : Obligations.ReceiveLoopEnqueuesOrDrops := by
  intro s w f rest more active installed hq hf hd
  have phase : receivePhase s = enqueue f (afterDelivery rest more s) := by
    rw [receivePhase, pollReceive_deliver _ installed hq hd, hf]
  obtain ⟨t, ran, rxq, dropped, fifo, recv⟩ := alertPhase_keeps_reception (receivePhase s)
  refine ⟨t, (if_pos active).trans ran, ?_⟩
  rw [rxq, dropped, fifo, recv, phase]
  rcases enqueue_cases f (afterDelivery rest more s) with ⟨room, e⟩ | ⟨full, e⟩ <;> rw [e]
  · exact ⟨rfl, rfl, fun _ => ⟨rfl, rfl⟩, fun full => absurd room full.not_gt⟩
  · exact ⟨rfl, rfl, fun room => absurd room full, fun _ => ⟨rfl, rfl⟩⟩

end Sys2Proof.Machine
end

section
/-! PROOFS. The responder part by part is the whole iteration (R74, R158): every part leaves the rest of the iteration
the same and strictly fewer parts to go, and the dispatch of an operation leaves its meaning as the rest. -/

namespace Sys2Proof.Machine

/-! ## The place inside a release is read by nothing that transmits -/

@[simp] theorem transmit_block (f : Frame) (timeout : Nat) (s : State) : (transmit f timeout s).2.block = s.block := by
  obtain ⟨d, l, e, -⟩ := transmit_state f timeout s
  rw [e]

/-- A response does not read the place inside a release (R159). -/
theorem respond_setRelease (f : Frame) (r : Option Nat) (s : State) :
    respond f (setRelease r s) = setRelease r (respond f s) := by
  have moved := transmit_setBlock f s.params.tSend s { s.block with release := r }
  have tests : sendAllowed f (setRelease r s) = sendAllowed f s := rfl
  unfold respond send
  rw [tests]
  split
  · refine moved.trans ?_
    simp only [setRelease, transmit_block]
  · rfl

theorem releaseSlots_setRelease (slots : List Slot) (r : Option Nat) (s : State) :
    releaseSlots slots (setRelease r s) = setRelease r (releaseSlots slots s) := by
  induction slots generalizing s with
  | nil => rfl
  | cons sl rest ih =>
    simp only [releaseSlots, releaseSlot]
    split
    · rw [respond_setRelease, ih]
    · exact ih s

/-- A release run to its end forgets where the state says it stands. -/
theorem releaseFrom_setRelease (i : Nat) (r : Option Nat) (s : State) : releaseFrom i (setRelease r s) = releaseFrom i s := by
  unfold releaseFrom
  rw [releaseSlots_setRelease]
  rfl

/-! ## A release up to its next populated slot -/

section
variable {i j : Nat} {sl : Slot} {s : State}

/-- With no populated slot left a release only ends (R229, R230). -/
theorem releaseFrom_eq_endRelease (h : nextPopulated (s.block.mfq.drop i) i = none) : releaseFrom i s = endRelease s := by
  have skip := releaseSlots_skip [] s (nextPopulated_none h)
  rw [List.append_nil] at skip
  rw [releaseFrom, skip]
  rfl

/-- A release passes over the unpopulated slots, sends the next populated one, and goes on after it (R229, R230). -/
theorem releaseFrom_eq_respond (h : nextPopulated (s.block.mfq.drop i) i = some (sl, j)) :
    releaseFrom i s = releaseFrom j (respond (slotFrame sl) s) := by
  obtain ⟨pre, rest, e, unpopulated, hsl, rfl⟩ := nextPopulated_some h
  have tail : s.block.mfq.drop (i + pre.length + 1) = rest := by
    rw [Nat.add_assoc, ← List.drop_drop, e]
    simp
  unfold releaseFrom
  rw [e, releaseSlots_skip _ _ unpopulated, respond_block, tail]
  simp [releaseSlots, releaseSlot, hsl]

/-- The index after the next populated slot lies further on and within the queue. -/
theorem nextPopulated_bounds (h : nextPopulated (s.block.mfq.drop i) i = some (sl, j)) : i < j ∧ j ≤ s.block.mfq.length := by
  obtain ⟨pre, rest, e, -, -, rfl⟩ := nextPopulated_some h
  have len := congrArg List.length e
  simp only [List.length_drop, List.length_append, List.length_cons] at len
  omega

end

/-! ## The parts left of an iteration -/

/-- The parts a response on its way out still takes: the begin of its `SEND` and its end. -/
def sendingParts : Option Sending → Nat
  | none => 0
  | some (.blocked _) => 1
  | some (.asked _) => 2

/-- A bound on the parts a release still takes: three for each slot ahead, and its end. -/
def releaseParts (slots : Nat) : Option Nat → Nat
  | none => 0
  | some i => 3 * (slots - i) + 1

/-- A bound on the parts the iteration under way still takes. -/
def partsLeft (s : State) : Nat := sendingParts s.block.sending + releaseParts s.block.mfq.length s.block.release

theorem sendingParts_le (x : Option Sending) : sendingParts x ≤ 2 := by
  rcases x with _ | _ | _ <;> simp [sendingParts]

theorem partsLeft_le (s : State) : partsLeft s ≤ 3 * s.block.mfq.length + 3 := by
  have sending := sendingParts_le s.block.sending
  unfold partsLeft
  cases s.block.release <;> simp only [releaseParts] <;> omega

theorem midIteration_eq_false_iff (s : State) :
    midIteration s = false ↔ s.block.sending = none ∧ s.block.release = none := by simp [midIteration]

theorem partsLeft_eq_zero_iff (s : State) : partsLeft s = 0 ↔ midIteration s = false := by
  rw [midIteration_eq_false_iff, partsLeft]
  rcases s.block.sending with _ | _ | _ <;> cases s.block.release <;> simp [sendingParts, releaseParts]

/-! ## The rest of an iteration -/

section
variable {s : State}

theorem finishSending_of_none (hs : s.block.sending = none) : finishSending s = s := by rw [finishSending, hs]

theorem finishIteration_of_release {i : Nat} (hr : s.block.release = some i) :
    finishIteration s = releaseFrom i (finishSending s) := by rw [finishIteration, hr]

theorem finishIteration_of_no_release (hr : s.block.release = none) : finishIteration s = finishSending s := by
  rw [finishIteration, hr]

/-- Between iterations there is nothing left to finish. -/
theorem finishIteration_idle (idle : midIteration s = false) : finishIteration s = s := by
  obtain ⟨hs, hr⟩ := (midIteration_eq_false_iff s).mp idle
  rw [finishIteration_of_no_release hr, finishSending_of_none hs]

end

/-! ## One part -/

/-- One part from `s`: it leaves the rest of the iteration the same, and strictly less of it. -/
def PartAdvances (s : State) : Prop :=
  ∃ t, respPart s = .next t ∧ finishIteration t = finishIteration s ∧ partsLeft t < partsLeft s

section
variable {s : State}

/-- The begin and the end of a `SEND` together are the `SEND` (R74, R265). -/
theorem finishSending_sendingPart {x : Sending} (hx : s.block.sending = some x) :
    finishSending (sendingPart x s) = finishSending s := by
  cases x with
  | asked f =>
    have whole : finishSending s = respond f (setSending none s) := by rw [finishSending, hx]
    have tests : sendAllowed f (setSending none s) = sendAllowed f s := rfl
    rw [whole, respond, send, tests, sendingPart]
    split
    · rfl
    · exact finishSending_of_none rfl
  | blocked f =>
    have whole : finishSending s = sendingPart (.blocked f) s := by rw [finishSending, hx, sendingPart]
    rw [whole, finishSending_of_none]
    simp [sendingPart]

theorem sendingParts_sendingPart_lt (x : Sending) (s : State) :
    sendingParts (sendingPart x s).block.sending < sendingParts (some x) := by
  cases x with
  | asked f => simp only [sendingPart, setSending_block]; split <;> simp [sendingParts]
  | blocked f => simp [sendingPart, sendingParts]

/-- A part of a response on its way out. -/
theorem sendingPart_advances {x : Sending} (hx : s.block.sending = some x) : PartAdvances s := by
  have sent := finishSending_sendingPart hx
  have fewer := sendingParts_sendingPart_lt x s
  obtain ⟨d, l, y, e, -⟩ := sendingPart_state x s hx
  have mfq : (sendingPart x s).block.mfq = s.block.mfq := by rw [e]
  have release : (sendingPart x s).block.release = s.block.release := by rw [e]
  refine ⟨sendingPart x s, by rw [respPart, hx], ?_, ?_⟩
  · rw [finishIteration, finishIteration, sent, release]
  · rw [partsLeft, partsLeft, mfq, release, hx]
    omega

/-- A scheduling point of a release. -/
theorem releasePart_advances {i : Nat} (hs : s.block.sending = none) (hr : s.block.release = some i) : PartAdvances s := by
  refine ⟨releasePart i s, by rw [respPart, hs, hr], ?_⟩
  rw [finishIteration_of_release hr, finishSending_of_none hs, releasePart]
  split
  · next exhausted =>
    have idle : midIteration (endRelease s) = false := (midIteration_eq_false_iff _).mpr ⟨hs, rfl⟩
    refine ⟨?_, ?_⟩
    · rw [finishIteration_idle idle, releaseFrom_eq_endRelease exhausted]
    · rw [(partsLeft_eq_zero_iff _).mpr idle, partsLeft, hr, releaseParts]
      omega
  · next sl j found =>
    refine ⟨?_, ?_⟩
    · calc finishIteration (askSend (slotFrame sl) (setRelease (some j) s))
        _ = releaseFrom j (finishSending (askSend (slotFrame sl) (setRelease (some j) s))) := finishIteration_of_release rfl
        _ = releaseFrom j (setRelease (some j) (respond (slotFrame sl) s)) := by
          rw [finishSending_askSend _ (setRelease (some j) s) hs, respond_setRelease]
        _ = releaseFrom i s := by rw [releaseFrom_setRelease, releaseFrom_eq_respond found]
    · obtain ⟨after, within⟩ := nextPopulated_bounds found
      simp only [partsLeft, askSend_eq, setSending_block, setRelease_block, hs, hr, sendingParts, releaseParts]
      omega

/-- Every part of an iteration under way advances it. -/
theorem respPart_advances (mid : midIteration s = true) : PartAdvances s := by
  cases hs : s.block.sending with
  | some x => exact sendingPart_advances hs
  | none =>
    cases hr : s.block.release with
    | some i => exact releasePart_advances hs hr
    | none => simp [midIteration, hs, hr] at mid

end

/-- Parts enough run the rest of the iteration. -/
theorem finishParts_eq (n : Nat) (s : State) (enough : partsLeft s ≤ n) : finishParts n s = .next (finishIteration s) := by
  induction n generalizing s with
  | zero =>
    have idle := (partsLeft_eq_zero_iff s).mp (Nat.le_zero.mp enough)
    rw [finishParts, finishIteration_idle idle]
  | succ n ih =>
    cases mid : midIteration s with
    | false => simp [finishParts, mid, finishIteration_idle mid]
    | true =>
      obtain ⟨t, part, rest, fewer⟩ := respPart_advances mid
      simp only [finishParts, mid, if_true, part]
      rw [ih t (by omega), rest]

/-! ## The dispatch -/

/-- The dispatch of an operation from `s` leaves its meaning as the rest of the iteration, and no slot more or fewer. -/
def DispatchAdvances (i : Instr) (s : State) : Prop :=
  ∃ t, beginOperation i s = .next t ∧ exec i s = .next (finishIteration t) ∧ t.block.mfq.length = s.block.mfq.length

theorem beginOperation_advances {i : Instr} {s : State} (hi : i.format = .rxf) (idle : midIteration s = false) :
    DispatchAdvances i s := by
  obtain ⟨hs, hr⟩ := (midIteration_eq_false_iff s).mp idle
  have nothing (begins : beginOperation i s = .next s) (runs : exec i s = .next s) : DispatchAdvances i s :=
    ⟨s, begins, by rw [runs, finishIteration_idle idle], rfl⟩
  have reply (f : Frame) (t : State) (begins : beginOperation i s = .next (askSend f t))
      (runs : exec i s = .next (respond f t)) (sending : t.block.sending = none) (release : t.block.release = none)
      (len : t.block.mfq.length = s.block.mfq.length) : DispatchAdvances i s := by
    have whole : finishIteration (askSend f t) = respond f t :=
      (finishIteration_of_no_release (s := askSend f t) release).trans (finishSending_askSend f t sending)
    exact ⟨askSend f t, begins, by rw [runs, whole], len⟩
  cases i with
  | obdShort | obdM1Unsup | obdM9Unsup | obdModeUnsup | fcOther | rxIgnore => exact nothing rfl rfl
  | obdM1Pid00 | obdM1Pid05 | obdM1Pid0C | obdM1Pid0D | obdM1Pid11 | obdM1Pid2F | obdM9Pid00 =>
    exact reply _ s rfl rfl hs hr rfl
  | obdM9Pid02 dlc d0 =>
    rcases beginMft_vin s with ⟨-, refused⟩ | ⟨q, len, -, begun⟩
    · exact nothing (by simp only [beginOperation, beginVinReply, refused])
        (by simp only [exec, execObdM9Pid02, vinReply, refused])
    · exact reply (ffBuild (m9Pid02Payload s) vinTotalLen) (setSlots q s)
        (by simp only [beginOperation, beginVinReply, begun]) (by simp only [exec, execObdM9Pid02, vinReply, begun]) hs hr len
  | fcCont dlc d1 d2 =>
    have whole : finishIteration (setRelease (some 0) s) = releaseFrom 0 s := by
      rw [finishIteration_of_release rfl, finishSending_of_none (s := setRelease (some 0) s) hs, releaseFrom_setRelease]
    exact ⟨setRelease (some 0) s, rfl, by rw [whole]; rfl, rfl⟩
  | _ => cases hi

/-! ## The obligation -/

/-- Settles O27: the first part advances an iteration under way, or waits, or dispatches, and the parts after it run the
rest. -/
theorem iterationByPartsIsWholeIteration : Obligations.IterationByPartsIsWholeIteration := by
  intro n s enough
  have rest (t : State) (len : t.block.mfq.length = s.block.mfq.length) : finishParts n t = .next (finishIteration t) :=
    finishParts_eq n t ((partsLeft_le t).trans (len ▸ enough))
  cases mid : midIteration s with
  | true =>
    obtain ⟨t, part, same, fewer⟩ := respPart_advances mid
    have := partsLeft_le s
    simp only [iterationByParts, respStep, mid, if_true, part]
    rw [finishParts_eq n t (by omega), same]
  | false =>
    obtain ⟨hs, hr⟩ := (midIteration_eq_false_iff s).mp mid
    simp only [iterationByParts, respStep, respPart, mid, hs, hr, Bool.false_eq_true, if_false]
    cases s.block.rxq with
    | nil => exact (rest s rfl).trans (by rw [finishIteration_idle mid])
    | cons f queue =>
      cases decoded : decodeFrame f with
      | reject r => simp [decoded, runDecoded]
      | ok i =>
        obtain ⟨t, begins, runs, len⟩ := beginOperation_advances (decodeRxf_format decoded) (s := setRxq queue s) mid
        simp only [decoded, runDecoded, begins, runs]
        exact rest t len

end Sys2Proof.Machine
end

section
/-! PROOFS. Encoding and decoding are inverse (R101, R105, R110 to R112): a received-frame operation comes back from its
dispatch word, a host command from its bytes, and an alert word selects the handlers of its bits. -/

namespace Sys2Proof

/-! ## Dispatch words -/

/-- The bytes read are the same when they are read again. -/
@[simp] theorem validBytes_validBytes (x : DispatchFields) : x.validBytes.validBytes = x.validBytes := by
  simp only [DispatchFields.validBytes, DispatchFields.mk.injEq, true_and]
  refine ⟨?_, ?_, ?_⟩ <;> split <;> rfl

/-- A dispatch word with a DLC a frame can have decodes to the dispatcher's choice on its valid bytes (R109, R170). -/
theorem decodeRxf_of_dlc_le {w : DispatchWord} (h : (unpackDispatch w).dlc ≤ 8) :
    decodeRxf w = .ok (classify (unpackDispatch w).validBytes) := if_neg (Nat.not_lt.mpr h)

/-- The dispatch fields of every well-formed received-frame operation classify back to it (R105, R170). -/
theorem fieldsClassify (i : Instr) : Laws.FieldsClassify.Statement i := by
  cases i with
  | obdShort dlc d0 d1 => exact Laws.FieldsClassify.obdShort dlc d0 d1
  | obdM1Pid00 dlc d0 => exact Laws.FieldsClassify.obdM1Pid00 dlc d0
  | obdM1Pid05 dlc d0 => exact Laws.FieldsClassify.obdM1Pid05 dlc d0
  | obdM1Pid0C dlc d0 => exact Laws.FieldsClassify.obdM1Pid0C dlc d0
  | obdM1Pid0D dlc d0 => exact Laws.FieldsClassify.obdM1Pid0D dlc d0
  | obdM1Pid11 dlc d0 => exact Laws.FieldsClassify.obdM1Pid11 dlc d0
  | obdM1Pid2F dlc d0 => exact Laws.FieldsClassify.obdM1Pid2F dlc d0
  | obdM1Unsup dlc d0 pid => exact Laws.FieldsClassify.obdM1Unsup dlc d0 pid
  | obdM9Pid00 dlc d0 => exact Laws.FieldsClassify.obdM9Pid00 dlc d0
  | obdM9Pid02 dlc d0 => exact Laws.FieldsClassify.obdM9Pid02 dlc d0
  | obdM9Unsup dlc d0 pid => exact Laws.FieldsClassify.obdM9Unsup dlc d0 pid
  | obdModeUnsup dlc d0 mode pid => exact Laws.FieldsClassify.obdModeUnsup dlc d0 mode pid
  | fcCont dlc d1 d2 => exact Laws.FieldsClassify.fcCont dlc d1 d2
  | fcOther dlc d0 d1 d2 => exact Laws.FieldsClassify.fcOther dlc d0 d1 d2
  | rxIgnore x => exact Laws.FieldsClassify.rxIgnore x
  | _ => rintro - x ⟨⟩

/-- Exactly the received-frame operations come from dispatch fields. -/
theorem dispatchFields_isSome_iff (i : Instr) : i.dispatchFields.isSome = true ↔ i.format = .rxf := by
  cases i <;> simp [Instr.dispatchFields, Instr.format]

/-- A well-formed received-frame operation comes back from its dispatch word. -/
theorem decode_encode_rxf {i : Instr} (wf : i.wf = true) (rxf : i.format = .rxf) : decode (encode i) = .ok i := by
  obtain ⟨x, hx⟩ := Option.isSome_iff_exists.mp ((dispatchFields_isSome_iff i).mpr rxf)
  obtain ⟨short, valid, chosen⟩ := fieldsClassify i wf x hx
  have unpacked : unpackDispatch (packDispatch x) = x := unpackDispatch_packDispatch x (by omega)
  calc decode (encode i) = decodeRxf (packDispatch x) := by rw [encode_rxf i rxf, encodeRxf, hx]; rfl
    _ = .ok (classify x.validBytes) := by rw [decodeRxf_of_dlc_le (unpacked.symm ▸ short), unpacked]
    _ = .ok i := by rw [valid, chosen]

/-! ## Command bytes -/

/-- A Vehicle State update comes back from its bytes. -/
theorem takeVsUpdate_vsUpdateBytes (u : VsUpdate) (rest : List Byte) :
    takeVsUpdate (vsUpdateBytes u ++ rest) = some (u, rest) := by
  cases u with
  | vin v => simp [vsUpdateBytes, takeVsUpdate, takeArray_arrayBytes]
  | _ v => simp [vsUpdateBytes, takeVsUpdate, takeSignal_signalBytes]

/-- The operands of `CONFIGURE_START` come back from their bytes when the bit rate is positive (R130). -/
theorem takeConfigureStart_operands {rate : Rat} (positive : 0 < rate.num) (tx rx : Nat) (rest : List Byte) :
    takeConfigureStart (rateBytes rate ++ natBytes tx ++ natBytes rx ++ rest) = some (.configureStart rate tx rx, rest) := by
  simp [takeConfigureStart, takeRate_rateBytes _ _ positive, takeNat_natBytes]

/-- The operands of `SEND` come back from their bytes when the record lists exactly its data bytes (R132). -/
theorem takeSend_operands {f : Frame} (canonical : f.canonical = true) (timeout : Nat) (rest : List Byte) :
    takeSend (wireBytes (encodeWire f) ++ natBytes timeout ++ rest) = some (.send f timeout, rest) := by
  simp [takeSend, takeFrame_wireBytes _ _ canonical, takeNat_natBytes]

/-- A well-formed command is encoded as one of the eight codes (R101), and comes back from the bytes after it. -/
theorem takeCommand_encode {i : Instr} (wf : i.wf = true) (cmd : i.format = .cmd) :
    ∃ code operands, encode i = .cmd (code :: operands) ∧ code.toNat < 8 ∧
      ∀ rest, takeCommand code (operands ++ rest) = some (i, rest) := by
  cases i with
  | configureStart rate tx rx =>
    exact ⟨_, _, rfl, by decide, takeConfigureStart_operands (by simpa [Instr.wf] using wf) tx rx⟩
  | send f timeout => exact ⟨_, _, rfl, by decide, takeSend_operands wf timeout⟩
  | pollReceive timeout => exact ⟨_, _, rfl, by decide, fun rest => by simp [takeCommand, takeNat_natBytes]⟩
  | vsWrite u => exact ⟨_, _, rfl, by decide, fun rest => by simp [takeCommand, takeVsUpdate_vsUpdateBytes]⟩
  | pollAlerts | stop | getStatus | diagReport => exact ⟨_, _, rfl, by decide, fun _ => rfl⟩
  | _ => cases cmd

/-- Bytes whose code is no reserved one and whose operands leave only zeros decode to the command read (R101). -/
theorem decodeCmd_of_takeCommand {code : Byte} {bs rest : List Byte} {i : Instr} (known : code.toNat < 8)
    (taken : takeCommand code bs = some (i, rest)) (padding : rest.all (· == 0) = true) :
    decodeCmd (code :: bs) = .ok i := by
  rw [decodeCmd, if_neg (Nat.not_le.mpr known), taken]
  exact if_pos padding

/-- A well-formed command comes back from its bytes. -/
theorem decode_encode_cmd {i : Instr} (wf : i.wf = true) (cmd : i.format = .cmd) : decode (encode i) = .ok i := by
  obtain ⟨code, operands, encoded, known, taken⟩ := takeCommand_encode wf cmd
  rw [encoded]
  exact decodeCmd_of_takeCommand known (List.append_nil operands ▸ taken []) rfl

/-! ## The three formats together -/

/-- Outside the alert words, a word selects what the decoder reads, and nothing else. -/
theorem mem_selected_of_decode {w : OpWord} {i : Instr} (decoded : decode w = .ok i) (h : w.format ≠ .alert) :
    i ∈ selected w := by
  cases w with
  | alert a => exact absurd rfl h
  | _ => simp [selected, decoded]

/-- A handler is among those its alert word selects when the word has the handler's bit (R112). -/
theorem mem_selected_encode_alert {i : Instr} (wf : i.wf = true) (alert : i.format = .alert) :
    i ∈ selected (encode i) := by
  cases i with
  | alertBusOff a | alertBusRecovered a =>
    have bit : a.testBit _ = true := wf
    simp [encode, selected, alertHandlers, bit]
  | _ => cases alert

/-- An operation's encoding has its format (R110, R111, R112). -/
theorem encode_format (i : Instr) : (encode i).format = i.format := by cases i <;> rfl

end Sys2Proof

namespace Sys2Proof.Machine

/-- Settles O3: by format, a dispatch word unpacks and classifies back, command bytes are taken back one operand after
the other, and an alert word selects the handler of each bit it has. -/
theorem decodeInvertsEncode : Obligations.DecodeInvertsEncode := by
  intro i wf
  have decoded (h : i.format ≠ .alert) : decode (encode i) = .ok i := by
    cases format : i.format with
    | rxf => exact decode_encode_rxf wf format
    | cmd => exact decode_encode_cmd wf format
    | alert => exact absurd format h
  refine ⟨?_, decoded⟩
  by_cases alert : i.format = .alert
  · exact mem_selected_encode_alert wf alert
  · exact mem_selected_of_decode (decoded alert) (encode_format i ▸ alert)

/-- Settles O4: the operation of a frame holds the frame's dispatch fields (R105). -/
theorem encodeInvertsFrameDecode : Obligations.EncodeInvertsFrameDecode := by
  intro f frame
  obtain ⟨-, short, valid⟩ := unpackDispatch_dispatchWord f frame
  obtain ⟨fields, wf, rxf⟩ := classify_fields _ short valid
  refine ⟨_, decodeFrame_eq f frame, wf, ?_⟩
  rw [encode_rxf _ rxf, encodeRxf, fields]
  rfl

end Sys2Proof.Machine
end

section
/-! PROOFS. The dispatcher's choice is the first row of the operation map that holds (R109, R110, R170): the fifteen rows
in terms of the fields of the word, and the procedure's branches against them. -/

namespace Sys2Proof

/-- Exactly the received-frame operations have a name among the RXF rows (R110). -/
theorem rxfMnemonic_isSome_iff (i : Instr) : i.rxfMnemonic.isSome = true ↔ i.format = .rxf := by
  cases i <;> simp [Instr.rxfMnemonic, Instr.format]

/-! ## The rows in order, as tests of fields -/

section
variable {w : DispatchWord}

/-- The flags and identifier that the functional rows test, as fields. -/
theorem isFunctional_iff :
    isFunctional w = true ↔
      (unpackDispatch w).extd = false ∧ (unpackDispatch w).rtr = false ∧ (unpackDispatch w).id = idFuncReq := by
  simp [isFunctional, unpackDispatch, and_assoc]

/-- The flags and identifier that the physical rows test, as fields. -/
theorem isPhysical_iff :
    isPhysical w = true ↔
      (unpackDispatch w).extd = false ∧ (unpackDispatch w).rtr = false ∧ (unpackDispatch w).id = idPhysReq := by
  simp [isPhysical, unpackDispatch, and_assoc]

/-- The first row of a list that selects the word is its head, or the first of the others. -/
theorem find?_selects_cons (r : RxfRow) (rows : List RxfRow) :
    ((r :: rows).find? (·.selects w)).map (·.mnemonic) =
      if r.selects w = true then some r.mnemonic else (rows.find? (·.selects w)).map (·.mnemonic) := by
  rw [List.find?_cons]
  cases r.selects w <;> rfl

/-- The fifteen rows in order (R110), each as what it tests of the fields of a word with a DLC a frame can have. -/
theorem tableMnemonic_eq {x : DispatchFields} (hx : unpackDispatch w = x) (short : x.dlc ≤ 8) :
    tableMnemonic w =
      if isFunctional w = true ∧ x.dlc ≤ 2 then some "OBD.SHORT"
      else if isFunctional w = true ∧ x.d1 = 0x01 ∧ x.d2 = 0x00 ∧ 3 ≤ x.dlc then some "OBD.M1.PID00"
      else if isFunctional w = true ∧ x.d1 = 0x01 ∧ x.d2 = 0x05 ∧ 3 ≤ x.dlc then some "OBD.M1.PID05"
      else if isFunctional w = true ∧ x.d1 = 0x01 ∧ x.d2 = 0x0C ∧ 3 ≤ x.dlc then some "OBD.M1.PID0C"
      else if isFunctional w = true ∧ x.d1 = 0x01 ∧ x.d2 = 0x0D ∧ 3 ≤ x.dlc then some "OBD.M1.PID0D"
      else if isFunctional w = true ∧ x.d1 = 0x01 ∧ x.d2 = 0x11 ∧ 3 ≤ x.dlc then some "OBD.M1.PID11"
      else if isFunctional w = true ∧ x.d1 = 0x01 ∧ x.d2 = 0x2F ∧ 3 ≤ x.dlc then some "OBD.M1.PID2F"
      else if isFunctional w = true ∧ x.d1 = 0x01 ∧ 3 ≤ x.dlc then some "OBD.M1.UNSUP"
      else if isFunctional w = true ∧ x.d1 = 0x09 ∧ x.d2 = 0x00 ∧ 3 ≤ x.dlc then some "OBD.M9.PID00"
      else if isFunctional w = true ∧ x.d1 = 0x09 ∧ x.d2 = 0x02 ∧ 3 ≤ x.dlc then some "OBD.M9.PID02"
      else if isFunctional w = true ∧ x.d1 = 0x09 ∧ 3 ≤ x.dlc then some "OBD.M9.UNSUP"
      else if isFunctional w = true ∧ 3 ≤ x.dlc then some "OBD.MODE.UNSUP"
      else if isPhysical w = true ∧ x.d0 = fcContinue ∧ 1 ≤ x.dlc then some "FC.CONT"
      else if isPhysical w = true then some "FC.OTHER"
      else some "RX.IGNORE" := by
  subst hx
  have short' : (slice w 24 4).toNat ≤ 8 := short
  simp only [tableMnemonic, rxfRows, List.cons_append, List.nil_append, find?_selects_cons, selects_header,
    selects_continue, selects_physical, selects_any, selects_mode w _ 3 8 0x01 0x07DF0000100 (by decide),
    selects_mode w _ 3 8 0x09 0x07DF0000900 (by decide), selects_pid w _ 3 8 0x01 0x00 0x07DF0000100 (by decide),
    selects_pid w _ 3 8 0x01 0x05 0x07DF0000105 (by decide), selects_pid w _ 3 8 0x01 0x0C 0x07DF000010C (by decide),
    selects_pid w _ 3 8 0x01 0x0D 0x07DF000010D (by decide), selects_pid w _ 3 8 0x01 0x11 0x07DF0000111 (by decide),
    selects_pid w _ 3 8 0x01 0x2F 0x07DF000012F (by decide), selects_pid w _ 3 8 0x09 0x00 0x07DF0000900 (by decide),
    selects_pid w _ 3 8 0x09 0x02 0x07DF0000902 (by decide)]
  simp [short', unpackDispatch, and_assoc]

/-! ## The procedure's branches against the rows -/

/-- A frame of three bytes or more has all three bytes of its dispatch word. -/
theorem validBytes_of_three_le {x : DispatchFields} (h : 3 ≤ x.dlc) : x.validBytes = x := by
  simp [DispatchFields.validBytes, h, show 1 ≤ x.dlc by omega, show 2 ≤ x.dlc by omega]

/-- The names of the Mode 1 classes, in the order of the PIDs. -/
theorem rxfMnemonic_classifyM1 (dlc : Nat) (d0 pid : Byte) :
    (classifyM1 dlc d0 pid).rxfMnemonic =
      if pid = 0x00 then some "OBD.M1.PID00" else if pid = 0x05 then some "OBD.M1.PID05"
      else if pid = 0x0C then some "OBD.M1.PID0C" else if pid = 0x0D then some "OBD.M1.PID0D"
      else if pid = 0x11 then some "OBD.M1.PID11" else if pid = 0x2F then some "OBD.M1.PID2F"
      else some "OBD.M1.UNSUP" := by
  simp only [classifyM1, apply_ite Instr.rxfMnemonic]
  rfl

/-- The names of the Mode 9 classes, in the order of the PIDs. -/
theorem rxfMnemonic_classifyM9 (dlc : Nat) (d0 pid : Byte) :
    (classifyM9 dlc d0 pid).rxfMnemonic =
      if pid = 0x00 then some "OBD.M9.PID00" else if pid = 0x02 then some "OBD.M9.PID02" else some "OBD.M9.UNSUP" := by
  simp only [classifyM9, apply_ite Instr.rxfMnemonic]
  rfl

/-- The functional branch of the procedure is the rows 1 to 12. -/
theorem rxfMnemonic_classify_functional (functional : isFunctional w = true) (short : (unpackDispatch w).dlc ≤ 8) :
    (classify (unpackDispatch w).validBytes).rxfMnemonic = tableMnemonic w := by
  obtain ⟨extd, rtr, id⟩ := isFunctional_iff.mp functional
  rw [tableMnemonic_eq rfl short]
  generalize unpackDispatch w = x at *
  by_cases request : 3 ≤ x.dlc
  · have long : ¬x.dlc < 3 := Nat.not_lt.mpr request
    have past : ¬x.dlc ≤ 2 := by omega
    rw [validBytes_of_three_le request]
    by_cases mode1 : x.d1 = 0x01
    · have chosen : classify x = classifyM1 x.dlc x.d0 x.d2 := by simp [classify, extd, rtr, id, long, mode1]
      rw [chosen, rxfMnemonic_classifyM1]
      simp [functional, past, request, mode1]
    · by_cases mode9 : x.d1 = 0x09
      · have chosen : classify x = classifyM9 x.dlc x.d0 x.d2 := by simp [classify, extd, rtr, id, long, mode9]
        rw [chosen, rxfMnemonic_classifyM9]
        simp [functional, past, request, mode9]
      · have chosen : classify x = .obdModeUnsup x.dlc x.d0 x.d1 x.d2 := by
          simp only [classify, extd, rtr, id, long, mode1, mode9]
          rfl
        rw [chosen]
        simp only [functional, past, request, mode1, mode9]
        rfl
  · have row : x.dlc ≤ 2 := by omega
    have chosen : classify x.validBytes = .obdShort x.dlc x.validBytes.d0 x.validBytes.d1 := by
      simp [classify, DispatchFields.validBytes, extd, rtr, id, Nat.not_le.mp request]
    rw [chosen, if_pos ⟨functional, row⟩]
    rfl

/-- The physical branch of the procedure is the rows 13 and 14. -/
theorem rxfMnemonic_classify_physical (functional : isFunctional w = false) (physical : isPhysical w = true)
    (short : (unpackDispatch w).dlc ≤ 8) :
    (classify (unpackDispatch w).validBytes).rxfMnemonic = tableMnemonic w := by
  obtain ⟨extd, rtr, id⟩ := isPhysical_iff.mp physical
  have other : idPhysReq ≠ idFuncReq := by decide
  rw [tableMnemonic_eq rfl short]
  generalize unpackDispatch w = x at *
  by_cases continues : x.d0 = fcContinue ∧ 1 ≤ x.dlc
  · have chosen : classify x.validBytes = .fcCont x.dlc x.validBytes.d1 x.validBytes.d2 := by
      simp [classify, DispatchFields.validBytes, extd, rtr, id, other, continues]
    simp [chosen, functional, physical, continues, Instr.rxfMnemonic]
  · have chosen : classify x.validBytes = .fcOther x.dlc x.validBytes.d0 x.validBytes.d1 x.validBytes.d2 := by
      simp only [classify, DispatchFields.validBytes, extd, rtr, id, other]
      grind
    simp [chosen, functional, physical, continues, Instr.rxfMnemonic]

/-- Every other word is the last row's, which matches everything. -/
theorem rxfMnemonic_classify_other (functional : isFunctional w = false) (physical : isPhysical w = false)
    (short : (unpackDispatch w).dlc ≤ 8) :
    (classify (unpackDispatch w).validBytes).rxfMnemonic = tableMnemonic w := by
  have ignored : classify (unpackDispatch w).validBytes = .rxIgnore (unpackDispatch w).validBytes := by
    rw [← Bool.not_eq_true, isFunctional_iff] at functional
    rw [← Bool.not_eq_true, isPhysical_iff] at physical
    simp only [classify, DispatchFields.validBytes]
    grind
  rw [tableMnemonic_eq rfl short, ignored]
  simp [functional, physical, Instr.rxfMnemonic]

/-- The procedure and the table name the same operation (R109, R170). -/
theorem rxfMnemonic_classify (short : (unpackDispatch w).dlc ≤ 8) :
    (classify (unpackDispatch w).validBytes).rxfMnemonic = tableMnemonic w := by
  cases functional : isFunctional w with
  | true => exact rxfMnemonic_classify_functional functional short
  | false =>
    cases physical : isPhysical w with
    | true => exact rxfMnemonic_classify_physical functional physical short
    | false => exact rxfMnemonic_classify_other functional physical short

end

end Sys2Proof

namespace Sys2Proof.Machine

/-- Settles O2: the decoder makes the procedure's choice, which is well-formed and bears the name of the table's row. -/
theorem dispatchIsTheTablesFirstRow : Obligations.DispatchIsTheTablesFirstRow := by
  intro w short
  obtain ⟨-, wf, rxf⟩ := classify_fields (unpackDispatch w).validBytes short (validBytes_validBytes _)
  obtain ⟨m, name⟩ := Option.isSome_iff_exists.mp ((rxfMnemonic_isSome_iff _).mpr rxf)
  exact ⟨_, m, decodeRxf_of_dlc_le short, wf, name, rxfMnemonic_classify short ▸ name⟩

/-- Settles O28: every frame makes the procedure's choice, which has a name, and the six meanings are the identity. -/
theorem ignoredClassesDoNothing : Obligations.IgnoredClassesDoNothing := by
  refine ⟨fun f frame => ?_, fun s dlc d0 d1 d2 x => ⟨rfl, rfl, rfl, rfl, rfl, rfl⟩⟩
  obtain ⟨-, short, valid⟩ := unpackDispatch_dispatchWord f frame
  obtain ⟨-, -, rxf⟩ := classify_fields _ short valid
  obtain ⟨m, name⟩ := Option.isSome_iff_exists.mp ((rxfMnemonic_isSome_iff _).mpr rxf)
  exact ⟨_, m, decodeFrame_eq f frame, name⟩

end Sys2Proof.Machine
end

section
/-! PROOFS. The wire representation (R92 to R95): the fields of an encoded frame, the records a word spells, and the words
that come back. -/

namespace Sys2Proof

/-! ## What a word spells -/

section
variable {w : WireWord} {f : Frame}

/-- A word decodes to a frame exactly when it spells that record and the record is a Frame (R94). -/
theorem decodeWire_eq_some_iff : decodeWire w = some f ↔ (wireRecord w).valid = true ∧ wireRecord w = f := by
  simp [decodeWire]

/-- The record a word spells is a Frame when the DLC field and the identifier of a standard frame allow it (R91). -/
theorem wireRecord_valid_iff :
    (wireRecord w).valid = true ↔
      (slice w 64 4).toNat ≤ 8 ∧ (w.getLsbD 98 = true ∨ slice (slice w 68 29) 11 18 = 0) := valid_iff _

/-- A valid byte of the record is the word's byte field of that index (R92). -/
theorem wireRecord_data (i : Nat) (h : i < (slice w 64 4).toNat) (h8 : i < 8) :
    (wireRecord w).data[i]? = some (slice w (56 - 8 * i) 8) := by
  rw [wireRecord, List.getElem?_take_of_lt h]
  interval_cases i <;> rfl

/-- A byte of the record is the word's byte field below the DLC field, and `0x00` past it (R93). -/
theorem wireRecord_byte (i : Nat) (h8 : i < 8) :
    (wireRecord w).byte i = if i < (slice w 64 4).toNat then slice w (56 - 8 * i) 8 else 0 := by
  refine ite_congr rfl (fun valid => ?_) fun _ => rfl
  rw [List.getD_eq_getElem?_getD, wireRecord_data i valid h8, Option.getD_some]

/-! ## Words by their fields -/

/-- Two words with the same fields are the same word: the fields of R92 cover all 99 bits. -/
theorem wireWord_ext {v : WireWord} (extd : v.getLsbD 98 = w.getLsbD 98) (rtr : v.getLsbD 97 = w.getLsbD 97)
    (id : slice v 68 29 = slice w 68 29) (dlc : slice v 64 4 = slice w 64 4)
    (bytes : ∀ i < 8, slice v (56 - 8 * i) 8 = slice w (56 - 8 * i) 8) : v = w := by
  have field {lo n : Nat} (same : slice v lo n = slice w lo n) (k : Nat) (hk : k < n) :
      v.getLsbD (lo + k) = w.getLsbD (lo + k) := by
    simpa only [slice_getLsbD, hk, decide_true, Bool.true_and] using congrArg (·.getLsbD k) same
  apply BitVec.eq_of_getLsbD_eq
  intro k hk
  rcases (by omega : k = 98 ∨ k = 97 ∨ (68 ≤ k ∧ k < 97) ∨ (64 ≤ k ∧ k < 68) ∨ k < 64) with
    rfl | rfl | ⟨lo, hi⟩ | ⟨lo, hi⟩ | low
  · exact extd
  · exact rtr
  · simpa [Nat.add_sub_cancel' lo] using field id (k - 68) (by omega)
  · simpa [Nat.add_sub_cancel' lo] using field dlc (k - 64) (by omega)
  · have at_k : 56 - 8 * (7 - k / 8) + k % 8 = k := by omega
    simpa [at_k] using field (bytes (7 - k / 8) (by omega)) (k % 8) (by omega)

/-- Encoding the record a word spells gives the word back exactly when every byte field is the record's byte. -/
theorem encodeWire_wireRecord_iff :
    encodeWire (wireRecord w) = w ↔ ∀ i < 8, (wireRecord w).byte i = slice w (56 - 8 * i) 8 := by
  constructor
  · intro same i h8
    rw [← slice_encodeWire_byte _ i h8, same]
  · intro bytes
    refine wireWord_ext (encodeWire_extd _) (encodeWire_rtr _) (slice_encodeWire_id _) ?_ fun i h8 => ?_
    · rw [slice_encodeWire_dlc]
      simp [wireRecord]
    · rw [slice_encodeWire_byte _ i h8, bytes i h8]

/-! ## What an encoded frame spells -/

/-- The DLC field of a frame's word is its DLC (R93). -/
theorem encodeWire_dlc_toNat (valid : f.valid = true) : (slice (encodeWire f) 64 4).toNat = f.dlc := by
  have short : f.dlc ≤ 8 := ((valid_iff f).mp valid).1
  rw [slice_encodeWire_dlc, BitVec.toNat_ofNat]
  exact Nat.mod_eq_of_lt (by omega)

/-- The word of a frame decodes, to the record that it spells (R95). -/
theorem decodeWire_encodeWire (valid : f.valid = true) :
    decodeWire (encodeWire f) = some (wireRecord (encodeWire f)) := by
  refine decodeWire_eq_some_iff.mpr ⟨?_, rfl⟩
  rw [wireRecord_valid_iff, encodeWire_dlc_toNat valid, encodeWire_extd, slice_encodeWire_id]
  exact (valid_iff f).mp valid

end

end Sys2Proof

namespace Sys2Proof.Machine

/-- Settles O5: each field of the word is the one placed there. -/
theorem wireWordFields : Obligations.WireWordFields := fun f valid =>
  ⟨encodeWire_extd f, encodeWire_rtr f, slice_encodeWire_id f, encodeWire_dlc_toNat valid, slice_encodeWire_byte f⟩

/-- Settles O6: the two clauses are the record's validity and its failure. -/
theorem wireDecodeIsTotal : Obligations.WireDecodeIsTotal := by
  refine fun w => ⟨fun bad => ?_, fun short id => ?_⟩
  · rw [Option.eq_none_iff_forall_ne_some]
    intro f decoded
    obtain ⟨short, id⟩ := wireRecord_valid_iff.mp (decodeWire_eq_some_iff.mp decoded).1
    rcases bad with long | ⟨standard, high⟩
    · exact absurd short (Nat.not_le.mpr long)
    · exact id.elim (fun extd => absurd (standard.symm.trans extd) Bool.false_ne_true) high
  · have decoded : decodeWire w = some (wireRecord w) :=
      decodeWire_eq_some_iff.mpr ⟨wireRecord_valid_iff.mpr ⟨short, id⟩, rfl⟩
    exact ⟨_, decoded, decodeWire_isFrame decoded, rfl, rfl, rfl, rfl,
      fun i valid => wireRecord_data i valid (lt_of_lt_of_le valid short)⟩

/-- Settles O7: the fields of an encoded frame are its own, and a word comes back when the bytes of its record, which are
zero past the DLC, are its byte fields. -/
theorem wireRoundTrip : Obligations.WireRoundTrip := by
  refine ⟨fun f valid => ?_, fun w f decoded => ?_⟩
  · have dlc := encodeWire_dlc_toNat valid
    refine ⟨_, decodeWire_encodeWire valid, encodeWire_extd f, encodeWire_rtr f, slice_encodeWire_id f, dlc,
      fun i hi => ?_⟩
    have h8 : i < 8 := lt_of_lt_of_le hi ((valid_iff f).mp valid).1
    rw [wireRecord_byte i h8, dlc, if_pos hi, slice_encodeWire_byte f i h8]
  · obtain ⟨-, rfl⟩ := decodeWire_eq_some_iff.mp decoded
    refine encodeWire_wireRecord_iff.trans (forall₂_congr fun i h8 => ?_)
    rw [wireRecord_byte i h8]
    by_cases valid : i < (slice w 64 4).toNat
    · exact iff_of_true (if_pos valid) fun past => absurd valid (Nat.not_lt.mpr past)
    · rw [if_neg valid]
      exact ⟨fun zero _ => zero.symm, fun zero => (zero (Nat.not_lt.mp valid)).symm⟩

end Sys2Proof.Machine
end

section
/-! PROOFS. A stored table word is what the next step runs, words written out decode as the map says, and a reserved
command code is refused (R101, R105, R112, R116, R260). -/

namespace Sys2Proof

/-- A table word that decodes spells that operation. -/
theorem decode_of_decodeTableWord {nbits w : Nat} {i : Instr} (h : decodeTableWord nbits w = some i) :
    decode (tableOpWord nbits w) = .ok i := by
  unfold decodeTableWord at h
  split at h
  · next decoded => rw [decoded, Option.some.inj h]
  · cases h

/-- A dispatch word that decodes has a DLC a frame can have (R91). -/
theorem dlc_le_of_decodeRxf {w : DispatchWord} {i : Instr} (h : decodeRxf w = .ok i) : (unpackDispatch w).dlc ≤ 8 := by
  by_contra long
  rw [decodeRxf, if_pos (Nat.not_le.mp long)] at h
  cases h

/-- The frame of some fields has those fields, with zeros past the DLC (R105). -/
theorem dispatchFields_frameOfFields (x : DispatchFields) : dispatchFields (frameOfFields x) = x.validBytes := by
  have id : (x.id.setWidth 29).setWidth 11 = x.id := BitVec.setWidth_setWidth_of_le x.id (by decide)
  have byte (k : Nat) :
      (frameOfFields x).byte k = if k < x.dlc then [x.d0, x.d1, x.d2, 0, 0, 0, 0, 0].getD k 0 else 0 :=
    ite_congr rfl (fun valid => by simp [frameOfFields, List.getD_eq_getElem?_getD, List.getElem?_take_of_lt valid])
      fun _ => rfl
  simp only [dispatchFields, byte]
  simp only [frameOfFields, id]
  rfl

/-- The frame of some fields with a DLC a frame can have is a Frame. -/
theorem isFrame_frameOfFields {x : DispatchFields} (short : x.dlc ≤ 8) : Machine.isFrame (frameOfFields x) = true := by
  have id : slice (x.id.setWidth 29) 11 18 = 0 := by
    apply BitVec.eq_of_getLsbD_eq
    intro k hk
    simp [slice_getLsbD]
  have len : (frameOfFields x).data.length = x.dlc := by
    simp only [frameOfFields, List.length_take, List.length_cons, List.length_nil]
    omega
  simp only [Machine.isFrame, Bool.and_eq_true, beq_iff_eq, valid_iff]
  exact ⟨⟨short, .inr id⟩, len⟩

/-- The frame of a dispatch word's fields decodes as the word does (R184). -/
theorem decodeFrame_frameOfFields {w : DispatchWord} (short : (unpackDispatch w).dlc ≤ 8) :
    decodeFrame (frameOfFields (unpackDispatch w)) = decodeRxf w := by
  rw [Machine.decodeFrame_eq _ (isFrame_frameOfFields short), dispatchFields_frameOfFields, decodeRxf_of_dlc_le short]

/-- An alert word that does not have both bits selects only the handler it decodes to (R112). -/
theorem selected_alert_of_decode {a : AlertWord} {i : Instr} (single : ¬(a.testBit 0 = true ∧ a.testBit 1 = true))
    (decoded : decode (.alert a) = .ok i) : selected (.alert a) = [i] := by
  have few : (alertHandlers a).length ≤ 1 := by
    rcases not_and_or.mp single with no | no <;> simp only [alertHandlers, if_neg no] <;> split <;> simp
  change decodeAlert a = .ok i at decoded
  unfold decodeAlert at decoded
  split at decoded
  · next j rest handlers =>
    cases decoded
    rw [handlers] at few
    have alone : rest = [] := List.eq_nil_of_length_eq_zero (by simpa using few)
    exact handlers.trans (by rw [alone])
  · cases decoded

end Sys2Proof

namespace Sys2Proof.Machine

/-- Running one operation is its meaning. -/
theorem runAll_singleton (i : Instr) (s : State) : runAll [i] s = exec i s := by
  simp only [runAll]
  cases exec i s <;> rfl

/-! ## The step after a word is stored -/

/-- A stored dispatch word is dispatched by the next step, the responder being between iterations (R158). -/
theorem step_placeOp_rxf {w : DispatchWord} {i : Instr} (decoded : decode (.rxf w) = .ok i) (s : State) :
    step (placeOp (.rxf w) s) = exec i { s with block := { s.block with release := none, sending := none } } := by
  have frame : decodeFrame (frameOfFields (unpackDispatch w)) = .ok i :=
    (decodeFrame_frameOfFields (dlc_le_of_decodeRxf decoded)).trans decoded
  calc step (placeOp (.rxf w) s)
      = runDecoded (decodeFrame (frameOfFields (unpackDispatch w)))
          { s with block := { s.block with release := none, sending := none } } := rfl
    _ = exec i { s with block := { s.block with release := none, sending := none } } := by rw [frame]; rfl

/-- A stored command is run by the next step, the loops halted under the three calls of R306. -/
theorem step_placeOp_cmd {bytes : List Byte} {i : Instr} (decoded : decode (.cmd bytes) = .ok i) (s : State) :
    step (placeOp (.cmd bytes) s) =
      exec i (if isLoopCall i then { s with block := { s.block with rxloopActive := false } } else s) := by
  have run : step (placeOp (.cmd bytes) s) = hostStep bytes { hostMayCall bytes s with script := s.script } := rfl
  rw [run]
  simp only [hostStep, hostMayCall, decoded]
  cases isLoopCall i <;> rfl

/-- A stored alert word with one handler is polled by the next step of the receive loop, which runs that handler with the
bus state latched (R153, R260). -/
theorem step_placeOp_alert {a : AlertWord} {i : Instr} (selects : selected (.alert a) = [i]) (s : State) :
    step (placeOp (.alert a) s) =
      exec i
        (latchState
          { s with
            block := { s.block with ctrlInstalled := true, rxloopActive := true }
            link := { s.link with alertsPending := 0, rxFifo := [] } }) := by
  have run : step (placeOp (.alert a) s) = handlerStep a { alertsToPoll 0 s with script := s.script } := rfl
  rw [run, handlerStep, selects, runAll_singleton]
  rfl

/-- Settles O9: by the width of the word, the responder, the host or the receive loop takes it up. -/
theorem stepRunsFetchedTableWord : Obligations.StepRunsFetchedTableWord := by
  refine ⟨fun s nbits w i lo hi word => ?_, fun s w i word => ?_, fun s nbits w i no8 no41 single word => ?_⟩
  · have op : tableOpWord nbits w = .rxf (BitVec.ofNat 41 w) := by
      rw [tableOpWord, if_neg (by omega), if_pos ⟨lo, hi⟩]
    have decoded := decode_of_decodeTableWord word
    rw [op] at decoded
    rw [State.withFetchWord, op, step_placeOp_rxf decoded]
  · exact step_placeOp_cmd (decode_of_decodeTableWord word) s
  · have op : tableOpWord nbits w = .alert w := by rw [tableOpWord, if_neg no8, if_neg no41]
    have decoded := decode_of_decodeTableWord word
    rw [op] at decoded
    rw [State.withFetchWord, op, step_placeOp_alert (selected_alert_of_decode single decoded)]

/-- Settles O55: a code of 8 or more is refused before any operand is read. -/
theorem reservedCommandsAreRefused : Obligations.ReservedCommandsAreRefused := by
  intro s code operands reserved
  have rejected : decode (.cmd (code :: operands)) = .reject (.reservedCommand code) := if_pos reserved
  rw [runEvent, hostStep, rejected]

/-- Settles O1: the model's decoder evaluated on the eleven words. -/
theorem decodesWrittenWords : Obligations.DecodesWrittenWords := by
  unfold Obligations.DecodesWrittenWords
  decide

end Sys2Proof.Machine
end

section
/-! PROOFS. The transport commands and the Vehicle State write (R130 to R135, R149): each command's outcomes, picked from what
the laws say it can do by the state it runs in and by what the Link draws. -/

namespace Sys2Proof.Machine

/-! ## Starting and stopping the controller -/

/-- Settles O31: of the four outcomes of `CONFIGURE_START`, no controller and two draws `ok` leave the last. -/
theorem configureStartSucceeds : Obligations.ConfigureStartSucceeds := by
  intro rate tx rx s absent install start
  rcases configureStart_cases rate tx rx s with ⟨h, -⟩ | ⟨-, h, -⟩ | ⟨-, -, h, -⟩ | ⟨-, -, -, e⟩
  · simp [absent] at h
  · simp [install] at h
  · simp [start] at h
  · exact congrArg Host.Outcome.next e

/-- Settles O32: each of the four outcomes of `CONFIGURE_START` meets the clause it belongs to, and the other clauses do not
apply to it. -/
theorem configureStartFails : Obligations.ConfigureStartFails := by
  intro rate tx rx s
  have run : exec (.configureStart rate tx rx) s = .next (configureStart rate tx rx s) := rfl
  rcases configureStart_cases rate tx rx s with ⟨there, e⟩ | ⟨absent, install, e⟩ | ⟨absent, install, start, e⟩ |
    ⟨absent, install, start, -⟩
  · simp [run, e, there, raise, returns]
  · simp [run, e, absent, install]
  · simp [run, e, absent, install, start]
  · simp [absent, install, start]

/-- `STOP` without a controller makes no control call (R131). -/
theorem stopController_absent {s : State} (absent : s.block.ctrlInstalled = false) :
    stopController s = { s with block := { s.block with rxloopActive := false, busState := .stopped } } := by
  simp [stopController_eq, absent]

/-- A `STOP` changes nothing in a state that is stopped already and holds what a `STOP` returns (R131). -/
theorem exec_stop_of_stopped {t : State} (absent : t.block.ctrlInstalled = false) (inactive : t.block.rxloopActive = false)
    (stopped : t.block.busState = .stopped) (ended : t.result = .unit) : exec .stop t = .next t := by
  have run : exec .stop t = .next (returns .unit (stopController t)) := rfl
  rw [run, stopController_absent absent, ← inactive, ← stopped, returns, ← ended]

/-- Settles O33: what a `STOP` leaves is a stopped state, where a second one has nothing to do. -/
theorem stopHaltsAndIsIdempotent : Obligations.StopHaltsAndIsIdempotent := by
  have run (s : State) : exec .stop s = .next (returns .unit (stopController s)) := rfl
  refine ⟨fun s there => ?_, fun s absent => ?_, fun s t h => ?_⟩
  · simp [run, stopController_eq, there, returns]
  · rw [run, stopController_absent absent, returns]
  · cases h
    apply exec_stop_of_stopped <;> simp [stopController_eq]

/-! ## Sending and polling -/

/-- Settles O34: a `SEND` is refused by its own tests, or ends in one of the three ways the Link draws. -/
theorem sendOutcomes : Obligations.SendOutcomes := by
  intro f timeout s
  have run : exec (.send f timeout) s = .next (sendResult (send f timeout s).1 (send f timeout s).2) := rfl
  refine ⟨fun refused => ?_, fun valid running => ?_⟩
  · rw [run, send_refused f timeout s refused]
    rfl
  · rcases send_asked f timeout s valid running with ⟨draw, e⟩ | ⟨draw, e⟩ | ⟨draw, e⟩
    · simp [run, e, draw, sendResult, returns, acceptFrame]
    · simp [run, e, draw, sendResult, raise, returns]
    · simp [run, e, draw, sendResult, raise, returns]

/-- A poll without a controller, or of one that has received nothing, asks nobody and returns nothing (R133). -/
theorem pollReceive_idle {s : State} (timeout : Nat) (h : s.block.ctrlInstalled = false ∨ s.link.rxFifo = []) :
    pollReceive timeout s = (none, s) := by
  rcases h with absent | empty
  · simp [pollReceive, absent]
  · simp [pollReceive, linkReceive, empty]

/-- A poll that times out over a waiting word leaves it (R133). -/
theorem pollReceive_late {s : State} {w : WireWord} {rest : List WireWord} {timeout : Nat}
    (installed : s.block.ctrlInstalled = true) (waiting : s.link.rxFifo = w :: rest)
    (late : (drawRecv timeout s).1 = .timeout) :
    pollReceive timeout s = (none, { s with draws := (drawRecv timeout s).2.draws }) := by
  have drawn : drawRecv timeout s = (.timeout, _) := Prod.ext late (drawRecv_state timeout s)
  simp only [pollReceive, linkReceive, installed, waiting]
  rw [drawn]
  rfl

/-- A poll to which the waiting word is delivered takes it from the controller's queue (R66, R133). -/
theorem pollReceive_delivered {s : State} {w : WireWord} {rest : List WireWord} {timeout : Nat}
    (installed : s.block.ctrlInstalled = true) (waiting : s.link.rxFifo = w :: rest)
    (delivered : (drawRecv timeout s).1 = .deliver) :
    pollReceive timeout s =
      (decodeWire w, { s with draws := (drawRecv timeout s).2.draws, link := { s.link with rxFifo := rest } }) := by
  have drawn : drawRecv timeout s = (.deliver, _) := Prod.ext delivered (drawRecv_state timeout s)
  simp only [pollReceive, linkReceive, installed, waiting]
  rw [drawn]
  rfl

/-- Settles O35: a poll is idle, or the fate of the word at the head is the Link's draw. -/
theorem pollReceiveOutcomes : Obligations.PollReceiveOutcomes := by
  intro timeout s
  have run : exec (.pollReceive timeout) s =
      .next (returns (.frame (pollReceive timeout s).1) (pollReceive timeout s).2) := rfl
  refine ⟨fun idle => ?_, fun w rest installed waiting => ⟨fun late => ?_, fun delivered => ?_⟩⟩
  · rw [run, pollReceive_idle timeout idle, returns]
  · rw [run, pollReceive_late installed waiting late, returns]
  · rw [run, pollReceive_delivered installed waiting delivered, returns]

/-- Settles O36: a poll takes the pending set and leaves none for the next (R134). -/
theorem pollAlertsReadsAndClears : Obligations.PollAlertsReadsAndClears := by
  have run (s : State) : exec .pollAlerts s = .next (returns (.alerts (pollAlerts s).1) (pollAlerts s).2) := rfl
  refine ⟨fun s there => ?_, fun s absent => ?_, fun s t h => ?_⟩
  · simp [run, pollAlerts_eq, there, returns]
  · simp [run, pollAlerts_eq, absent, returns]
  · cases h
    cases there : s.block.ctrlInstalled <;> simp [run, pollAlerts_eq, there, returns]

/-- Settles O37: with a controller and without one. -/
theorem getStatusReads : Obligations.GetStatusReads := by
  intro s
  have run : exec .getStatus s = .next { s with result := .status (busStatus s) } := rfl
  refine ⟨fun absent => ?_, fun there => ?_⟩
  · simp [run, busStatus, absent]
  · simp [run, busStatus, there]

/-! ## Writing the Vehicle State -/

/-- Seventeen bytes replace the VIN (R149). -/
theorem writeVin_toList (v : Vector Byte 17) (vs : VehicleState) : writeVin v.toList vs = { vs with vin := v } := by
  simp [writeVin, Vector.toList]

/-- Bytes of another number replace nothing (R149). -/
theorem writeVin_of_length_ne {v : List Byte} (h : v.length ≠ 17) (vs : VehicleState) : writeVin v vs = vs := dif_neg h

/-- A key/value write under an unknown name does nothing (R149). -/
theorem hostKeyStep_unknown {key : String} {s : State} (value : String) (h : lookupKey key s.params.vsKeys = none) :
    hostKeyStep key value s = .next s := by
  simp only [hostKeyStep, keyUpdate, h]

/-- Settles O39: a write replaces the field it names, and a key/value write is the write of the field the key names. -/
theorem vsWriteReplacesOneField : Obligations.VsWriteReplacesOneField := by
  refine ⟨fun s v => ⟨rfl, rfl, rfl, rfl, rfl⟩, fun s v => ?_, fun s v other => ?_,
    fun s key value => hostKeyStep_unknown value, fun s key value x number => ?_⟩
  · simp [exec, execVsWrite, applyUpdate, writeVin_toList, returns]
  · simp [exec, execVsWrite, applyUpdate, writeVin_of_length_ne other, returns]
  · subst number
    refine ⟨?_, ?_, ?_, ?_, ?_, ?_⟩ <;> intro known <;> simp only [hostKeyStep, keyUpdate, known, numericValue]

end Sys2Proof.Machine
end

section
/-! PROOFS. The alert handlers (R151 to R153), the transitions of the bus state (R150, R154, R156), and what is transmitted
outside `Running` (R132, R264, R265), each over everything a step can do (`StepOutcome`). -/

namespace Sys2Proof.Machine

/-! ## The handlers of one alert word -/

/-- The handler of `BUS_OFF` enters bus-off when its bit is set and the latched state is `Running` (R151). -/
theorem exec_alertBusOff_fires {a : AlertWord} {s : State} (bit : a.testBit 0 = true)
    (running : s.block.polledState = .running) : exec (.alertBusOff a) s = .next (enterBusOff s) :=
  congrArg Host.Outcome.next (if_pos ⟨bit, running⟩)

/-- The handler of `BUS_RECOVERED` returns from bus-off when its bit is set and the latched state is `BusOff` (R152). -/
theorem exec_alertBusRecovered_fires {a : AlertWord} {s : State} (bit : a.testBit 1 = true)
    (busOff : s.block.polledState = .busOff) : exec (.alertBusRecovered a) s = .next (returnFromBusOff s) :=
  congrArg Host.Outcome.next (if_pos ⟨bit, busOff⟩)

/-- Settles O40: the handler's two tests hold and it enters bus-off, or one fails. -/
theorem busOffEntry : Obligations.BusOffEntry := by
  refine fun a s => ⟨fun bit running => ?_, fun missed => congrArg Host.Outcome.next (if_neg ?_)⟩
  · rw [exec_alertBusOff_fires bit running, enterBusOff_eq]
  · rintro ⟨bit, running⟩
    exact missed.elim (fun clear => Bool.false_ne_true (clear.symm.trans bit)) (· running)

/-- Settles O41: the handler's two tests hold and it returns from bus-off, or one fails. -/
theorem busRecoveredRestart : Obligations.BusRecoveredRestart := by
  refine fun a s => ⟨fun bit busOff => ?_, fun missed => congrArg Host.Outcome.next (if_neg ?_)⟩
  · rw [exec_alertBusRecovered_fires bit busOff, returnFromBusOff_eq]
  · rintro ⟨bit, busOff⟩
    exact missed.elim (fun clear => Bool.false_ne_true (clear.symm.trans bit)) (· busOff)

/-- Settles O42: the handling of the word is the one transition that the state before it allows. -/
theorem oneAlertWordOneTransition : Obligations.OneAlertWordOneTransition := by
  intro a s
  rw [handlerStep_eq]
  rcases handleAlerts_cases a s with ⟨bit, running, e⟩ | ⟨bit, busOff, e⟩ | ⟨noEntry, noReturn, e⟩ <;> rw [e]
  · refine ⟨fun _ _ => (exec_alertBusOff_fires bit running).symm, fun _ busOff => ?_,
      fun no => absurd ⟨bit, running⟩ no⟩
    simp [running] at busOff
  · refine ⟨fun _ running => ?_, fun _ _ => (exec_alertBusRecovered_fires bit busOff).symm,
      fun _ no => absurd ⟨bit, busOff⟩ no⟩
    simp [busOff] at running
  · exact ⟨fun bit running => absurd ⟨bit, running⟩ noEntry, fun bit busOff => absurd ⟨bit, busOff⟩ noReturn,
      fun _ _ => rfl⟩

/-! ## The transitions of the bus state -/

/-- From `s` to `t` the bus state and the counts of recovery calls and restarts are the same. -/
def SameBus (s t : State) : Prop :=
  t.block.busState = s.block.busState ∧ t.ghost.recoveryCalls = s.ghost.recoveryCalls ∧
    t.ghost.restartCalls = s.ghost.restartCalls

/-- From `s` to `t` the block enters bus-off on a pending `BUS_OFF`, with one recovery request (R151). -/
def EntersBusOff (s t : State) : Prop :=
  s.block.busState = .running ∧ t.block.busState = .busOff ∧ s.link.alertsPending.testBit 0 = true ∧
    t.ghost.ctrlLog = s.ghost.ctrlLog ++ [.initiateRecovery]

/-- From `s` to `t` the block leaves bus-off on a pending `BUS_RECOVERED`, with one restart (R152). -/
def LeavesBusOff (s t : State) : Prop :=
  s.block.busState = .busOff ∧ (t.block.busState = .running ∨ t.block.busState = .recovering) ∧
    s.link.alertsPending.testBit 1 = true ∧ t.ghost.ctrlLog = s.ghost.ctrlLog ++ [.start]

/-- The word an iteration polls has a bit only from the alerts pending in an installed controller (R134). -/
theorem testBit_polled_iff {installed : Bool} {pending : AlertWord} {k : Nat} :
    (if installed then pending else 0).testBit k = true ↔ installed = true ∧ pending.testBit k = true := by
  cases installed <;> simp

/-- An iteration of the receive loop makes one of the two transitions, in an installed controller, or none (R153, R157). -/
theorem RxloopOutcome.bus {s t : State} (h : RxloopOutcome s t) :
    SameBus s t ∨ (s.block.ctrlInstalled = true ∧ (EntersBusOff s t ∨ LeavesBusOff s t)) := by
  obtain ⟨d, q, rx, drop, b, l, m, n, rfl, -, moves⟩ := h
  rcases moves with ⟨bit, running, rfl, rfl, -⟩ | ⟨bit, busOff, hb, rfl, -⟩ | ⟨-, -, rfl, rfl, rfl, rfl⟩
  · obtain ⟨installed, bit⟩ := testBit_polled_iff.mp bit
    exact .inr ⟨installed, .inl ⟨running, rfl, bit, rfl⟩⟩
  · obtain ⟨installed, bit⟩ := testBit_polled_iff.mp bit
    exact .inr ⟨installed, .inr ⟨busOff, hb, bit, rfl⟩⟩
  · exact .inl ⟨rfl, rfl, rfl⟩

/-- A command moves the bus state only as a `STOP` or as a `CONFIGURE_START` without a controller (R130, R131). -/
theorem CommandOutcome.busState {i : Instr} {s t : State} (h : CommandOutcome i s t) :
    t.block.busState = s.block.busState ∨ (t.block.busState = .stopped ∧ i = .stop) ∨
      (t.block.busState = .running ∧ (∃ rate tx rx, i = .configureStart rate tx rx) ∧ s.block.ctrlInstalled = false) := by
  obtain ⟨-, -, -, -, -, -, -, -, ⟨same, -⟩ | ⟨stopped, stop, -⟩ | started, -⟩ := h
  · exact .inl same
  · exact .inr (.inl ⟨stopped, stop⟩)
  · exact .inr (.inr started)

/-- No command counts a recovery call or a restart (R34). -/
theorem CommandOutcome.counts {i : Instr} {s t : State} (h : CommandOutcome i s t) :
    t.ghost.recoveryCalls = s.ghost.recoveryCalls ∧ t.ghost.restartCalls = s.ghost.restartCalls := by
  obtain ⟨-, -, -, -, -, -, -, -, -, -, -, -, recovery, restart, -⟩ := h
  exact ⟨recovery, restart⟩

/-- A write of the Vehicle State is neither a `STOP` nor a `CONFIGURE_START`. -/
theorem CommandOutcome.sameBus_vsWrite {u : VsUpdate} {s t : State} (h : CommandOutcome (.vsWrite u) s t) : SameBus s t := by
  rcases h.busState with same | ⟨-, stop⟩ | ⟨-, ⟨_, _, _, start⟩, -⟩
  · exact ⟨same, h.counts⟩
  · cases stop
  · cases start

/-- Everything a step can do to the bus state and to the counts of recovery calls and restarts: nothing, or a transition in
an iteration of the active receive loop (R260), or a command, which leaves the counts alone. -/
theorem StepOutcome.bus {e : Event} {s t : State} (h : StepOutcome e s t) :
    SameBus s t ∨
      (e = .rxloop ∧ s.block.rxloopActive = true ∧ s.block.ctrlInstalled = true ∧ (EntersBusOff s t ∨ LeavesBusOff s t)) ∨
      ∃ i, isCommand e i ∧ CommandOutcome i s t := by
  rcases h with ⟨-, responder⟩ | ⟨he, ⟨-, rfl⟩ | ⟨active, iteration⟩⟩ | command |
    ⟨-, -, -, rfl | ⟨u, outcome⟩⟩ | ⟨block, ghost, -⟩
  · obtain ⟨q, m, r, x, d, l, rfl, -⟩ := responder
    exact .inl ⟨rfl, rfl, rfl⟩
  · exact .inl ⟨rfl, rfl, rfl⟩
  · rcases iteration.bus with same | ⟨installed, transition⟩
    · exact .inl same
    · exact .inr (.inl ⟨he, active, installed, transition⟩)
  · exact .inr (.inr command)
  · exact .inl ⟨rfl, rfl, rfl⟩
  · exact .inl outcome.sameBus_vsWrite
  · exact .inl ⟨by rw [block], by rw [ghost], by rw [ghost]⟩

/-- The same of a whole step: taking the event moves nothing of the bus. -/
theorem step_bus {s t : State} (h : step s = .next t) :
    SameBus s t ∨
      ((nextEvent s).1 = .rxloop ∧ s.block.rxloopActive = true ∧ s.block.ctrlInstalled = true ∧
        (EntersBusOff s t ∨ LeavesBusOff s t)) ∨
      ∃ i, isCommand (nextEvent s).1 i ∧ CommandOutcome i (nextEvent s).2 t := by
  have key := (step_outcome h).bus
  simpa only [SameBus, EntersBusOff, LeavesBusOff, nextEvent_block, nextEvent_link, nextEvent_ghost] using key

/-- Run in the state after the fetch, a command moves the bus state only as a `STOP` or, with the block `Stopped`, as a
`CONFIGURE_START` (R26, R130, R131). -/
theorem CommandOutcome.busState_of_inv {i : Instr} {s t : State} (hs : Inv s) (h : CommandOutcome i (nextEvent s).2 t) :
    t.block.busState = s.block.busState ∨ (t.block.busState = .stopped ∧ i = .stop) ∨
      (s.block.busState = .stopped ∧ t.block.busState = .running ∧ ∃ rate tx rx, i = .configureStart rate tx rx) := by
  have key := h.busState
  rw [nextEvent_block] at key
  exact key.imp id (Or.imp id fun ⟨running, start, absent⟩ => ⟨hs.stoppedIff.mpr absent, running, start⟩)

/-- Settles O48: the transitions are those of the receive loop and of the two commands, and only the receive loop counts. -/
theorem busStateTransitionsAreComplete : Obligations.BusStateTransitionsAreComplete := by
  refine ⟨fun s t hs h changed => ?_, fun s t h counted => ?_⟩
  · rcases step_bus h with ⟨same, -⟩ | ⟨he, -, -, entry | leave⟩ | ⟨i, command, outcome⟩
    · exact absurd same changed
    · obtain ⟨running, busOff, bit, log⟩ := entry
      exact .inr (.inl ⟨running, busOff, he, bit, log⟩)
    · obtain ⟨busOff, after, bit, log⟩ := leave
      exact .inr (.inr (.inl ⟨busOff, after, he, bit, log⟩))
    · rcases outcome.busState_of_inv hs with same | ⟨stopped, rfl⟩ | ⟨stopped, running, rate, tx, rx, rfl⟩
      · exact absurd same changed
      · exact .inr (.inr (.inr ⟨stopped, command⟩))
      · exact .inl ⟨stopped, running, rate, tx, rx, command⟩
  · rcases step_bus h with ⟨-, recovery, restart⟩ | ⟨he, active, installed, transition⟩ | ⟨i, -, outcome⟩
    · exact absurd counted (not_or.mpr ⟨not_not.mpr recovery, not_not.mpr restart⟩)
    · exact ⟨he, active, installed, transition.imp (fun ⟨_, _, bit, _⟩ => bit) fun ⟨_, _, bit, _⟩ => bit⟩
    · obtain ⟨recovery, restart⟩ := outcome.counts
      rw [nextEvent_ghost] at recovery restart
      exact absurd counted (not_or.mpr ⟨not_not.mpr recovery, not_not.mpr restart⟩)

/-! ## Outside `Running` -/

/-- From `s` to `t` no `SEND` gets past its tests (R132). -/
def NoSendBegins (s t : State) : Prop :=
  ∀ f, t.block.sending = some (.blocked f) → s.block.sending = some (.blocked f)

/-- From `s` to `t` the Link accepts nothing (R33, R34). -/
def NothingAccepted (s t : State) : Prop :=
  t.ghost.txLog = s.ghost.txLog ∧ ∀ w ∈ t.link.txFifo, w ∈ s.link.txFifo

/-- From `s` to `t` a `SEND` that was blocked ends in success (R265). -/
def BlockedSendSucceeds (s t : State) : Prop :=
  ∃ f, s.block.sending = some (.blocked f) ∧ t.block.sending = none ∧ t.ghost.txLog = s.ghost.txLog ++ [f] ∧
    t.link.txFifo = s.link.txFifo ++ [encodeWire f]

theorem NoSendBegins.of_eq {s t : State} (h : t.block.sending = s.block.sending) : NoSendBegins s t := fun _ hf => h ▸ hf

theorem NothingAccepted.of_eq {s t : State} (log : t.ghost.txLog = s.ghost.txLog) (fifo : t.link.txFifo = s.link.txFifo) :
    NothingAccepted s t := ⟨log, fun _ hw => fifo ▸ hw⟩

/-- Outside `Running` the responder begins no `SEND`, and ends at most one that was blocked (R264, R265). -/
theorem ResponderOutcome.not_running {s t : State} (h : ResponderOutcome s t) (out : s.block.busState ≠ .running) :
    NoSendBegins s t ∧ (NothingAccepted s t ∨ BlockedSendSucceeds s t) := by
  obtain ⟨q, m, r, x, d, l, rfl, -, -, -, -, -, ended, begun, sent⟩ := h
  refine ⟨fun f hf => absurd (begun f hf) out, ?_⟩
  rcases sent out with ⟨rfl, -⟩ | ⟨f, blocked, rfl | rfl⟩
  · exact .inl (.of_eq (List.append_nil _) (List.append_nil _))
  · exact .inl (.of_eq (List.append_nil _) (List.append_nil _))
  · exact .inr ⟨f, blocked, ended (List.cons_ne_nil _ _), rfl, rfl⟩

/-- Outside `Running` a command neither begins a `SEND` of the responder nor has the Link accept one (R132). -/
theorem CommandOutcome.not_running {i : Instr} {s t : State} (h : CommandOutcome i s t) (out : s.block.busState ≠ .running) :
    NoSendBegins s t ∧ NothingAccepted s t := by
  obtain ⟨-, -, -, -, -, -, sending, -, -, -, ⟨l, log, quiet⟩, -⟩ := h
  obtain ⟨rfl, fifo⟩ := quiet out
  exact ⟨.of_eq sending, .of_eq (log.trans (List.append_nil _)) fifo⟩

/-- Outside `Running` a step begins no `SEND`, and the Link accepts at most the one the responder had blocked. -/
theorem StepOutcome.not_running {e : Event} {s t : State} (h : StepOutcome e s t) (out : s.block.busState ≠ .running) :
    NoSendBegins s t ∧ (NothingAccepted s t ∨ ((e = .resp ∨ e = .respPart) ∧ BlockedSendSucceeds s t)) := by
  rcases h with ⟨he, responder⟩ | ⟨-, ⟨-, rfl⟩ | ⟨-, iteration⟩⟩ | ⟨i, -, outcome⟩ | ⟨-, -, -, rfl | ⟨u, outcome⟩⟩ |
    ⟨block, ghost, -, -, fifo⟩
  · obtain ⟨begins, accepts⟩ := responder.not_running out
    exact ⟨begins, accepts.imp id fun succeeds => ⟨he, succeeds⟩⟩
  · exact ⟨.of_eq rfl, .inl (.of_eq rfl rfl)⟩
  · obtain ⟨d, q, rx, drop, b, l, m, n, rfl, -⟩ := iteration
    exact ⟨.of_eq rfl, .inl (.of_eq rfl rfl)⟩
  · obtain ⟨begins, accepts⟩ := outcome.not_running out
    exact ⟨begins, .inl accepts⟩
  · exact ⟨.of_eq rfl, .inl (.of_eq rfl rfl)⟩
  · obtain ⟨begins, accepts⟩ := outcome.not_running out
    exact ⟨begins, .inl accepts⟩
  · exact ⟨.of_eq (by rw [block]), .inl ⟨by rw [ghost], fifo⟩⟩

/-- Settles O50: everything a step can do begins no `SEND`, and has the Link accept only one that was blocked. -/
theorem noSendBeginsUnlessRunning : Obligations.NoSendBeginsUnlessRunning := by
  intro s t out h
  have key := (step_outcome h).not_running (by rwa [nextEvent_block])
  simp only [NoSendBegins, NothingAccepted, BlockedSendSucceeds, nextEvent_block, nextEvent_link, nextEvent_ghost] at key
  obtain ⟨begins, accepts | ⟨he, f, blocked, ended, log, fifo⟩⟩ := key
  · exact ⟨begins, .inl accepts⟩
  · exact ⟨begins, .inr ⟨f, blocked, ended, he, log, fifo⟩⟩

/-- Settles O49: of the transitions only a `STOP` starts in `Recovering`, and what is sent there is what is sent outside
`Running`. -/
theorem recoveringIsLeftOnlyByStop : Obligations.RecoveringIsLeftOnlyByStop := by
  intro s t hs recovering h
  obtain ⟨begins, sent⟩ := noSendBeginsUnlessRunning s t (by simp [recovering]) h
  refine ⟨?_, begins, ?_⟩
  · by_cases changed : t.block.busState = s.block.busState
    · exact .inl (changed.trans recovering)
    · rcases busStateTransitionsAreComplete.1 s t hs h changed with ⟨stopped, -⟩ | ⟨running, -⟩ | ⟨busOff, -⟩ | stop
      · simp [recovering] at stopped
      · simp [recovering] at running
      · simp [recovering] at busOff
      · exact .inr stop
  · rcases sent with ⟨log, -⟩ | ⟨f, blocked, ended, -, log, -⟩
    · exact .inl log
    · exact .inr ⟨f, blocked, ended, log⟩

end Sys2Proof.Machine
end

section
/-! PROOFS. A step runs the operation that the next event decodes to: the responder that of the frame it dequeues, the host
that of its command, the receive loop the handlers of the word it polls (R101, R153, R157, R158, R260). -/

namespace Sys2Proof.Machine

/-- A step takes the head of the program, which its agent runs (R14, R121). -/
theorem step_of_script {s : State} {e : Event} {rest : List Event} (program : s.script = e :: rest) :
    step s = runEvent e { s with script := rest } := by
  rw [step, nextEvent, program]

/-- A responder between iterations runs the operation of the frame it dequeues (R158). -/
theorem respStep_dequeues {s : State} {f : Frame} {q : List Frame} {i : Instr} (release : s.block.release = none)
    (sending : s.block.sending = none) (queue : s.block.rxq = f :: q) (decoded : decodeFrame f = .ok i) :
    respStep s = exec i (setRxq q s) := by
  have between : ¬midIteration s = true := by simp [midIteration, release, sending]
  simp only [respStep, if_neg between, queue, decoded, runDecoded]

/-- The host runs the operation its bytes spell, unless R306 assumes the call away (R101). -/
theorem hostStep_runs {s : State} {bytes : List Byte} {i : Instr} (decoded : decode (.cmd bytes) = .ok i)
    (allowed : isLoopCall i = true → s.block.rxloopActive = false) : hostStep bytes s = exec i s := by
  have free : ¬(isLoopCall i && s.block.rxloopActive) = true := by simpa using allowed
  simp only [hostStep, decoded, if_neg free]

/-- The receive phase leaves the alerts and the controller alone, so that the poll after it returns the word that was pending
(R134, R157). -/
theorem pollAlerts_receivePhase (s : State) :
    (pollAlerts (receivePhase s)).1 = if s.block.ctrlInstalled then s.link.alertsPending else 0 := by
  obtain ⟨d, q, rx, n, e, -⟩ := receivePhase_state s
  rw [e, pollAlerts_eq]
  exact apply_ite Prod.fst _ _ _

/-- An iteration of the active receive loop runs, after its receive and enqueue, the handlers of the word it polls, the bus
state latched first (R153, R157). -/
theorem rxloopStep_runs_handlers {s : State} (active : s.block.rxloopActive = true) :
    rxloopStep s =
      runAll (selected (.alert (pollAlerts (receivePhase s)).1)) (latchState (pollAlerts (receivePhase s)).2) :=
  if_pos active

/-- Settles O8: the three agents that run operations, each from the event at the head of the program. -/
theorem stepRunsDecodedOperation : Obligations.StepRunsDecodedOperation := by
  refine ⟨fun s rest f q i program release sending queue decoded => ?_, fun s rest bytes i program decoded allowed => ?_,
    fun s r rest a program active phase word => ?_⟩
  · rw [step_of_script program]
    exact respStep_dequeues release sending queue decoded
  · rw [step_of_script program]
    exact hostStep_runs decoded allowed
  · have polled : (pollAlerts r).1 = a := by rw [phase, word, pollAlerts_receivePhase]
    refine ⟨polled, ?_⟩
    rw [step_of_script program, ← polled, phase]
    exact rxloopStep_runs_handlers active

end Sys2Proof.Machine
end

section
/-! PROOFS. The responder transmits responses only (R182): what a step of it sends follows from the invariant before the
step, what it leaves on its way out from the invariant after it. -/

namespace Sys2Proof.Machine

/-- What a step of the responder adds to `tx_log` are responses (R182). -/
theorem ResponderOutcome.sent_isResponse {s t : State} (h : ResponderOutcome s t) (hs : Inv s) :
    ∃ sent, t.ghost.txLog = s.ghost.txLog ++ sent ∧ ∀ f ∈ sent, IsResponse f := by
  obtain ⟨q, m, r, x, d, sent, rfl, -, -, -, -, responses, -⟩ := h
  exact ⟨sent, rfl, (responses hs.mfqShape hs.sendingResponse).1⟩

/-- Settles O29: a frame sent is a response by what a step of the responder can do, one on its way out because the step
keeps the invariant. -/
theorem responderTransmitsOnlyResponses : Obligations.ResponderTransmitsOnlyResponses := by
  intro s t hs h
  have outcome : ResponderOutcome s t := responder_state h
  have after : Inv t := outcome.inv hs
  obtain ⟨sent, log, responses⟩ := outcome.sent_isResponse hs
  refine ⟨sent, log, ?_⟩
  rintro f (logged | asked | blocked)
  · exact responses f logged
  · exact after.sendingResponse (.asked f) asked
  · exact after.sendingResponse (.blocked f) blocked

end Sys2Proof.Machine
end

section
/-! PROOFS. The codec's numbers (R12, R194, R204 to R209): rounding and truncation keep the order and give an integer back,
a code is the number held in the range of its bytes, and each encoder's code is that of its signal's rounding or truncation. -/

namespace Sys2Proof.Machine

/-! ## Rounding and truncation keep the order -/

/-- A larger value is not rounded to a smaller integer: two roundings out of order would pull `y` to at most `x`. -/
theorem IsRound.mono {x y : Rat} {q r : Int} (hq : IsRound x q) (hr : IsRound y r) (h : x ≤ y) : q ≤ r := by
  rcases h.eq_or_lt with rfl | lt
  · exact (hq.unique hr).le
  · by_contra! out
    have succ_le : (r : Rat) + 1 ≤ q := by exact_mod_cast out
    have above := (abs_le.mp hq.abs_sub_le_half).1
    have below := (abs_le.mp hr.abs_sub_le_half).2
    linarith

theorem IsTrunc.mono {x y : Rat} {q r : Int} (hq : IsTrunc x q) (hr : IsTrunc y r) (h : x ≤ y) : q ≤ r := by
  rcases le_or_gt 0 x with hx | hx
  · rw [← (isTrunc_iff_floor hx).mp hq, ← (isTrunc_iff_floor (hx.trans h)).mp hr]
    exact Int.floor_mono h
  · rw [← (isTrunc_iff_ceil hx).mp hq]
    rcases le_or_gt 0 y with hy | hy
    · rw [← (isTrunc_iff_floor hy).mp hr]
      exact (Int.ceil_nonpos.mpr hx.le).trans (Int.floor_nonneg.mpr hy)
    · rw [← (isTrunc_iff_ceil hy).mp hr]
      exact Int.ceil_mono h

theorem isRound_intCast (n : Int) : IsRound n n := by simp [IsRound]

/-- Between two integers the rounding lies between them too. -/
theorem IsRound.mem_Icc {x : Rat} {r lo hi : Int} (h : IsRound x r) (hlo : (lo : Rat) ≤ x) (hhi : x ≤ hi) :
    lo ≤ r ∧ r ≤ hi :=
  ⟨(isRound_intCast lo).mono h hlo, h.mono (isRound_intCast hi) hhi⟩

/-! ## Codes -/

theorem heldIn_mono (hi : Nat) {z w : Int} (h : z ≤ w) : heldIn hi z ≤ heldIn hi w := by
  unfold heldIn
  omega

/-- Inside the range nothing is cut off. -/
theorem heldIn_of_mem {hi : Nat} {z : Int} (h : 0 ≤ z ∧ z ≤ hi) : ((heldIn hi z : Nat) : Int) = z := by
  unfold heldIn
  omega

theorem heldIn_natCast {hi n : Nat} (h : n ≤ hi) : heldIn hi n = n := by
  unfold heldIn
  omega

/-- A byte as a number is in the range of a byte. -/
theorem ofNat_heldIn_toNat (a : Byte) : BitVec.ofNat 8 (heldIn 255 a.toNat) = a := by
  rw [heldIn_natCast (Nat.le_of_lt_succ a.isLt), BitVec.ofNat_toNat, BitVec.setWidth_eq]

theorem toNat_ofInt_clamp_byte (z : Int) : (BitVec.ofInt 8 (clamp z 0 255)).toNat = heldIn 255 z := by
  rw [ofInt_clamp_byte, BitVec.toNat_ofNat, Nat.mod_eq_of_lt (Nat.lt_succ_of_le (heldIn_le 255 z))]

theorem toNat_ofInt_clamp_word (z : Int) : (BitVec.ofInt 16 (clamp z 0 65535)).toNat = heldIn 65535 z := by
  rw [ofInt_clamp_word, BitVec.toNat_ofNat, Nat.mod_eq_of_lt (Nat.lt_succ_of_le (heldIn_le 65535 z))]

/-- A one-byte code does not wrap (R194). -/
theorem byteCode_mono {z w : Int} (h : z ≤ w) :
    (BitVec.ofInt 8 (clamp z 0 255)).toNat ≤ (BitVec.ofInt 8 (clamp w 0 255)).toNat := by
  simpa only [toNat_ofInt_clamp_byte] using heldIn_mono 255 h

/-- A two-byte code does not wrap (R194). -/
theorem wordCode_mono {z w : Int} (h : z ≤ w) :
    (BitVec.ofInt 16 (clamp z 0 65535)).toNat ≤ (BitVec.ofInt 16 (clamp w 0 65535)).toNat := by
  simpa only [toNat_ofInt_clamp_word] using heldIn_mono 65535 h

theorem byteCode_of_mem {z : Int} (h : 0 ≤ z ∧ z ≤ 255) : ((BitVec.ofInt 8 (clamp z 0 255)).toNat : Rat) = z := by
  rw [toNat_ofInt_clamp_byte]
  exact_mod_cast heldIn_of_mem h

theorem wordCode_of_mem {z : Int} (h : 0 ≤ z ∧ z ≤ 65535) :
    ((BitVec.ofInt 16 (clamp z 0 65535)).toNat : Rat) = z := by
  rw [toNat_ofInt_clamp_word]
  exact_mod_cast heldIn_of_mem h

@[simp] theorem highByte_toNat (v : BitVec 16) : (highByte v).toNat = v.toNat / 256 := by
  have := v.isLt
  simp only [highByte, slice, BitVec.extractLsb'_toNat, Nat.shiftRight_eq_div_pow]
  omega

@[simp] theorem lowByte_toNat (v : BitVec 16) : (lowByte v).toNat = v.toNat % 256 := by
  simp [lowByte, slice]

theorem highByte_ofNat (n : Nat) : highByte (BitVec.ofNat 16 n) = BitVec.ofNat 8 (n / 256) :=
  BitVec.eq_of_toNat_eq (by simp; omega)

theorem lowByte_ofNat (n : Nat) : lowByte (BitVec.ofNat 16 n) = BitVec.ofNat 8 (n % 256) :=
  BitVec.eq_of_toNat_eq (by simp)

/-! ## The encoders -/

theorem scaleRound_mono {x y : Signal} (k m : Nat) (hm : 0 < m) (h : x ≤ y) : scaleRound x k m ≤ scaleRound y k m :=
  (scaleRound_isRound x k m hm).mono (scaleRound_isRound y k m hm) (by push_cast; gcongr)

theorem truncDiv_mono {x y : Signal} (h : x ≤ y) : truncDiv x.num x.den ≤ truncDiv y.num y.den :=
  (truncDiv_isTrunc x).mono (truncDiv_isTrunc y) h

theorem isRound_scaleRound_one (x : Signal) : IsRound x (scaleRound x 1 1) := by
  simpa using scaleRound_isRound x 1 1 one_pos

theorem isRound_scaleRound_four (x : Signal) : IsRound (x * 4) (scaleRound x 4 1) := by
  simpa using scaleRound_isRound x 4 1 one_pos

theorem isRound_scaleRound_percent (x : Signal) : IsRound (x * 255 / 100) (scaleRound x 255 100) :=
  mod_cast scaleRound_isRound x 255 100 (by decide)

section
variable {x : Signal} {r : Int}

theorem refEnc05_eq (h : IsRound x r) : refEnc05 x = BitVec.ofNat 8 (heldIn 255 (r + 40)) := by
  rw [refEnc05, ofInt_clamp_byte, (isRound_scaleRound_one x).unique h]

theorem refEnc0C_eq (h : IsRound (x * 4) r) : refEnc0C x = BitVec.ofNat 16 (heldIn 65535 r) := by
  rw [refEnc0C, ofInt_clamp_word, (isRound_scaleRound_four x).unique h]

theorem refEnc0D_eq (h : IsTrunc x r) : refEnc0D x = BitVec.ofNat 8 (heldIn 255 r) := by
  rw [refEnc0D, ofInt_clamp_byte, (truncDiv_isTrunc x).unique h]

theorem refEnc11_eq (h : IsRound (x * 255 / 100) r) : refEnc11 x = BitVec.ofNat 8 (heldIn 255 r) := by
  rw [refEnc11, ofInt_clamp_byte, (isRound_scaleRound_percent x).unique h]

end

/-- Fuel level is coded as throttle is (R201). -/
theorem refEnc2F_eq_refEnc11 (x : Signal) : refEnc2F x = refEnc11 x := rfl

/-- Settles O19: each encoder is a rounding or truncation, which keeps the order, held in the range of its bytes, which
keeps it too. -/
theorem encodersNeverWrap : Obligations.EncodersNeverWrap := fun x y h =>
  have percent := byteCode_mono (scaleRound_mono 255 100 (by decide) h)
  ⟨byteCode_mono (add_le_add_left (scaleRound_mono 1 1 one_pos h) 40), wordCode_mono (scaleRound_mono 4 1 one_pos h),
    byteCode_mono (truncDiv_mono h), percent, percent⟩

/-! ## A decoder after its encoder -/

section
variable {x : Signal}

theorem dec05_refEnc05 (hlo : -40 ≤ x) (hhi : x ≤ 215) : |dec05 (refEnc05 x) - x| ≤ 1 / 2 := by
  have rounds := isRound_scaleRound_one x
  have range := rounds.mem_Icc (lo := -40) (hi := 215) (mod_cast hlo) (mod_cast hhi)
  have code : ((refEnc05 x).toNat : Rat) = scaleRound x 1 1 + 40 := mod_cast byteCode_of_mem (by omega)
  rw [dec05, code, add_sub_cancel_right, abs_sub_comm]
  exact rounds.abs_sub_le_half

/-- The two bytes of a code decode to a quarter of it (R205). -/
theorem dec0C_bytes (v : BitVec 16) : dec0C (highByte v) (lowByte v) = (v.toNat : Rat) / 4 := by
  rw [dec0C, highByte_toNat, lowByte_toNat, Nat.div_add_mod']

theorem dec0C_refEnc0C (hlo : 0 ≤ x) (hhi : x ≤ 65535 / 4) :
    |dec0C (highByte (refEnc0C x)) (lowByte (refEnc0C x)) - x| ≤ 1 / 8 := by
  have rounds := isRound_scaleRound_four x
  have range := rounds.mem_Icc (lo := 0) (hi := 65535) (by push_cast; linarith) (by push_cast; linarith)
  have code : ((refEnc0C x).toNat : Rat) = scaleRound x 4 1 := wordCode_of_mem range
  have near := abs_le.mp rounds.abs_sub_le_half
  rw [dec0C_bytes, code, abs_le]
  constructor <;> linarith

theorem dec0D_refEnc0D (hlo : 0 ≤ x) (hhi : x < 256) : 0 ≤ x - dec0D (refEnc0D x) ∧ x - dec0D (refEnc0D x) < 1 := by
  have floor : ⌊x⌋ = truncDiv x.num x.den := (isTrunc_iff_floor hlo).mp (truncDiv_isTrunc x)
  have range : 0 ≤ ⌊x⌋ ∧ ⌊x⌋ ≤ 255 :=
    ⟨Int.floor_nonneg.mpr hlo, Int.lt_add_one_iff.mp (Int.floor_lt.mpr (mod_cast hhi))⟩
  have code : ((refEnc0D x).toNat : Rat) = ⌊x⌋ := by
    rw [refEnc0D, ← floor]
    exact byteCode_of_mem range
  rw [dec0D, code]
  exact ⟨Int.fract_nonneg x, Int.fract_lt_one x⟩

theorem dec11_refEnc11 (hlo : 0 ≤ x) (hhi : x ≤ 100) : |dec11 (refEnc11 x) - x| ≤ 50 / 255 := by
  have rounds := isRound_scaleRound_percent x
  have range := rounds.mem_Icc (lo := 0) (hi := 255) (by push_cast; linarith) (by push_cast; linarith)
  have code : ((refEnc11 x).toNat : Rat) = scaleRound x 255 100 := byteCode_of_mem range
  have near := abs_le.mp rounds.abs_sub_le_half
  rw [dec11, code, abs_le]
  constructor <;> linarith

end

/-! ## An encoder after its decoder -/

theorem refEnc05_dec05 (a : Byte) : refEnc05 (dec05 a) = a := by
  have rounds : IsRound (dec05 a) (a.toNat - 40) := by simpa [dec05] using isRound_intCast (a.toNat - 40)
  rw [refEnc05_eq rounds, sub_add_cancel, ofNat_heldIn_toNat]

theorem refEnc0D_dec0D (a : Byte) : refEnc0D (dec0D a) = a := by
  have truncates : IsTrunc (dec0D a) a.toNat := .inl (by simp [dec0D])
  rw [refEnc0D_eq truncates, ofNat_heldIn_toNat]

theorem refEnc11_dec11 (a : Byte) : refEnc11 (dec11 a) = a := by
  have rounds : IsRound (dec11 a * 255 / 100) a.toNat := by
    rw [show dec11 a * 255 / 100 = ((a.toNat : Int) : Rat) by simp [dec11]]
    exact isRound_intCast a.toNat
  rw [refEnc11_eq rounds, ofNat_heldIn_toNat]

theorem refEnc0C_dec0C_toNat (a b : Byte) : (refEnc0C (dec0C a b)).toNat = a.toNat * 256 + b.toNat := by
  have rounds : IsRound (dec0C a b * 4) (a.toNat * 256 + b.toNat : Nat) := by
    rw [show dec0C a b * 4 = (((a.toNat * 256 + b.toNat : Nat) : Int) : Rat) by simp [dec0C]]
    exact isRound_intCast _
  have range : a.toNat * 256 + b.toNat ≤ 65535 := by omega
  rw [refEnc0C_eq rounds, heldIn_natCast range, BitVec.toNat_ofNat, Nat.mod_eq_of_lt (by omega)]

/-- Settles O18: inside its range a code is the rounding or truncation itself, which is near its signal; and a decoded
byte, scaled as its encoder scales it, is the integer it came from. -/
theorem codecRoundTrips : Obligations.CodecRoundTrips := by
  refine ⟨fun _ => dec05_refEnc05, fun _ => dec0C_refEnc0C, fun _ => dec0D_refEnc0D,
    fun _ hlo hhi => ⟨dec11_refEnc11 hlo hhi, dec11_refEnc11 hlo hhi⟩,
    fun a => ⟨refEnc05_dec05 a, refEnc0D_dec0D a, refEnc11_dec11 a, refEnc11_dec11 a⟩, fun a b => ?_⟩
  have code := refEnc0C_dec0C_toNat a b
  constructor <;> apply BitVec.eq_of_toNat_eq
  · rw [highByte_toNat, code]
    omega
  · rw [lowByte_toNat, code]
    omega

end Sys2Proof.Machine
end

section
/-! PROOFS. The single-frame replies (R192 to R202): each is one `RESPOND` of a frame whose eight bytes are written out once,
in whatever arithmetic; the encoders' codes then fill in the data bytes. -/

namespace Sys2Proof.Machine

/-! ## Each reply, byte by byte -/

/-- A single-frame response is a valid frame, so `RESPOND` of it is a reply (R159, R192). -/
theorem respond_sfBuild (mode pid : Byte) (data : List Byte) (s : State) :
    respond (sfBuild mode pid data) s = afterReply (sfBuild mode pid data) s :=
  respond_eq _ s (sfBuild_valid mode pid data)

section
variable (dlc : Nat) (d0 : Byte) (s : State)

theorem exec_obdM1Pid05 :
    exec (.obdM1Pid05 dlc d0) s =
      .next (afterReply (frame7E8 0x03 0x41 0x05 (enc05 s.params.numerics s.block.vs.coolant) 0 0 0 0) s) :=
  congrArg Host.Outcome.next (respond_sfBuild _ _ _ s)

theorem exec_obdM1Pid0C :
    exec (.obdM1Pid0C dlc d0) s =
      .next (afterReply (frame7E8 0x04 0x41 0x0C (highByte (enc0C s.params.numerics s.block.vs.rpm))
        (lowByte (enc0C s.params.numerics s.block.vs.rpm)) 0 0 0) s) :=
  congrArg Host.Outcome.next (respond_sfBuild _ _ _ s)

theorem exec_obdM1Pid0D :
    exec (.obdM1Pid0D dlc d0) s =
      .next (afterReply (frame7E8 0x03 0x41 0x0D (enc0D s.params.numerics s.block.vs.speed) 0 0 0 0) s) :=
  congrArg Host.Outcome.next (respond_sfBuild _ _ _ s)

theorem exec_obdM1Pid11 :
    exec (.obdM1Pid11 dlc d0) s =
      .next (afterReply (frame7E8 0x03 0x41 0x11 (enc11 s.params.numerics s.block.vs.throttle) 0 0 0 0) s) :=
  congrArg Host.Outcome.next (respond_sfBuild _ _ _ s)

theorem exec_obdM1Pid2F :
    exec (.obdM1Pid2F dlc d0) s =
      .next (afterReply (frame7E8 0x03 0x41 0x2F (enc2F s.params.numerics s.block.vs.fuel) 0 0 0 0) s) :=
  congrArg Host.Outcome.next (respond_sfBuild _ _ _ s)

end

/-- The reply that carries a supported-PID bitmask (R196, R202). -/
theorem respond_mask (mode pid : Byte) (mask : Vector Byte 4) (s : State) :
    respond (sfBuild mode pid mask.toList) s =
      afterReply (frame7E8 0x06 (0x40 + mode) pid mask[0] mask[1] mask[2] mask[3] 0) s := by
  rw [respond_sfBuild, mask_toList]
  rfl

/-! ## The obligations -/

/-- Settles O17: either reply carries the four bytes of its mask. -/
theorem supportedPidReplies : Obligations.SupportedPidReplies := fun _ _ s =>
  ⟨congrArg Host.Outcome.next (respond_mask 0x01 0x00 s.params.m1Pid00Mask s),
    congrArg Host.Outcome.next (respond_mask 0x09 0x00 s.params.m9Pid00Mask s)⟩

/-- Settles O16: each reply with the encoders of the other arithmetic. -/
theorem otherArithmeticReplies : Obligations.OtherArithmeticReplies := by
  intro dlc d0 s other
  simp only [exec_obdM1Pid05, exec_obdM1Pid0C, exec_obdM1Pid0D, exec_obdM1Pid11, exec_obdM1Pid2F, other]
  exact ⟨rfl, rfl, rfl, rfl, rfl⟩

/-- Settles O11: the reply's data byte is the reference code of the coolant temperature. -/
theorem coolantReply : Obligations.CoolantReply := by
  intro dlc d0 s r reference rounds
  rw [exec_obdM1Pid05, reference, enc05, refEnc05_eq rounds]

/-- Settles O12: the two data bytes are the halves of the reference code of the engine speed. -/
theorem engineSpeedReply : Obligations.EngineSpeedReply := by
  intro dlc d0 s r reference rounds
  rw [exec_obdM1Pid0C, reference, enc0C, refEnc0C_eq rounds, highByte_ofNat, lowByte_ofNat]

/-- Settles O13: the reply's data byte is the reference code of the vehicle speed. -/
theorem vehicleSpeedReply : Obligations.VehicleSpeedReply := by
  intro dlc d0 s r reference truncates
  rw [exec_obdM1Pid0D, reference, enc0D, refEnc0D_eq truncates]

/-- Settles O14: the reply's data byte is the reference code of the throttle. -/
theorem throttleReply : Obligations.ThrottleReply := by
  intro dlc d0 s r reference rounds
  rw [exec_obdM1Pid11, reference, enc11, refEnc11_eq rounds]

/-- Settles O15: the reply's data byte is the reference code of the fuel level. -/
theorem fuelLevelReply : Obligations.FuelLevelReply := by
  intro dlc d0 s r reference rounds
  rw [exec_obdM1Pid2F, reference, enc2F, refEnc2F_eq_refEnc11, refEnc11_eq rounds]

end Sys2Proof.Machine
end

section
/-! PROOFS. The frame of every received-frame operation (R113, R193): a weakening of everything such an operation can do. -/

namespace Sys2Proof.Machine

/-- Settles O30: the outcome of a received-frame operation has no other field changed, and the block as it was unless the
operation is the VIN request or the Flow-Control Continue. -/
theorem receivedFrameOperationsFrame : Obligations.ReceivedFrameOperationsFrame := by
  intro i s t received next
  obtain ⟨m, r, d, l, outcome, -, -, -, -, -, kept⟩ := exec_rxf i s received
  rw [outcome] at next
  cases next
  refine ⟨⟨m, r, d, _, _, rfl⟩, fun notVin notContinue => ?_⟩
  obtain ⟨rfl, rfl⟩ := kept notVin notContinue
  rfl

end Sys2Proof.Machine
end

section
/-! PROOFS. The Multi-Frame Segmenter (R220 to R227): a First Frame and the slots of a pending queue, byte by byte, as windows
on the payload with zeros past its end; the begin of a transmission, whole or refused; and the VIN request built on both. -/

namespace Sys2Proof.Machine

/-! ## Windows on a buffer -/

/-- The first `n` bytes of a buffer, with zeros past its end. -/
def padded (p : List Byte) (n : Nat) : List Byte := (List.range n).map (p.getD · 0)

/-- Inside the buffer a window is what `MemRead` reads (R11). -/
theorem memRead_eq_padded {p : List Byte} {i n : Nat} (h : i + n ≤ p.length) : memRead p i n = padded (p.drop i) n := by
  apply List.ext_getElem
  · simp [memRead, padded]
    omega
  · intro j h1 h2
    simp only [padded, List.length_map, List.length_range] at h2
    have : i + j < p.length := by omega
    simp [memRead, padded, this]

/-- A buffer is its own window. -/
theorem padded_length_self (p : List Byte) : padded p p.length = p :=
  (memRead_eq_padded (i := 0) (by simp)).symm.trans (by simp [memRead])

/-- A window cut shorter is a shorter window. -/
theorem take_padded {p : List Byte} {m n : Nat} (h : m ≤ n) : (padded p n).take m = padded p m := by
  simp [padded, ← List.map_take, List.take_range, h]

/-- A window is a shorter one followed by the window from there on. -/
theorem padded_add (p : List Byte) (m n : Nat) : padded p (m + n) = padded p m ++ padded (p.drop m) n := by
  simp [padded, List.range_add]

/-- Windows of `k` bytes side by side are one window. -/
theorem flatMap_padded (p : List Byte) (k n : Nat) :
    ((List.range n).flatMap fun i => padded (p.drop (k * i)) k) = padded p (k * n) := by
  induction n with
  | zero => rfl
  | succ n ih => rw [List.range_succ, List.flatMap_append, ih, Nat.mul_succ, padded_add, List.flatMap_singleton]

/-! ## The frames, byte by byte -/

/-- The high half of a PCI byte and a number below 16 make the byte of their sum (R103). -/
theorem pci_or_eq_add : ∀ k < 16,
    (0x10#8 ||| BitVec.ofNat 8 k) = BitVec.ofNat 8 (0x10 + k) ∧
      (0x20#8 ||| BitVec.ofNat 8 k) = BitVec.ofNat 8 (0x20 + k) := by decide

/-- After its two length bytes a First Frame holds the window of six bytes (R221). -/
theorem ffBuild_eq {p : List Byte} {len : Nat} (six : 6 ≤ p.length) (upper : len ≤ 4095) :
    ffBuild p len =
      responseFrame ([BitVec.ofNat 8 (0x10 + len / 256), BitVec.ofNat 8 (len % 256)] ++ padded p 6) := by
  have high : len / 256 < 16 := by omega
  have pci : (0x10 : Byte) ||| BitVec.ofNat 8 (len / 256) = BitVec.ofNat 8 (0x10 + len / 256) := (pci_or_eq_add _ high).1
  rw [ffBuild, memRead_eq_padded (by omega), List.drop_zero, Nat.mod_eq_of_lt high, pci]

/-- A chunk, and zeros past it, is the window of seven bytes on the payload (R223, R225). -/
theorem getD_chunk {p : List Byte} {len j : Nat} (i : Nat) (sized : p.length = len) (h : j < 7) :
    (chunk p len (i + 1)).getD j 0 = p.getD (6 + 7 * i + j) 0 := by
  subst sized
  simp only [chunk, memRead, Nat.add_sub_cancel, List.getD_eq_getElem?_getD, List.getElem?_take, List.getElem?_drop]
  split
  · rfl
  · rw [List.getElem?_eq_none (by omega)]

/-- Slot `i` of a transmission: the Consecutive Frame of sequence number `i + 1` (R226). -/
def payloadSlot (p : List Byte) (len i : Nat) : Slot := cfBuild (i + 1) (chunk p len (i + 1))

/-- The PCI byte carries the sequence number modulo 16 (R103, R224). -/
theorem payloadSlot_pci (p : List Byte) (len i : Nat) :
    (payloadSlot p len i)[0] = BitVec.ofNat 8 (0x20 + (i + 1) % 16) :=
  (pci_or_eq_add _ (Nat.mod_lt _ (by decide))).2

/-- The bytes after the PCI byte, each at its place in the payload (R223, R225). -/
theorem payloadSlot_byte {p : List Byte} {len : Nat} (i : Nat) (sized : p.length = len) (j : Fin 7) :
    (payloadSlot p len i)[j.val + 1] = p.getD (6 + 7 * i + j) 0 := by
  rw [← getD_chunk i sized j.isLt]
  fin_cases j <;> rfl

/-- The same bytes as one window. -/
theorem payloadSlot_bytes {p : List Byte} {len : Nat} (i : Nat) (sized : p.length = len) :
    (payloadSlot p len i).toList.drop 1 = padded ((p.drop 6).drop (7 * i)) 7 := by
  have bytes : (payloadSlot p len i).toList.drop 1 = padded (chunk p len (i + 1)) 7 := rfl
  rw [bytes, padded, padded]
  refine List.map_congr_left fun j hj => ?_
  rw [getD_chunk i sized (List.mem_range.mp hj)]
  simp [Nat.add_assoc]

/-! ## The begin of a transmission -/

/-- The queue of `size` slots that a transmission leaves: its Consecutive Frames, and all-zero slots after them (R226). -/
def begunQueue (p : List Byte) (len size : Nat) : List Slot :=
  (List.range (nCf len)).map (payloadSlot p len) ++ List.replicate (size - nCf len) zeroSlot

theorem begunQueue_length (p : List Byte) {len size : Nat} (room : nCf len ≤ size) :
    (begunQueue p len size).length = size := by
  simp [begunQueue, room]

theorem begunQueue_payloadSlot (p : List Byte) {len i : Nat} (size : Nat) (h : i < nCf len) :
    (begunQueue p len size)[i]? = some (payloadSlot p len i) := by
  simp [begunQueue, List.getElem?_append, h]

theorem begunQueue_zeroSlot (p : List Byte) {len size i : Nat} (past : nCf len ≤ i) (h : i < size) :
    (begunQueue p len size)[i]? = some zeroSlot := by
  have : i - nCf len < size - nCf len := by omega
  simp [begunQueue, List.getElem?_append, past.not_gt, this]

/-- `N_CF` is the least number of windows of seven bytes that hold what the First Frame leaves (R223). -/
theorem nCf_eq_iff (len n : Nat) : nCf len = n ↔ len - 6 ≤ 7 * n ∧ 7 * n < len - 6 + 7 := by
  unfold nCf
  omega

/-- A reply too long for the queue is refused whole (R226). -/
theorem beginMft_refused {p : List Byte} {len : Nat} {s : State} (short : s.block.mfq.length < nCf len) :
    beginMft p len s = (false, s) := if_pos short

/-- With slots enough the whole queue is replaced (R226). -/
theorem beginMft_began {p : List Byte} {len : Nat} {s : State} (room : nCf len ≤ s.block.mfq.length) :
    beginMft p len s = (true, setSlots (begunQueue p len s.block.mfq.length) s) := by
  rw [beginMft, if_neg room.not_gt, populate, clearSlots_eq, List.drop_replicate]
  rfl

/-! ## The obligations -/

/-- Settles O20: the two length bytes, and the window of six bytes written out. -/
theorem firstFrameLayout : Obligations.FirstFrameLayout := by
  intro p len lower upper sized
  rw [ffBuild_eq (by omega) upper]
  rfl

/-- Settles O21: `n` is `N_CF`, and the queue is replaced by the payload's slots and all-zero ones. -/
theorem beginTransmissionReplacesQueue : Obligations.BeginTransmissionReplacesQueue := by
  intro p len n s lower upper sized enough least
  obtain rfl := (nCf_eq_iff len n).mpr ⟨enough, least⟩
  refine ⟨beginMft_refused, fun room => ?_⟩
  have size := begunQueue_length p room
  refine ⟨begunQueue p len s.block.mfq.length, beginMft_began room, size, fun i hi => ?_, fun i past hi => ?_⟩
  · refine ⟨payloadSlot p len i, begunQueue_payloadSlot p _ hi, payloadSlot_pci p len i, fun j => ?_⟩
    rw [payloadSlot_byte i sized j]
    split
    · rfl
    · exact List.getD_eq_default _ _ (by omega)
  · exact begunQueue_zeroSlot p past (size ▸ hi)

/-- Settles O22: the windows of the First Frame and the slots lie side by side, from the payload's start past its end. -/
theorem segmentationCarriesPayload : Obligations.SegmentationCarriesPayload := by
  intro p len s t lower upper sized began
  have room : nCf len ≤ s.block.mfq.length := by
    by_contra short
    simp [beginMft_refused (not_le.mp short)] at began
  rw [beginMft_began room] at began
  cases began
  obtain ⟨enough, -⟩ := (nCf_eq_iff len _).mp rfl
  have first : (ffBuild p len).data.drop 2 = padded p 6 := by
    rw [ffBuild_eq (by omega) upper]
    rfl
  have slots : (((List.range (nCf len)).map (payloadSlot p len)).flatMap fun sl => sl.toList.drop 1) =
      padded (p.drop 6) (7 * nCf len) := by
    simp only [List.flatMap_map, payloadSlot_bytes _ sized, flatMap_padded]
  have covers : len ≤ (padded p (6 + 7 * nCf len)).length := by
    simp only [padded, List.length_map, List.length_range]
    omega
  rw [setSlots_block, first, begunQueue, List.flatMap_append, slots, ← List.append_assoc, ← padded_add,
    List.take_append_of_le_length covers, take_padded (by omega), ← sized, padded_length_self]

/-- The VIN request with two slots or more: the queue is replaced, and the First Frame is the reply (R227). -/
theorem exec_obdM9Pid02 (dlc : Nat) (d0 : Byte) {s : State} (room : 2 ≤ s.block.mfq.length) :
    exec (.obdM9Pid02 dlc d0) s =
      .next (afterReply (ffBuild (m9Pid02Payload s) vinTotalLen)
        (setSlots (begunQueue (m9Pid02Payload s) vinTotalLen s.block.mfq.length) s)) := by
  have began := beginMft_began (p := m9Pid02Payload s) (len := vinTotalLen) (by rwa [nCf_vin])
  simp only [exec, execObdM9Pid02, vinReply, began, respond_eq _ _ (ffBuild_valid _ _)]

/-- The VIN request with fewer than two slots (R226, R227). -/
theorem exec_obdM9Pid02_refused (dlc : Nat) (d0 : Byte) {s : State} (short : s.block.mfq.length < 2) :
    exec (.obdM9Pid02 dlc d0) s = .next s := by
  simp only [exec, execObdM9Pid02, vinReply, beginMft_refused (len := vinTotalLen) short]

/-- Settles O23: the payload written out in each layout gives the bytes of the First Frame and of the two slots. -/
theorem vinRequest : Obligations.VinRequest := by
  rintro dlc d0 s v rfl
  refine ⟨fun room => ?_, exec_obdM9Pid02_refused dlc d0⟩
  rw [exec_obdM9Pid02 dlc d0 room]
  cases layout : s.params.vinFfLayout <;> simp only [m9Pid02Payload, layout, vinPayload, vin_toList] <;> rfl

end Sys2Proof.Machine
end

section
/-! PROOFS. The release of the pending queue (R229 to R232): a release is the frames of the populated slots, each sent with one
`RESPOND`, and then the queue cleared. -/

namespace Sys2Proof.Machine

theorem exec_fcCont (dlc : Nat) (d1 d2 : Byte) (s : State) : exec (.fcCont dlc d1 d2) s = .next (releaseFrom 0 s) := rfl

/-! ## Transmissions one after the other -/

/-- The state after transmissions that left the draws at `d` and of which the Link accepted the frames `l`. -/
def afterSends (d : Draws) (l : List Frame) (s : State) : State :=
  { s with
    draws := d
    link := { s.link with txFifo := s.link.txFifo ++ l.map encodeWire }
    ghost := { s.ghost with txLog := s.ghost.txLog ++ l } }

/-- Of frames transmitted with these outcomes, those the Link accepts. -/
def acceptedFrames (fs : List Frame) (outs : List SendOutcome) : List Frame :=
  (fs.zip outs).filterMap fun p => if p.2 = .ok then some p.1 else none

/-- Frames transmitted in order, one `RESPOND` each. -/
def respondAll (fs : List Frame) (s : State) : State := fs.foldl (fun t f => respond f t) s

/-- The loop of a release transmits the frames of the populated slots (R229, R230). -/
theorem releaseSlots_eq_respondAll (slots : List Slot) (s : State) :
    releaseSlots slots s = respondAll ((slots.filter populated).map slotFrame) s := by
  induction slots generalizing s with
  | nil => rfl
  | cons sl rest ih =>
    rw [releaseSlots, ih, releaseSlot]
    cases h : populated sl <;> simp [h, respondAll]

/-- A `RESPOND` while `Running` uses the first outcome fixed in advance (R121, R159). -/
theorem respond_fixed {f : Frame} {o : SendOutcome} {rest : List SendOutcome} {s : State} (valid : f.valid = true)
    (running : s.block.busState = .running) (draws : s.draws.send = o :: rest) :
    respond f s = afterSends { s.draws with send := rest } (acceptedFrames [f] [o]) s := by
  obtain ⟨drawn, left⟩ := sendDraw_fixed s.params.tSend draws
  rw [respond_eq f s valid]
  cases o <;> simp [afterReply, accepted, running, drawn, left, afterSends, acceptedFrames]

/-- Transmissions while `Running` use the outcomes fixed in advance, one each. -/
theorem respondAll_fixed {fs : List Frame} {outs more : List SendOutcome} {s : State} (valid : ∀ f ∈ fs, f.valid = true)
    (running : s.block.busState = .running) (draws : s.draws.send = outs ++ more) (count : outs.length = fs.length) :
    respondAll fs s = afterSends { s.draws with send := more } (acceptedFrames fs outs) s := by
  induction fs generalizing outs s with
  | nil =>
    obtain rfl := List.length_eq_zero_iff.mp count
    obtain rfl : s.draws.send = more := draws
    simp [respondAll, afterSends, acceptedFrames]
  | cons f fs ih =>
    obtain ⟨o, outs, rfl⟩ := List.exists_cons_of_length_eq_add_one count
    have one := respond_fixed (valid f (by simp)) running draws
    have later := ih (s := respond f s) (outs := outs) (fun g hg => valid g (by simp [hg])) (by simpa using running)
      (by rw [one]; rfl) (by simpa using count)
    calc respondAll (f :: fs) s
      _ = afterSends { (respond f s).draws with send := more } (acceptedFrames fs outs) (respond f s) := later
      _ = afterSends { s.draws with send := more } (acceptedFrames [f] [o] ++ acceptedFrames fs outs) s := by
        rw [one]
        simp [afterSends]
      _ = afterSends { s.draws with send := more } (acceptedFrames (f :: fs) (o :: outs)) s := by
        cases o <;> rfl

/-- The loop of a release while `Running` uses one outcome fixed in advance for each populated slot (R229, R230). -/
theorem releaseSlots_fixed {slots : List Slot} {outs more : List SendOutcome} {s : State}
    (running : s.block.busState = .running) (draws : s.draws.send = outs ++ more)
    (count : outs.length = (slots.filter populated).length) :
    releaseSlots slots s =
      afterSends { s.draws with send := more } (acceptedFrames ((slots.filter populated).map slotFrame) outs) s := by
  rw [releaseSlots_eq_respondAll]
  exact respondAll_fixed (List.forall_mem_map.mpr fun sl _ => slotFrame_valid sl) running draws
    (count.trans (List.length_map _).symm)

/-- The accepted frames of slots, byte by byte (R103). -/
theorem acceptedFrames_slots (slots : List Slot) (outs : List SendOutcome) :
    acceptedFrames (slots.map slotFrame) outs =
      (slots.zip outs).filterMap fun p =>
        if p.2 = .ok then some (frame7E8 p.1[0] p.1[1] p.1[2] p.1[3] p.1[4] p.1[5] p.1[6] p.1[7]) else none := by
  simp only [acceptedFrames, List.zip_map_left, List.filterMap_map, ← slotFrame_bytes]
  rfl

/-! ## The obligations -/

/-- Settles O24: the release transmits the frames of the populated slots with the outcomes fixed for them. -/
theorem releaseTransmitsPendingInOrder : Obligations.ReleaseTransmitsPendingInOrder := by
  intro dlc d1 d2 s outs more sent running draws count sentIs
  have frames := (acceptedFrames_slots (s.block.mfq.filter populated) outs).trans sentIs.symm
  rw [exec_fcCont, releaseFrom, List.drop_zero, releaseSlots_fixed running draws count, frames, endRelease, clearSlots_eq]
  rfl

/-- Settles O25: everything a release from the first slot can do. -/
theorem releaseAlwaysEndsAndClears : Obligations.ReleaseAlwaysEndsAndClears := by
  intro dlc d1 d2 s
  obtain ⟨d, sent, e, sub, idle⟩ := releaseFrom_state 0 s
  rw [clearSlots_eq] at e
  exact ⟨sent, d, congrArg Host.Outcome.next e, sub, idle⟩

/-- A release of a queue that is clear already changes nothing, between two iterations (R229). -/
theorem releaseFrom_of_clear {s : State} (clear : s.block.mfq = clearSlots s.block.mfq) (between : s.block.release = none) :
    releaseFrom 0 s = s := by
  have unpopulated : s.block.mfq.filter populated = [] := by
    rw [clear, clearSlots_eq]
    simp
  rw [releaseFrom, List.drop_zero, releaseSlots_eq_respondAll, unpopulated, List.map_nil]
  simp only [respondAll, List.foldl_nil, endRelease, ← clear, ← between]

/-- Settles O26: a release leaves the queue clear and no release under way. -/
theorem secondReleaseIsEmpty : Obligations.SecondReleaseIsEmpty := by
  intro dlc dlc' d1 d2 d1' d2' s t first
  obtain ⟨d, sent, e, -⟩ := releaseFrom_state 0 s
  rw [exec_fcCont, e] at first
  cases first
  exact congrArg Host.Outcome.next (releaseFrom_of_clear (by simp) rfl)

end Sys2Proof.Machine
end

section
/-! PROOFS. The exceptions (R254, R261, R265, R276, R277): every agent can always step, an iteration of the receive loop
always handles the alerts, a `SEND` on its way out is the responder's alone, and the diagnostics classify the counters. -/

namespace Sys2Proof.Machine

/-! ## The alerts in every iteration of the receive loop -/

/-- Settles O44: with a controller the word polled is the pending one, and what it moves is one of the three cases of
`RxloopMoves`. -/
theorem receiveLoopAlwaysPollsAlerts : Obligations.ReceiveLoopAlwaysPollsAlerts := by
  intro s active installed
  obtain ⟨t, ran, d, q, rx, drop, b, l, m, n, rfl, -, moves⟩ := rxloopStep_active active
  rw [if_pos installed] at ran moves
  refine ⟨_, ran, rfl, active, installed, rfl, rfl, rfl, rfl, ?_⟩
  rcases moves with ⟨bit, running, rfl, rfl, -⟩ | ⟨bit, busOff, after, rfl, -⟩ | ⟨noEntry, noReturn, rfl, rfl, -⟩
  · refine ⟨fun _ _ => ⟨rfl, rfl⟩, fun _ busOff => ?_, fun no => absurd ⟨bit, running⟩ no⟩
    simp [running] at busOff
  · refine ⟨fun _ running => ?_, fun _ _ => ⟨after, rfl⟩, fun _ no => absurd ⟨bit, busOff⟩ no⟩
    simp [busOff] at running
  · exact ⟨fun bit running => absurd ⟨bit, running⟩ noEntry, fun bit busOff => absurd ⟨bit, busOff⟩ noReturn,
      fun _ _ => ⟨rfl, List.append_nil _⟩⟩

/-! ## Every agent can always step -/

/-- Every operation of the map ends in a next state (R113, R254). -/
theorem exec_next (i : Instr) (s : State) : ∃ t, exec i s = .next t := by
  cases i <;> exact ⟨_, rfl⟩

/-- With Frames in its queue the responder completes a whole iteration: a dequeued Frame always decodes (R113, R158). -/
theorem respStep_next {s : State} (frames : ∀ f ∈ s.block.rxq, isFrame f = true) : ∃ t, respStep s = .next t := by
  cases mid : midIteration s with
  | true => exact ⟨finishIteration s, if_pos mid⟩
  | false =>
    obtain ⟨sending, release⟩ := (midIteration_eq_false_iff s).mp mid
    cases queue : s.block.rxq with
    | nil => exact ⟨s, by simp [respStep, mid, queue]⟩
    | cons f q =>
      rw [respStep_dequeues release sending queue (decodeFrame_eq f (frames f (by simp [queue])))]
      exact exec_next _ _

/-- With Frames in its queue the responder reaches its next scheduling point (R74, R113). -/
theorem respPart_next {s : State} (frames : ∀ f ∈ s.block.rxq, isFrame f = true) : ∃ t, respPart s = .next t := by
  cases mid : midIteration s with
  | true =>
    obtain ⟨t, part, -⟩ := respPart_advances mid
    exact ⟨t, part⟩
  | false =>
    obtain ⟨sending, release⟩ := (midIteration_eq_false_iff s).mp mid
    cases queue : s.block.rxq with
    | nil => exact ⟨s, by simp only [respPart, sending, release, queue]⟩
    | cons f q =>
      have decoded := decodeFrame_eq f (frames f (by simp [queue]))
      obtain ⟨t, begins, -⟩ := beginOperation_advances (s := setRxq q s) (decodeRxf_format decoded) mid
      exact ⟨t, by simp only [respPart, sending, release, queue, decoded, begins]⟩

/-- The receive loop completes its iteration, or has none to make (R26, R157). -/
theorem rxloopStep_next (s : State) : ∃ t, rxloopStep s = .next t := by
  cases active : s.block.rxloopActive with
  | true =>
    obtain ⟨t, ran, -⟩ := rxloopStep_active active
    exact ⟨t, ran⟩
  | false => exact ⟨s, by simp [rxloopStep, active]⟩

/-- A key/value write is ignored, or is the write of a field (R149). -/
theorem hostKeyStep_next (key value : String) (s : State) : ∃ t, hostKeyStep key value s = .next t := by
  unfold hostKeyStep
  split
  · exact ⟨s, rfl⟩
  · exact exec_next _ s

/-- Settles O54: agent by agent; the invariant is needed for the Frames in the receive queue, the hypothesis on the event for
the host's commands. -/
theorem everyAgentCanAlwaysStep : Obligations.EveryAgentCanAlwaysStep := by
  intro s inv
  have frames : ∀ f ∈ (nextEvent s).2.block.rxq, isFrame f = true := by simpa using inv.rxqFrames
  rw [step, ← nextEvent_block s]
  generalize (nextEvent s).2 = s', (nextEvent s).1 = e at frames
  intro commands
  cases e with
  | resp => exact respStep_next frames
  | respPart => exact respPart_next frames
  | rxloop => exact rxloopStep_next s'
  | host bytes =>
    obtain ⟨i, decoded, allowed⟩ := commands bytes rfl
    obtain ⟨t, ran⟩ := exec_next i s'
    exact ⟨t, (hostStep_runs decoded allowed).trans ran⟩
  | hostKey key value => exact hostKeyStep_next key value s'
  | rx | alert | linkSend | linkCtrl | linkRecv | linkCounters | linkHidden | linkTxDone => exact ⟨_, rfl⟩

/-! ## A response on its way out -/

/-- No command touches the response on its way out (R131, R265). -/
theorem CommandOutcome.sending {i : Instr} {s t : State} (h : CommandOutcome i s t) : t.block.sending = s.block.sending := by
  obtain ⟨-, -, -, -, -, -, sending, -⟩ := h
  exact sending

/-- The response on its way out moves only under a step of the responder (R74, R265). -/
theorem StepOutcome.sending {e : Event} {s t : State} (h : StepOutcome e s t) :
    t.block.sending = s.block.sending ∨ e = .resp ∨ e = .respPart := by
  rcases h with ⟨responder, -⟩ | ⟨-, ⟨-, rfl⟩ | ⟨-, iteration⟩⟩ | ⟨i, -, outcome⟩ | ⟨-, -, -, rfl | ⟨u, outcome⟩⟩ | ⟨block, -⟩
  · exact .inr responder
  · exact .inl rfl
  · obtain ⟨d, q, rx, drop, b, l, m, n, rfl, -⟩ := iteration
    exact .inl rfl
  · exact .inl outcome.sending
  · exact .inl rfl
  · exact .inl outcome.sending
  · exact .inl (by rw [block])

section
variable {s : State} {f : Frame}

/-- With a response on its way out, the responder's next part is that response's (R74, R158). -/
theorem respPart_of_sending {x : Sending} (sending : s.block.sending = some x) : respPart s = .next (sendingPart x s) := by
  rw [respPart, sending]

/-- Outside a release, the rest of the iteration of a blocked `SEND` is the end of that `SEND` (R158, R265). -/
theorem respStep_of_blocked (sending : s.block.sending = some (.blocked f)) (release : s.block.release = none) :
    respStep s = .next (sendingPart (.blocked f) s) := by
  have mid : midIteration s = true := by simp [midIteration, sending]
  rw [respStep, if_pos mid, finishIteration_of_no_release release, finishSending, sending, sendingPart]

/-- A `SEND` that passes the tests of R132 is blocked (R132, R265). -/
theorem sendingPart_allowed (valid : f.valid = true) (running : s.block.busState = .running) :
    sendingPart (.asked f) s = setSending (some (.blocked f)) s := by
  rw [sendingPart, if_pos ((sendAllowed_iff f s).mpr ⟨valid, running⟩)]

/-- A `SEND` that fails a test of R132 is over, its error absorbed (R132, R159). -/
theorem sendingPart_refused (refused : f.valid = false ∨ s.block.busState ≠ .running) :
    sendingPart (.asked f) s = setSending none s := by
  rcases refused with h | h <;> simp [sendingPart, sendAllowed, h]

/-- A blocked `SEND` ends with the rest of the `SEND`, whatever the block has become (R265). -/
theorem sendingPart_blocked (f : Frame) (s : State) :
    sendingPart (.blocked f) s = { (transmit f s.params.tSend s).2 with block := { s.block with sending := none } } :=
  transmit_setBlock f s.params.tSend s { s.block with sending := none }

end

/-- Settles O60: only the responder's outcome moves the response; its own part makes the tests of the `SEND`, or ends it with
the draw of the state it ends in. -/
theorem blockedSendEndsAsDrawn : Obligations.BlockedSendEndsAsDrawn := by
  refine ⟨fun s t h changed => ?_, fun s f asked => ?_, fun s f blocked => ?_⟩
  · exact (step_outcome h).sending.resolve_left (by rwa [nextEvent_block])
  · have part : runEvent .respPart s = .next (sendingPart (.asked f) s) := respPart_of_sending asked
    refine ⟨fun valid running => ?_, fun refused => ?_⟩
    · rw [part, sendingPart_allowed valid running, setSending]
    · rw [part, sendingPart_refused refused, setSending]
  · have part : runEvent .respPart s = .next (sendingPart (.blocked f) s) := respPart_of_sending blocked
    refine ⟨fun release => (respStep_of_blocked blocked release).trans part.symm, ?_⟩
    rw [part, sendingPart_blocked]
    rcases transmit_cases f s.params.tSend s with ⟨drawn, e⟩ | ⟨drawn, e⟩ | ⟨drawn, e⟩ <;> rw [e, drawn]
    · exact ⟨fun _ => rfl, fun no => absurd rfl no⟩
    · exact ⟨nofun, fun _ => rfl⟩
    · exact ⟨nofun, fun _ => rfl⟩

/-! ## The diagnostics report -/

/-- The three ranges of R276 leave one function: the model's. -/
theorem eq_classifyCount {cls : Nat → Class} (zero : cls 0 = .ok) (low : ∀ c, 1 ≤ c → c ≤ 96 → cls c = .warning)
    (high : ∀ c, 96 < c → cls c = .critical) : cls = classifyCount := by
  funext c
  unfold classifyCount errThreshold
  split
  · next isZero => rw [isZero, zero]
  · next nonzero =>
    split
    · next within => exact low c (Nat.one_le_iff_ne_zero.mpr nonzero) within
    · next above => exact high c (Nat.lt_of_not_le above)

/-- Settles O38: the report is that of the status read in the same state. -/
theorem diagReportClassifies : Obligations.DiagReportClassifies := by
  intro s cls zero low high
  obtain rfl := eq_classifyCount zero low high
  exact ⟨busStatus s, diagReport (busStatus s), rfl, rfl, rfl, rfl, by simp [diagReport], rfl⟩

end Sys2Proof.Machine
end

section
/-! PROOFS. Reset, quiescence and the host's commands (R38, R281, R305, R306, U19): the values reset gives, the two loops with
nothing to do, and the host's three calls while the loops run. -/

namespace Sys2Proof.Machine

/-! ## Reset -/

/-- Settles O45: every value is written out in the reset state; the pending queue is `MF_SLOTS` copies of the zero slot. -/
theorem resetValues : Obligations.ResetValues :=
  ⟨rfl, rfl, rfl, rfl, List.length_replicate, fun _ => List.eq_of_mem_replicate, rfl, rfl, rfl, rfl, rfl, rfl, rfl⟩

/-! ## The loops in a quiescent state -/

section
variable {s : State}

/-- A responder between iterations whose wait on the receive queue times out does nothing (R158). -/
theorem respStep_of_empty (idle : midIteration s = false) (empty : s.block.rxq = []) : respStep s = .next s := by
  simp only [respStep, idle, empty, Bool.false_eq_true, if_false]

/-- Taken part by part, too, a responder between iterations does nothing on an empty receive queue (R74, R158). -/
theorem respPart_of_empty (idle : midIteration s = false) (empty : s.block.rxq = []) : respPart s = .next s := by
  obtain ⟨sending, release⟩ := (midIteration_eq_false_iff s).mp idle
  simp only [respPart, sending, release, empty]

/-- The receive phase over a controller that has received nothing does nothing (R133, R157). -/
theorem receivePhase_of_empty (nothing : s.link.rxFifo = []) : receivePhase s = s := by
  rw [receivePhase, pollReceive_idle _ (.inr nothing)]

/-- A poll that finds no alert pending clears nothing (R134). -/
theorem pollAlerts_of_none (quiet : s.link.alertsPending = 0) : pollAlerts s = (0, s) := by
  have unchanged : { s with link := { s.link with alertsPending := 0 } } = s := by rw [← quiet]
  rw [pollAlerts_eq, quiet, unchanged, ite_self]

/-- The empty alert word selects no handler: the bus state is latched and that is all (R153). -/
theorem handlerStep_zero (s : State) : handlerStep 0 s = .next (latchState s) := rfl

/-- With nothing received and no alert pending the active receive loop only latches the bus state, and the inactive one makes
no iteration (R26, R157). -/
theorem rxloopStep_of_nothing (nothing : s.link.rxFifo = []) (quiet : s.link.alertsPending = 0) :
    rxloopStep s = .next (if s.block.rxloopActive then latchState s else s) := by
  rw [rxloopStep, receivePhase_of_empty nothing, alertPhase, pollAlerts_of_none quiet, handlerStep_zero]
  split <;> rfl

end

/-- Settles O58: the responder is between iterations with an empty queue, and the receive loop has nothing to receive or
handle. -/
theorem quiescentLoopsChangeNothing : Obligations.QuiescentLoopsChangeNothing := by
  rintro s ⟨empty, release, sending, quiet⟩ nothing
  have idle : midIteration s = false := (midIteration_eq_false_iff s).mpr ⟨sending, release⟩
  exact ⟨respStep_of_empty idle empty, respPart_of_empty idle empty, rxloopStep_of_nothing nothing quiet⟩

/-! ## The host's three calls while the loops run -/

/-- The calls R306 speaks of are `POLL_ALERTS`, `POLL_RECEIVE` and `SEND`. -/
theorem isLoopCall_iff (i : Instr) :
    isLoopCall i = true ↔
      i = .pollAlerts ∨ (∃ timeout, i = .pollReceive timeout) ∨ ∃ f timeout, i = .send f timeout := by
  cases i <;> simp [isLoopCall]

/-- One of the three calls while the loops run is no move (R306, U19). -/
theorem hostStep_refused {s : State} {bytes : List Byte} {i : Instr} (decoded : decode (.cmd bytes) = .ok i)
    (call : isLoopCall i = true) (active : s.block.rxloopActive = true) :
    hostStep bytes s = .refused .hostCallWhileLoopsRun := by
  simp only [hostStep, decoded, call, active, Bool.and_self, if_true]

/-- Settles O59: the host's step refuses exactly the three calls, and those only while the loops run. -/
theorem loopCallsAreRefusedWhileLoopsRun : Obligations.LoopCallsAreRefusedWhileLoopsRun := by
  refine fun s bytes i decoded => ⟨fun call active => ?_, fun allowed => hostStep_runs decoded fun call => ?_⟩
  · exact hostStep_refused decoded ((isLoopCall_iff i).mpr call) active
  · rcases allowed with inactive | ⟨notAlerts, notReceive, notSend⟩
    · exact inactive
    · rcases (isLoopCall_iff i).mp call with alerts | ⟨timeout, receive⟩ | ⟨f, timeout, send⟩
      · exact absurd alerts notAlerts
      · exact absurd receive (notReceive timeout)
      · exact absurd send (notSend f timeout)

end Sys2Proof.Machine
end
